-- ==== Sys2Proof/Word.lean ====
section
/-! DEFINITION. The words of the JavaSSTV signal core: the command word and its fields' widths
(30_encoding.md R90), the audio sample (20_memory.md R62), the pixel words (R60), the byte of the
device boundary (R70). -/

namespace Sys2Proof

/-- A command word: one 64-bit word, the same width for every command (R90, R105). -/
abbrev CmdWord := BitVec 64

/-- An audio sample, `int16` (R13, R62): the 16-bit two's complement pattern, whose value is `toInt`. -/
abbrev Sample := BitVec 16

/-- A byte at the device boundary (R70). -/
abbrev Byte := BitVec 8

/-- A pixel word as the image provider gives it: `0xRRGGBB`, bits 24 and above ignored (R60). -/
abbrev PixelWord := BitVec 32

/-- A pixel colour as the raster receives it: 24 bits, `0xRRGGBB` (R66). -/
abbrev Rgb := BitVec 24

/-- A channel value, `u8` (R13). -/
abbrev ChannelValue := BitVec 8

end Sys2Proof
end

