-- ==== Sys2Proof/Config.lean ====
section
/-! DEFINITION. The configuration record `CFG` (00_scope.md R10, R11), its `CANON` values, the validity
conditions (45_decoder_fsm.md R243, 70_reset_and_hazards.md R324), and the one free value of the model. -/

namespace Sys2Proof

/-- The three colour channels. -/
inductive Channel where
  | red
  | green
  | blue
  deriving DecidableEq, Repr

/-- The byte index of a channel in the pixel word: 0 Blue, 1 Green, 2 Red (R97, R126). -/
def Channel.byteIndex : Channel → Fin 3
  | .blue => 0
  | .green => 1
  | .red => 2

/-- `PIXEL_PACKING` (R10): the one packing in scope, `0xRRGGBB`. -/
inductive Packing where
  | rrggbb
  deriving DecidableEq, Repr

/-- `VIS_BIT_ORDER` (R11, D11): the two admitted values, applied to both units together. -/
inductive VisBitOrder where
  | msbFirst
  | lsbFirst
  deriving DecidableEq, Repr

/-- `CFG`, "fixed per session" (R10, R11). Durations are whole microseconds (`_US`), frequencies whole hertz. -/
structure Config where
  sampleRate : Nat
  bitsPerSample : Nat
  channels : Nat
  amp : Nat
  blackFreq : Nat
  channelMaxFreq : Nat
  syncFreq : Nat
  porchFreq : Nat
  fskF0 : Nat
  fskF1 : Nat
  bitUs : Nat
  syncUs : Nat
  porchUs : Nat
  scanUs : Nat
  sepUs : Nat
  lineBudgetUs : Nat
  taperUs : Nat
  width : Nat
  height : Nat
  /-- `TX_ORDER`: the channels in transmission order. -/
  txOrder : Channel × Channel × Channel
  pixelPacking : Packing
  visBits : Nat
  visSlotsRequired : Nat
  visSkipSlots : Nat
  toneThreshold : Rat
  /-- `CHUNK_SAMPLES`: a recommendation to the host, not a limit. -/
  chunkSamples : Nat
  /-- `VIS_CODE`: the OPEN parameter, an argument of the model (R11, D12, U1). -/
  visCode : BitVec 8
  visBitOrder : VisBitOrder
  visRxF1 : Nat
  visRxF0 : Nat
  visConsumeSlots : Nat
  eps : Rat
  /-- `SB_MAX`: the OPEN bound of the stream buffer, none unless the host sets one (R65, D23, U2). -/
  sbMax : Option Nat
  deriving DecidableEq, Repr

/-- The profile `CANON` (R2, R10, R11). `visCode` is DESIGN CHOICE: R11 gives `VIS_CODE` no value, and
0x4C is the illustrative value of 95_test_vectors.md (notes/assumptions/2.md). Unsafe: hardware whose host
passes another code behaves differently; statements hold for every value of the field. -/
def Config.canon : Config where
  sampleRate := 44100
  bitsPerSample := 16
  channels := 1
  amp := 32767
  blackFreq := 1500
  channelMaxFreq := 2300
  syncFreq := 1200
  porchFreq := 1500
  fskF0 := 1100
  fskF1 := 1300
  bitUs := 30000
  syncUs := 9000
  porchUs := 1500
  scanUs := 138240
  sepUs := 1500
  lineBudgetUs := 445000
  taperUs := 5000
  width := 320
  height := 256
  txOrder := (.green, .blue, .red)
  pixelPacking := .rrggbb
  visBits := 8
  visSlotsRequired := 10
  visSkipSlots := 1
  toneThreshold := 1 / 5
  chunkSamples := 4096
  visCode := 0x4C
  visBitOrder := .msbFirst
  visRxF1 := 1300
  visRxF0 := 1100
  visConsumeSlots := 10
  eps := 1 / 1000000000
  sbMax := none

/-- The FREE VALUE of the model: what the sample input port gives for the `k`-th sample that a command takes
and the host has not delivered. The spec states no value there (R98 says only that the samples are taken from
the port). DESIGN CHOICE, safe: nothing constrains it (notes/assumptions/10.md). -/
opaque Config.freePortSample : Nat → Sample

end Sys2Proof
end

