-- ==== Sys2Proof/Syntax.lean ====
section
/-! DEFINITION. The 21 commands of the core, one constructor per row of spec/opcode_table.json, with the
operand fields of 30_encoding.md R92. -/

namespace Sys2Proof

/-- A command with its operand fields as the command word holds them (R92); the operands they stand for are
assembled by R94 to R98 (Machine/Operands.lean). -/
inductive Instr where
  /-- `PADV freq` (R130) -/
  | padv (freq : BitVec 16)
  /-- `TONE freq, dur [, T]` (R146) -/
  | tone (freq : BitVec 16) (dur : BitVec 32) (taper : Bool)
  /-- `SWEEP dur` (R150) -/
  | sweep (dur : BitVec 32)
  /-- `BITS n, pat, dur` (R172) -/
  | bits (n : BitVec 4) (pat : BitVec 8) (dur : BitVec 32)
  /-- `SIL dur` (R160) -/
  | sil (dur : BitVec 32)
  /-- `LDCH c, y` (R182) -/
  | ldch (c : BitVec 2) (y : BitVec 16)
  /-- `ERESET` (R180) -/
  | ereset
  /-- `ENCODE vis` (R186) -/
  | encode (vis : BitVec 8)
  /-- `APPEND n` (R220) -/
  | append (n : BitVec 32)
  /-- `PEEK n` (R224) -/
  | peek (n : BitVec 32)
  /-- `CONSUME n` (R226) -/
  | consume (n : BitVec 32)
  /-- `GOERTZ freq` (R216) -/
  | goertz (freq : BitVec 16)
  /-- `VISDET` (R246) -/
  | visdet
  /-- `SYNCDET` (R248) -/
  | syncdet
  /-- `PORCHDET` (R250) -/
  | porchdet
  /-- `CHDEC k` (R252) -/
  | chdec (k : BitVec 2)
  /-- `ROWOUT` (R256) -/
  | rowout
  /-- `STEP` (R260) -/
  | step
  /-- `PASS` (R262) -/
  | pass
  /-- `STOP` (R266) -/
  | stop
  /-- `DRESET` (R268) -/
  | dreset
  deriving DecidableEq, Repr

end Sys2Proof
end

