-- ==== Sys2Proof/WellFormed.lean ====
section
/-! DEFINITION. Which commands have a command word: the operand checks of 30_encoding.md R101. -/

namespace Sys2Proof

/-- The `BITS` checks of R101: `n ≤ 8`, and the pattern bits `A[7:n]` are zero (R96). -/
abbrev BitsOperandsOk (n : BitVec 4) (pat : BitVec 8) : Prop :=
  n.toNat ≤ 8 ∧ pat.toNat < 2 ^ n.toNat

/-- The channel check of R101 (`c ≤ 2` for `LDCH`, `k ≤ 2` for `CHDEC`): value 3 is reserved (R97). -/
abbrev ChannelOperandOk (c : BitVec 2) : Prop := c.toNat ≤ 2

/-- A command is well formed when its fields pass the checks of R101; every other term has no command word. -/
abbrev Instr.WellFormed (i : Instr) : Prop :=
  match i with
  | .bits n pat _ => BitsOperandsOk n pat
  | .ldch c _ => ChannelOperandOk c
  | .chdec k => ChannelOperandOk k
  | .padv _ => True
  | .tone _ _ _ => True
  | .sweep _ => True
  | .sil _ => True
  | .ereset => True
  | .encode _ => True
  | .append _ => True
  | .peek _ => True
  | .consume _ => True
  | .goertz _ => True
  | .visdet => True
  | .syncdet => True
  | .porchdet => True
  | .rowout => True
  | .step => True
  | .pass => True
  | .stop => True
  | .dreset => True

end Sys2Proof
end

