-- ==== Sys2Proof/Decode.lean ====
section
/-! DEFINITION. The command word (30_encoding.md R90 to R105): its fields, the decoder, total on every 64-bit
word and rejecting a reserved word by name (R101, R104), and the encoder. A command word has no byte order
(R90). -/

namespace Sys2Proof

/-- `OPC = W[63:56]` (R90). -/
def opcField (w : CmdWord) : BitVec 8 := w.extractLsb' 56 8

/-- `MOD = W[55:48]` (R90). -/
def modField (w : CmdWord) : BitVec 8 := w.extractLsb' 48 8

/-- `A = W[47:32]` (R90). -/
def aField (w : CmdWord) : BitVec 16 := w.extractLsb' 32 16

/-- `D = W[31:0]` (R90). -/
def dField (w : CmdWord) : BitVec 32 := w.extractLsb' 0 32

/-- The word with the four fields given (R90). -/
def packWord (opc md : BitVec 8) (a : BitVec 16) (d : BitVec 32) : CmdWord := opc ++ md ++ a ++ d

/-- Why a word is reserved (R104). -/
inductive DecodeError where
  /-- `OPC` is not in the opcode map (R100). -/
  | unlistedOpcode
  /-- A bit that the format names zero is set (R92). -/
  | mustBeZero
  /-- `BITS` with `n` from 9 to 15. -/
  | bitCount
  /-- `BITS` with a non-zero bit in `A[7:n]`. -/
  | bitPattern
  /-- `LDCH` with `c` = 3 or `CHDEC` with `k` = 3. -/
  | channel
  deriving DecidableEq, Repr

/-- Format `Z`: `MOD`, `A` and `D` are zero (R92). -/
def formatZ (w : CmdWord) (i : Instr) : Except DecodeError Instr :=
  if modField w = 0 ∧ aField w = 0 ∧ dField w = 0 then .ok i else .error .mustBeZero

/-- Format `F`: `A` is the frequency; `MOD` and `D` are zero (R92). -/
def formatF (w : CmdWord) (mk : BitVec 16 → Instr) : Except DecodeError Instr :=
  if modField w = 0 ∧ dField w = 0 then .ok (mk (aField w)) else .error .mustBeZero

/-- Format `T`: `MOD[0]` is the taper flag, `A` the frequency, `D` the duration (R92). -/
def formatT (w : CmdWord) (mk : BitVec 16 → BitVec 32 → Bool → Instr) : Except DecodeError Instr :=
  if (modField w).extractLsb' 1 7 = 0 then .ok (mk (aField w) (dField w) ((modField w).getLsbD 0))
  else .error .mustBeZero

/-- Formats `D` and `N`: `D` is the operand; `MOD` and `A` are zero (R92). -/
def formatD (w : CmdWord) (mk : BitVec 32 → Instr) : Except DecodeError Instr :=
  if modField w = 0 ∧ aField w = 0 then .ok (mk (dField w)) else .error .mustBeZero

/-- Format `B`: `MOD[3:0]` is `n`, `A[7:0]` the pattern, `D` the duration per bit (R92), with the checks of R101. -/
def formatB (w : CmdWord) (mk : BitVec 4 → BitVec 8 → BitVec 32 → Instr) : Except DecodeError Instr :=
  let n := (modField w).extractLsb' 0 4
  let pat := (aField w).extractLsb' 0 8
  if (modField w).extractLsb' 4 4 = 0 ∧ (aField w).extractLsb' 8 8 = 0 then
    if n.toNat ≤ 8 then
      if pat.toNat < 2 ^ n.toNat then .ok (mk n pat (dField w)) else .error .bitPattern
    else .error .bitCount
  else .error .mustBeZero

/-- Format `C` of `LDCH`: `MOD[1:0]` is `c`, `A` the row; `D` is zero (R92), `c ≤ 2` (R101). -/
def formatCRow (w : CmdWord) (mk : BitVec 2 → BitVec 16 → Instr) : Except DecodeError Instr :=
  let c := (modField w).extractLsb' 0 2
  if (modField w).extractLsb' 2 6 = 0 ∧ dField w = 0 then
    if c.toNat ≤ 2 then .ok (mk c (aField w)) else .error .channel
  else .error .mustBeZero

/-- Format `C` of `CHDEC`: `MOD[1:0]` is `k`; `A` and `D` are zero (R92), `k ≤ 2` (R101). -/
def formatC (w : CmdWord) (mk : BitVec 2 → Instr) : Except DecodeError Instr :=
  let c := (modField w).extractLsb' 0 2
  if (modField w).extractLsb' 2 6 = 0 ∧ aField w = 0 ∧ dField w = 0 then
    if c.toNat ≤ 2 then .ok (mk c) else .error .channel
  else .error .mustBeZero

/-- Format `V`: `A[7:0]` is the VIS code; `MOD`, `A[15:8]` and `D` are zero (R92). -/
def formatV (w : CmdWord) (mk : BitVec 8 → Instr) : Except DecodeError Instr :=
  if modField w = 0 ∧ (aField w).extractLsb' 8 8 = 0 ∧ dField w = 0 then
    .ok (mk ((aField w).extractLsb' 0 8))
  else .error .mustBeZero

/-- Decoding a command word (R101): every word is one instruction or reserved. -/
def decode (w : CmdWord) : Except DecodeError Instr :=
  match (opcField w).toNat with
  | 0x10 => formatF w .padv
  | 0x11 => formatT w .tone
  | 0x12 => formatD w .sweep
  | 0x13 => formatB w .bits
  | 0x14 => formatD w .sil
  | 0x15 => formatCRow w .ldch
  | 0x1E => formatZ w .ereset
  | 0x1F => formatV w .encode
  | 0x20 => formatD w .append
  | 0x21 => formatD w .peek
  | 0x22 => formatD w .consume
  | 0x23 => formatF w .goertz
  | 0x24 => formatZ w .visdet
  | 0x25 => formatZ w .syncdet
  | 0x26 => formatZ w .porchdet
  | 0x27 => formatC w .chdec
  | 0x28 => formatZ w .rowout
  | 0x29 => formatZ w .step
  | 0x2A => formatZ w .pass
  | 0x2B => formatZ w .stop
  | 0x2E => formatZ w .dreset
  | _ => .error .unlistedOpcode

/-- The operation code of each command (R100). -/
def opcodeOf : Instr → BitVec 8
  | .padv _ => 0x10
  | .tone _ _ _ => 0x11
  | .sweep _ => 0x12
  | .bits _ _ _ => 0x13
  | .sil _ => 0x14
  | .ldch _ _ => 0x15
  | .ereset => 0x1E
  | .encode _ => 0x1F
  | .append _ => 0x20
  | .peek _ => 0x21
  | .consume _ => 0x22
  | .goertz _ => 0x23
  | .visdet => 0x24
  | .syncdet => 0x25
  | .porchdet => 0x26
  | .chdec _ => 0x27
  | .rowout => 0x28
  | .step => 0x29
  | .pass => 0x2A
  | .stop => 0x2B
  | .dreset => 0x2E

/-- `MOD` of each command (R92). -/
def modOf : Instr → BitVec 8
  | .tone _ _ taper => if taper then 1 else 0
  | .bits n _ _ => n.setWidth 8
  | .ldch c _ => c.setWidth 8
  | .chdec k => k.setWidth 8
  | .padv _ | .sweep _ | .sil _ | .ereset | .encode _ | .append _ | .peek _ | .consume _ | .goertz _
  | .visdet | .syncdet | .porchdet | .rowout | .step | .pass | .stop | .dreset => 0

/-- `A` of each command (R92). -/
def aOf : Instr → BitVec 16
  | .padv freq => freq
  | .tone freq _ _ => freq
  | .goertz freq => freq
  | .bits _ pat _ => pat.setWidth 16
  | .ldch _ y => y
  | .encode vis => vis.setWidth 16
  | .sweep _ | .sil _ | .ereset | .append _ | .peek _ | .consume _ | .visdet | .syncdet | .porchdet
  | .chdec _ | .rowout | .step | .pass | .stop | .dreset => 0

/-- `D` of each command (R92). -/
def dOf : Instr → BitVec 32
  | .tone _ dur _ => dur
  | .sweep dur => dur
  | .bits _ _ dur => dur
  | .sil dur => dur
  | .append n => n
  | .peek n => n
  | .consume n => n
  | .padv _ | .ldch _ _ | .ereset | .encode _ | .goertz _ | .visdet | .syncdet | .porchdet | .chdec _
  | .rowout | .step | .pass | .stop | .dreset => 0

/-- The command word of a command (R90, R92, R100). -/
def encode (i : Instr) : CmdWord := packWord (opcodeOf i) (modOf i) (aOf i) (dOf i)

/-- The instruction the decoder reads from the `nbits` low bits `w`, every bit above them 0. A command is one
64-bit word (R90), so the table's numbering of bits is the word's own, and more than 64 bits are no command. -/
def decodeTableWord (nbits w : Nat) : Option Instr :=
  if nbits ≤ 64 then
    match decode (BitVec.ofNat 64 (w % 2 ^ nbits)) with
    | .ok i => some i
    | .error _ => none
  else none

end Sys2Proof
end

