-- ==== Sys2Proof/Machine/State.lean ====
section
/-! DEFINITION. The architectural state of the core (10_state.md, 20_memory.md), the outcomes of a command
(00_scope.md R17, 60_exceptions.md R280), the host's side of the interface (60_exceptions.md R290 to R304), and
the state after reset (10_state.md R52). -/

namespace Sys2Proof.Machine

/-! ### Exceptions and outcomes -/

/-- The six exceptions (R280). -/
inductive Exc where
  | preconditionError
  | malformedInput
  | deviceError
  | protocolMismatch
  | bufferUnderrun
  | toneAbsent
  deriving DecidableEq, Repr

/-- Which precondition failed (R281, R282). -/
inductive PreconditionCause where
  | negativeDuration (dur : Int)
  | emptyFrequencyArray
  | morePixelsThanSamples
  | rowOutOfRange
  deriving DecidableEq, Repr

/-- An exception that a command raises, with what it reports (R281). -/
inductive Raise where
  | precondition (cause : PreconditionCause)
  | malformedInput
  | bufferUnderrun
  deriving DecidableEq, Repr

/-- The reasons of a hold (R241): `ProtocolMismatch` (R286) and `ToneAbsent` (R287). -/
inductive Hold where
  | protocolMismatch
  | toneAbsent
  deriving DecidableEq, Repr

/-- Why the core refuses a command: it executes nothing and takes the next one (R104). -/
inductive RefuseReason where
  /-- A reserved word (R104). -/
  | reservedWord (e : DecodeError)
  /-- `ENC.FAULT` holds `DeviceError` (R45). -/
  | encFaulted
  /-- `DEC.FAULT` is set (R45). -/
  | decFaulted
  /-- `APPEND` after `STOP` (R220). -/
  | stopped
  /-- `ROWOUT` with `ROW ≥ HEIGHT` (R256, U8). -/
  | rowOutOfFrame
  /-- `ROWOUT` reads an `ACC` entry that has no value (R33, U7). -/
  | accUnwritten
  deriving DecidableEq, Repr

/-- The outcome of a command (R17). For a state-machine action `ok` is `progressed` (R241). -/
inductive CmdResult where
  | ok
  | raised (x : Raise)
  | held (h : Hold)
  | refused (r : RefuseReason)
  deriving DecidableEq, Repr

/-! ### The encoder unit -/

/-- The stages of the encoder's sequence (R30). -/
inductive Stage where
  | idle
  | vis
  | vsync
  | vporch
  | hsync
  | hporch
  | scan
  | sep
  | pad
  | done
  deriving DecidableEq, Repr

/-- `SEQ`, the sequencer position `(stage, y, k)` (R30). -/
structure Seq where
  stage : Stage
  y : Nat
  k : Fin 3
  deriving DecidableEq, Repr

/-- The state of `ENC` (R20). `FQLEN` is the length of `fq` (R32), `PCM.len` that of `pcm` (R62). -/
structure Enc where
  /-- `PHASE` in turns: the register's value is `2 * π * phase` radians (R23). Every advance adds a rational
  number of turns (R130), so the register is held exactly. DEDUCED, notes/assumptions/3.md. -/
  phase : Rat
  /-- `FQ[0 .. FQLEN−1]`, exact frequencies in Hz (R32). -/
  fq : List Rat
  /-- `SEQ` (R30). -/
  seq : Seq
  /-- `ENC.FAULT` (R44). -/
  fault : Option Exc
  /-- `PCM` (R62). -/
  pcm : List Sample
  deriving DecidableEq, Repr

/-! ### The decoder unit -/

/-- `STATE` (R40). -/
inductive DecState where
  | awaitingVIS
  | awaitingSync
  | awaitingPorch
  | decodingLine (k : Fin 3)
  deriving DecidableEq, Repr

/-- The Fourier sum of a window at one frequency, exact: `Σ a * exp(2πi k / order)` over its terms `(k, a)`,
`k` strictly rising and below `order`, `a` not zero (R212). -/
structure DftSum where
  order : Nat
  terms : List (Nat × Int)
  deriving DecidableEq, Repr

/-- `GP` (R35): the power `|sum|² / 32768²` of R212, held exactly by its Fourier sum. DEDUCED,
notes/assumptions/5.md. -/
structure Power where
  sum : DftSum
  deriving DecidableEq, Repr

/-- `GM` (R35): the magnitude `2 * sqrt(POWER) / n` of R214 (0 for `n` = 0), held exactly by the Fourier sum
and the window's length. -/
structure Magnitude where
  sum : DftSum
  n : Nat
  deriving DecidableEq, Repr

/-- `ACC` (R33), `k` = 0 Green, 1 Blue, 2 Red: the entries that have a value, from `x` = 0 on; an entry past the
end of its list has no value. -/
structure Acc where
  green : List ChannelValue
  blue : List ChannelValue
  red : List ChannelValue
  deriving DecidableEq, Repr

/-- The state of `DEC` (R20). `WLEN` is the length of `win` (R34), `SB.len` that of `sb` (R64). -/
structure Dec where
  /-- `STATE` (R40). -/
  state : DecState
  /-- `ROW` (R41). -/
  row : Nat
  /-- `ACC` (R33). -/
  acc : Acc
  /-- `WIN[0 .. WLEN−1]` (R34). -/
  win : List Sample
  /-- `GP` (R35). -/
  gp : Power
  /-- `GM` (R35). -/
  gm : Magnitude
  /-- `STOPPED` (R44). -/
  stopped : Bool
  /-- `DEC.FAULT` (R44). -/
  fault : Option Exc
  /-- `SB`, oldest sample first (R64). -/
  sb : List Sample
  deriving DecidableEq, Repr

/-! ### The host's side -/

/-- A pixel store: pairs of an address and a pixel word in canonical form, addresses strictly rising and no word
0x000000, which an unlisted address reads as (notes/assumptions/13.md). -/
abbrev Memory := List (Nat × PixelWord)

/-- `IMG` (R60): width, height and pixels; the pixel of column `x`, row `y` is at address `x * height + y`
(column index first, as in `pixels[width][height]`). -/
structure Image where
  width : Nat
  height : Nat
  pixels : Memory
  deriving DecidableEq, Repr

/-- A call the core makes on the raster (R304). -/
inductive RasterCall where
  | reset (width height : Nat)
  | setPixel (x y : Nat) (rgb : Rgb)
  deriving DecidableEq, Repr

/-- The two units (R1). -/
inductive UnitId where
  | enc
  | dec
  deriving DecidableEq, Repr

/-- What the host presents to the core (R90, R284, R302, R303). -/
inductive HostInput where
  /-- A command word (R91). -/
  | command (w : CmdWord)
  /-- The event `DeviceError(u)` (R284). -/
  | deviceError (u : UnitId)
  /-- The host binds an image to `IMG`, or unbinds it (R303). -/
  | bindImage (img : Option Image)
  /-- The bytes that one `read` of the audio input gave, delivered to the sample input port (R70, R302). -/
  | deviceRead (bytes : List Byte)
  deriving DecidableEq, Repr

/-- What the host owns or observes. -/
structure HostSide where
  /-- The inputs presented and not yet taken, in order (R91). -/
  inbox : List HostInput
  /-- The sample input port: the samples delivered and not yet taken (R98). -/
  port : List Sample
  /-- The MODEL's own counter: how many samples were taken from the port that the host had not delivered; it
  makes each of them a fresh free value (notes/assumptions/10.md). -/
  portCount : Nat
  /-- `IMG` (R60); `none` when no image is bound (R61). -/
  img : Option Image
  /-- `RASTER`: the calls the core has made, oldest first (R66, R77, R304). -/
  raster : List RasterCall
  /-- The PCM buffers handed to the host, oldest first (R194). -/
  handed : List (List Sample)
  /-- The outcome of the last command (R17, R281); `none` before the first. -/
  result : Option CmdResult
  deriving DecidableEq, Repr

/-- The whole machine: the configuration, the two units, the host's side (R20). -/
structure State where
  /-- `CFG` (R10, R11), written by no step. -/
  cfg : Config
  enc : Enc
  dec : Dec
  host : HostSide
  deriving DecidableEq, Repr

/-- The machine has no fault: no exception stops it, each ends one command and the host presents the next (R293,
R294). Safe: no step answers a fault. -/
inductive Fault where
  deriving DecidableEq, Repr

/-- Why a step has no next state. -/
inductive Refusal where
  /-- Raised by `exec`'s arm of an instruction that has no meaning yet. Safe: the model stops. -/
  | notModelled (mnemonic : String)
  /-- Raised by every step over a `CFG` that breaks a condition of R243 or R324, which is outside the spec (U12).
  Safe: the model stops. -/
  | invalidConfig
  /-- Raised by a device read of an odd number of bytes (R71, U9), which the spec leaves outside. Safe: the model
  stops. -/
  | oddByteCount
  /-- Raised by an `APPEND` that would exceed `SB_MAX` where the host set one; the spec says nothing about it (R65,
  U2). Safe: the model stops. It cannot happen with the default, none. -/
  | streamBufferBound
  deriving DecidableEq, Repr

/-! ### Reset (R52) -/

/-- A Fourier sum of no terms: the real number 0. -/
def DftSum.zero : DftSum := ⟨1, []⟩

/-- `ENC`'s column of the reset table (R52). -/
def Enc.reset : Enc where
  phase := 0
  fq := []
  seq := ⟨.idle, 0, 0⟩
  fault := none
  pcm := []

/-- `ACC` with no entry that has a value (R52, R268). -/
def Acc.unwritten : Acc := ⟨[], [], []⟩

/-- `DEC`'s column of the reset table (R52). -/
def Dec.reset : Dec where
  state := .awaitingVIS
  row := 0
  acc := .unwritten
  win := []
  gp := ⟨.zero⟩
  gm := ⟨.zero, 0⟩
  stopped := false
  fault := none
  sb := []

/-- The host's side before it has done anything. R52 says that reset does not affect `IMG` and `RASTER`; nothing
presented, bound or drawn is DESIGN CHOICE (notes/assumptions/8.md, 9.md, 10.md, 13.md, 14.md, 18.md). -/
def HostSide.initial : HostSide where
  inbox := []
  port := []
  portCount := 0
  img := none
  raster := []
  handed := []
  result := none

/-- Power-on reset: `ERESET` and `DRESET` (R320), with `CFG` at the `CANON` values (R52). -/
def State.reset : State where
  cfg := .canon
  enc := .reset
  dec := .reset
  host := .initial

end Sys2Proof.Machine
end

