-- ==== Sys2Proof/Machine/Flags.lean ====
section
/-! DEFINITION. The latches (10_state.md R44, R45), the exception codes (60_exceptions.md R280), the status numbers
of `STATE` (R40), and what of an outcome surfaces to the host (R280, R281). The core has no condition codes (R44). -/

namespace Sys2Proof.Machine

/-- The code of an exception (R280). -/
def Exc.code : Exc → Nat
  | .preconditionError => 1
  | .malformedInput => 2
  | .deviceError => 3
  | .protocolMismatch => 4
  | .bufferUnderrun => 5
  | .toneAbsent => 6

/-- The value of a `FAULT` latch: `NONE` is 0 (R280). -/
def latchCode : Option Exc → Nat
  | none => 0
  | some x => x.code

/-- The exception that a raise names (R280). -/
def Raise.exc : Raise → Exc
  | .precondition _ => .preconditionError
  | .malformedInput => .malformedInput
  | .bufferUnderrun => .bufferUnderrun

/-- The exception that a hold names (R280). -/
def Hold.exc : Hold → Exc
  | .protocolMismatch => .protocolMismatch
  | .toneAbsent => .toneAbsent

/-- The number of a decoder state (R40). -/
def DecState.number : DecState → Nat
  | .awaitingVIS => 0
  | .awaitingSync => 1
  | .awaitingPorch => 2
  | .decodingLine k => 3 + k.val

/-- The exception that an outcome surfaces to the host: a reported exception of the command; a hold never surfaces
(R280, R281). -/
def CmdResult.surfaced : CmdResult → Option Exc
  | .raised x => some x.exc
  | .ok => none
  | .held _ => none
  | .refused _ => none

/-- `ENC.FAULT` refuses commands only when it holds `DeviceError` (R45). -/
def encBlocked (e : Enc) : Bool := e.fault = some .deviceError

/-- `DEC.FAULT` refuses commands whenever it is set (R45). -/
def decBlocked (d : Dec) : Bool := d.fault.isSome

/-- `ENC.FAULT <- x` (R44). -/
def Enc.setFault (e : Enc) (x : Option Exc) : Enc := { e with fault := x }

/-- `DEC.FAULT <- x` (R44). -/
def Dec.setFault (d : Dec) (x : Option Exc) : Dec := { d with fault := x }

/-- `STOPPED <- true` (R266). -/
def Dec.setStopped (d : Dec) : Dec := { d with stopped := true }

end Sys2Proof.Machine
end

