-- ==== Sys2Proof/Machine/Numerics.lean ====
section
/-! DEFINITION. The numerics `NUM` (00_scope.md R14): exact real arithmetic, the reference reading (D3), computed.
Every real number of the core is a polynomial in cosines and sines of rational multiples of `2π`, so it is an
algebraic number. A real becomes an integer, or two reals are compared, at the places R133 lists; each such
decision is made here from an enclosure of the exact value at growing precision:

* an enclosure at precision `p` is an integer ball around `2 ^ p` times the number;
* a decision that the ball settles is the exact one;
* a decision that no ball can settle is a tie (the number lies exactly on the boundary), found by an exact test in
  the cyclotomic integers;
* the number of doublings `fuel` is above what the distance of an algebraic number from a boundary can need
  (a non-zero algebraic integer has a norm of absolute value at least 1).

DEDUCED, notes/assumptions/4.md. -/

namespace Sys2Proof.Machine

/-! ### Enclosures of `π`, `cos` and `sin` -/

/-- A complex ball at a precision `p`: the number `z` satisfies `|2 ^ p * z − (re + i im)| ≤ rad`. -/
structure Ball where
  re : Int
  im : Int
  rad : Nat
  deriving DecidableEq, Repr

/-- A real ball: the number, times the scale its user states, lies within `rad` of `mid`. -/
structure RealBall where
  mid : Int
  rad : Nat
  deriving DecidableEq, Repr

/-- The least number a real ball holds. -/
def RealBall.lo (b : RealBall) : Int := b.mid - b.rad

/-- The greatest number a real ball holds. -/
def RealBall.hi (b : RealBall) : Int := b.mid + b.rad

/-- Terms `k`, `k + 1`, … of the series of `2 ^ p * arctan (1 / q)`, each rounded down; `a` is `2 ^ p / q ^ (2k + 1)`
rounded down. The first argument counts the terms. -/
def atanInv (q : Nat) : Nat → Nat → Nat → Int
  | 0, _, _ => 0
  | n + 1, k, a =>
    (if k % 2 = 0 then ((a / (2 * k + 1) : Nat) : Int) else -((a / (2 * k + 1) : Nat) : Int))
      + atanInv q n (k + 1) (a / (q * q))

/-- How many terms of the two series of `piMid` are taken. -/
def piTerms (p : Nat) : Nat := p / 4 + 2

/-- The middle of an enclosure of `2 ^ p * π`, by `π / 4 = 4 arctan (1/5) − arctan (1/239)`. -/
def piMid (p : Nat) : Int :=
  4 * (4 * atanInv 5 (piTerms p) 0 (2 ^ p / 5) - atanInv 239 (piTerms p) 0 (2 ^ p / 239))

/-- The radius of that enclosure: each term errs by less than 1, each series' tail by at most 1. -/
def piRad (p : Nat) : Nat := 20 * (piTerms p + 1)

/-- Terms `m`, `m + 1`, … of the series of `2 ^ p * exp (i y / 2 ^ p)`, real and imaginary part; `t` is the size
of term `m`. The first argument counts the terms. -/
def expSum (p : Nat) (y : Int) : Nat → Nat → Int → Int × Int
  | 0, _, _ => (0, 0)
  | n + 1, m, t =>
    let r := expSum p y n (m + 1) (t * y / ((2 ^ p * (m + 1) : Nat) : Int))
    match m % 4 with
    | 0 => (r.1 + t, r.2)
    | 1 => (r.1, r.2 + t)
    | 2 => (r.1 - t, r.2)
    | _ => (r.1, r.2 - t)

/-- How many terms of the exponential series are taken: `|y| ≤ 2 ^ p` and `(p / 3 + 8)!` is above `2 ^ p`. -/
def expTerms (p : Nat) : Nat := p / 3 + 8

/-- An enclosure of `exp (2πi u)` for `u` in `[−1/8, 1/8]`; exact for `u` = 0. -/
def cisSmall (p : Nat) (u : Rat) : Ball :=
  if u = 0 then ⟨2 ^ p, 0, 0⟩
  else
    let s := expSum p (2 * piMid p * u.num / (u.den : Int)) (expTerms p) 0 (2 ^ p)
    ⟨s.1, s.2, piRad p + 2 * expTerms p + 2⟩

/-- A ball turned by `q` quarter turns. -/
def Ball.quarterTurns (b : Ball) (q : Int) : Ball :=
  match q % 4 with
  | 0 => b
  | 1 => ⟨-b.im, b.re, b.rad⟩
  | 2 => ⟨-b.re, -b.im, b.rad⟩
  | _ => ⟨b.im, -b.re, b.rad⟩

/-- An enclosure of `exp (2πi t)`: `t` turns are taken to the nearest quarter turn and a rest. -/
def cis (p : Nat) (t : Rat) : Ball :=
  let q := (4 * t + 1 / 2).floor
  (cisSmall p (t - (q : Rat) / 4)).quarterTurns q

/-! ### Decisions -/

/-- The first precision tried. -/
def basePrecision : Nat := 64

/-- The decision `test` makes at the first of the precisions `p`, `2 p`, `4 p`, … that settles it; `last` after
`fuel` of them. -/
def refine {α : Type} (test : Nat → Option α) (last : Nat → α) : Nat → Nat → α
  | 0, p => last p
  | fuel + 1, p =>
    match test p with
    | some a => a
    | none => refine test last fuel (2 * p)

/-- A decision with an exact test for a tie, made only where the base precision does not settle it. -/
def decideReal {α : Type} (test : Nat → Option α) (tie : Unit → Bool) (onTie : Nat → α) (fuel : Nat) : α :=
  match test basePrecision with
  | some a => a
  | none => if tie () then onTie basePrecision else refine test onTie fuel (2 * basePrecision)

/-! ### The sample value (R128, R140)

`env` names the envelope value: `none` is 1, `some (j, tn)` is `0.5 − 0.5 cos (π j / tn)` (R142). -/

/-- An enclosure of `2 ^ (p + 1)` times the envelope value. -/
def envBall (p : Nat) (env : Option (Nat × Nat)) : RealBall :=
  match env with
  | none => ⟨2 ^ (p + 1), 0⟩
  | some (j, tn) =>
    let c := cis p (mkRat j (2 * tn))
    ⟨2 ^ p - c.re, c.rad⟩

/-- An enclosure of `2 ^ (2p + 1) * (amp × e × sin (2π t))`. -/
def sampleBall (amp : Nat) (env : Option (Nat × Nat)) (t : Rat) (p : Nat) : RealBall :=
  let s := cis p t
  let e := envBall p env
  ⟨amp * (e.mid * s.im), amp * (e.mid.natAbs * s.rad + s.im.natAbs * e.rad + e.rad * s.rad)⟩

/-- `QUANT` of the sample value (truncation toward zero, R128), where the enclosure at `p` settles it. -/
def quantTest (amp : Nat) (env : Option (Nat × Nat)) (t : Rat) (p : Nat) : Option Int :=
  let x := sampleBall amp env t p
  let lo := x.lo.tdiv (2 ^ (2 * p + 1))
  if lo = x.hi.tdiv (2 ^ (2 * p + 1)) then some lo else none

/-- The nearest whole number to the sample value, as the enclosure at `p` has it. -/
def nearestSample (amp : Nat) (env : Option (Nat × Nat)) (t : Rat) (p : Nat) : Int :=
  ((sampleBall amp env t p).mid + 2 ^ (2 * p)) / 2 ^ (2 * p + 1)

/-- The doublings that settle a sample value: it lies in a cyclotomic field of order dividing `8 × den t × tn`. -/
def quantFuel (env : Option (Nat × Nat)) (t : Rat) : Nat :=
  Nat.log2 (8 * t.den * (match env with | none => 1 | some (_, tn) => tn)) + 3

/-- `QUANT(amp × e × sin (2π t))` (R128, R140). -/
def quantSine (amp : Nat) (env : Option (Nat × Nat)) (t : Rat) : Int :=
  refine (quantTest amp env t) (nearestSample amp env t) (quantFuel env t) basePrecision

/-! ### Fourier sums (R212)

The samples enter as integers; the normalisation `1 / 32768` of R211 is a factor `1 / 2 ^ 30` of the power. -/

/-- `2 ^ p` times `x + c × a` for the number `c` of absolute value 1 and the number `a` of the two balls. The exact
zero stays exact. -/
def Ball.mulAdd (p : Nat) (c : Ball) (x : Int) (a : Ball) : Ball :=
  if a.re = 0 ∧ a.im = 0 ∧ a.rad = 0 then ⟨x * 2 ^ p, 0, 0⟩
  else
    ⟨x * 2 ^ p + (c.re * a.re - c.im * a.im) / 2 ^ p, (c.re * a.im + c.im * a.re) / 2 ^ p,
      a.rad + c.rad * (a.re.natAbs + a.im.natAbs) / 2 ^ p + 3⟩

/-- An enclosure of the Fourier sum `Σ w[m] exp (2πi f m / rate)` (R212), by Horner's rule. -/
def dftBall (rate f : Nat) (w : List Sample) (p : Nat) : Ball :=
  let c := cis p (mkRat f rate)
  w.foldr (fun x a => Ball.mulAdd p c x.toInt a) ⟨0, 0, 0⟩

/-- An enclosure of `2 ^ (2p)` times the squared modulus of a ball's number. -/
def Ball.normSq (b : Ball) : RealBall :=
  ⟨b.re * b.re + b.im * b.im, 2 * (b.re.natAbs + b.im.natAbs) * b.rad + b.rad * b.rad⟩

/-- An enclosure of `2 ^ (2p + 30) × POWER(w, f)` (R212). -/
def powerBall (rate f : Nat) (w : List Sample) (p : Nat) : RealBall := (dftBall rate f w p).normSq

/-- The sum of the absolute values of a window: no conjugate of its Fourier sum is above it. -/
def windowBound (w : List Sample) : Nat := (w.map fun x => x.toInt.natAbs).sum

/-! ### Exact ties: cyclotomic integers

An integer combination of the powers of a primitive root of unity of order `q`, given by its terms. -/

/-- The autocorrelation of the window at lag `d`. -/
def autocorr (w : List Int) (d : Nat) : Int := (List.zipWith (· * ·) (w.drop d) w).sum

/-- The terms of `scale × |Σ w[m] ζ ^ (e m)|²` in powers of `ζ`, `ζ` of order `q`. -/
def normSqTerms (q e : Nat) (scale : Int) (w : List Int) : List (Nat × Int) :=
  (List.range w.length).flatMap fun d =>
    let r := scale * autocorr w d
    if d = 0 then [(0, r)] else [(e * d % q, r), ((q - e * d % q) % q, r)]

/-- The coefficient of each power of `ζ` below `q`. -/
def collectTerms (q : Nat) (ts : List (Nat × Int)) : List Int :=
  (List.range q).map fun j => ((ts.filter fun t => t.1 = j).map fun t => t.2).sum

/-- Multiplication by `x ^ s − 1` modulo `x ^ q − 1`, `q` the list's length. -/
def cyclicDiff (c : List Int) (s : Nat) : List Int :=
  List.zipWith (· - ·) (c.drop (c.length - s) ++ c.take (c.length - s)) c

/-- Whether `Σ c[j] ζ ^ j` is 0 for `ζ` primitive of order `q`: the product with every `x ^ (q / d) − 1`, `d > 1` a
divisor of `q`, kills exactly the other roots of `x ^ q − 1`. -/
def vanishesAt (q : Nat) (ts : List (Nat × Int)) : Bool :=
  let ds := (List.range (q + 1)).filter fun d => 1 < d ∧ q % d = 0
  (ds.foldl (fun c d => cyclicDiff c (q / d)) (collectTerms q ts)).all (· = 0)

/-- The doublings that settle the sign of a cyclotomic integer of order `q` whose conjugates are at most `bound`. -/
def signFuel (q bound n : Nat) : Nat := Nat.log2 (q * (Nat.log2 bound + 1) + n + 16) + 3

/-! ### The comparisons of R133 -/

/-- `POWER(w, f1) > POWER(w, f0)` (R246). -/
def powerGreater (rate f1 f0 : Nat) (w : List Sample) : Bool :=
  let g := Nat.gcd (Nat.gcd f1 f0) rate
  let q := rate / g
  let xs := w.map BitVec.toInt
  decideReal
    (fun p =>
      let b1 := powerBall rate f1 w p
      let b0 := powerBall rate f0 w p
      if b0.hi < b1.lo then some true else if b1.hi ≤ b0.lo then some false else none)
    (fun _ => vanishesAt q (normSqTerms q (f1 / g) 1 xs ++ normSqTerms q (f0 / g) (-1) xs))
    (fun _ => false)
    (signFuel q (windowBound w ^ 2) w.length)

/-- `MAG(w, f) > threshold` (R214, R248): `2 sqrt(POWER) / n > a / b` exactly when `a < 0` or
`4 b² (2 ^ 30 POWER) > a² n² 2 ^ 30`. -/
def magnitudeAbove (rate f : Nat) (threshold : Rat) (w : List Sample) : Bool :=
  if threshold.num < 0 then true
  else
    let g := Nat.gcd f rate
    let q := rate / g
    let b2 : Nat := 4 * threshold.den ^ 2
    let rhs : Nat := threshold.num.natAbs ^ 2 * w.length ^ 2 * 2 ^ 30
    decideReal
      (fun p =>
        let b := powerBall rate f w p
        if (rhs * 2 ^ (2 * p) : Int) < b2 * b.lo then some true
        else if b2 * b.hi ≤ (rhs * 2 ^ (2 * p) : Int) then some false
        else none)
      (fun _ => vanishesAt q ((0, -(rhs : Int)) :: normSqTerms q (f / g) b2 (w.map BitVec.toInt)))
      (fun _ => false)
      (signFuel q (b2 * windowBound w ^ 2 + rhs) w.length)

/-- `round_half_up(255 × PH / (PL + PH + eps))` from below or above (R253): `h`, `l` are bounds of
`2 ^ (2p + 30)` times the powers. -/
def pixelFloor (eps : Rat) (p : Nat) (h l : Int) : Int :=
  let d := (l + h) * eps.den + eps.num * 2 ^ (2 * p + 30)
  (510 * h * eps.den + d) / (2 * d)

/-- The greatest value `round_half_up` can have within the enclosures at `p`. -/
def pixelHigh (rate fHigh fLow : Nat) (eps : Rat) (w : List Sample) (p : Nat) : Int :=
  pixelFloor eps p (powerBall rate fHigh w p).hi (max 0 (powerBall rate fLow w p).lo)

/-- `round_half_up(255 × PH / (PL + PH + eps))`, `PH` and `PL` the powers at `fHigh` and `fLow` (R253). -/
def pixelEstimate (rate fHigh fLow : Nat) (eps : Rat) (w : List Sample) : Int :=
  let g := Nat.gcd (Nat.gcd fHigh fLow) rate
  let q := rate / g
  let xs := w.map BitVec.toInt
  let b : Int := eps.den
  decideReal
    (fun p =>
      let lo := pixelFloor eps p (max 0 (powerBall rate fHigh w p).lo) (powerBall rate fLow w p).hi
      let hi := pixelHigh rate fHigh fLow eps w p
      if lo = hi then some lo else none)
    (fun _ =>
      let k := pixelHigh rate fHigh fLow eps w basePrecision
      vanishesAt q ((0, -(2 * k - 1) * eps.num * 2 ^ 30)
        :: (normSqTerms q (fHigh / g) (510 * b - (2 * k - 1) * b) xs
          ++ normSqTerms q (fLow / g) (-(2 * k - 1) * b) xs)))
    (pixelHigh rate fHigh fLow eps w)
    (signFuel q (2000 * eps.den * windowBound w ^ 2 + 512 * eps.num.natAbs * 2 ^ 30) w.length)

/-! ### The exact value of a power (R212, R35) -/

/-- The sum with `a × ζ ^ k` added, terms kept in rising order and free of zeros. -/
def addTerm (k : Nat) (a : Int) : List (Nat × Int) → List (Nat × Int)
  | [] => if a = 0 then [] else [(k, a)]
  | (j, b) :: rest =>
    if k < j then (if a = 0 then (j, b) :: rest else (k, a) :: (j, b) :: rest)
    else if k = j then (if a + b = 0 then rest else (k, a + b) :: rest)
    else (j, b) :: addTerm k a rest

/-- The terms of `Σ w[m] ζ ^ (f (m₀ + m))`, `ζ` of order `rate`. -/
def dftTerms (rate f : Nat) : Nat → List Sample → List (Nat × Int)
  | _, [] => []
  | m, x :: rest => addTerm (f * m % rate) x.toInt (dftTerms rate f (m + 1) rest)

/-- The Fourier sum of a window at the frequency `f` Hz (R212). -/
def dftSum (rate f : Nat) (w : List Sample) : DftSum := ⟨rate, dftTerms rate f 0 w⟩

/-- `POWER(w, f)` as the register `GP` holds it (R212). -/
def power (rate f : Nat) (w : List Sample) : Power := ⟨dftSum rate f w⟩

/-- `MAG(w, f)` as the register `GM` holds it (R214). -/
def magnitude (rate f : Nat) (w : List Sample) : Magnitude := ⟨dftSum rate f w, w.length⟩

/-- An enclosure of `2 ^ p` times a Fourier sum. -/
def DftSum.ball (s : DftSum) (p : Nat) : Ball :=
  s.terms.foldr
    (fun t a =>
      let c := cis p (mkRat t.1 s.order)
      ⟨t.2 * c.re + a.re, t.2 * c.im + a.im, t.2.natAbs * c.rad + a.rad⟩)
    ⟨0, 0, 0⟩

/-- An enclosure of `2 ^ (2p + 30)` times the real number that `GP` holds: how a test reads the register. -/
def Power.enclosure (g : Power) (p : Nat) : RealBall := (g.sum.ball p).normSq

end Sys2Proof.Machine
end

