-- ==== Sys2Proof/Machine/Operands.lean ====
section
/-! DEFINITION. Operand assembly (30_encoding.md R94 to R98), the sample count and the value maps
(40_phase_and_maps.md R120 to R128), the taper envelope (41_tone_sweep.md R142), the bit arrays (R96, R184) and the
pad duration (R191). -/

namespace Sys2Proof.Machine

/-! ### Operands of the command word -/

/-- `freq = zext_16(A)`, whole hertz (R94). -/
def freqOperand (a : BitVec 16) : Nat := a.toNat

/-- `dur = sext_32(D)`, signed microseconds (R95). -/
def durOperand (d : BitVec 32) : Int := d.toInt

/-- `n = zext_32(D)`, a sample count (R98). -/
def countOperand (d : BitVec 32) : Nat := d.toNat

/-- `y = zext_16(A)`, an image row (R97). -/
def rowOperand (a : BitVec 16) : Nat := a.toNat

/-- The channel operand, 0 to 2 (R97); the value 3 has no command (R104). -/
def channelOperand (c : BitVec 2) : Option (Fin 3) :=
  if h : c.toNat < 3 then some ⟨c.toNat, h⟩ else none

/-- The bit array of `BITS`: `bits[j] = pat[n − 1 − j]` (R96). -/
def bitsOperand (n : Nat) (pat : BitVec 8) : List Bool :=
  (List.range n).map fun j => pat.getLsbD (n - 1 - j)

/-- `vbits(vis)`: the bit array of a VIS code in `VIS_BIT_ORDER` (R184). -/
def vbits (o : VisBitOrder) (vis : BitVec 8) : List Bool :=
  (List.range 8).map fun j =>
    match o with
    | .msbFirst => vis.getLsbD (7 - j)
    | .lsbFirst => vis.getLsbD j

/-! ### Counts and value maps -/

/-- `N(d)`: the number of samples in `d` microseconds (R120). -/
def sampleCount (c : Config) (d : Nat) : Nat := d * c.sampleRate / 1000000

/-- `CLAMP(v)` (R122). -/
def clamp (v : Int) : Int := if v < 0 then 0 else if 255 < v then 255 else v

/-- `FMAP(v)`: the frequency of a channel value (R124). -/
def fmap (c : Config) (v : Nat) : Rat :=
  c.blackFreq + (v / 255 : Rat) * ((c.channelMaxFreq : Rat) - c.blackFreq)

/-- `CHX(pixel, c)`: the channel value at byte `c` of a pixel word (R126). -/
def chx (pixel : PixelWord) (c : Fin 3) : ChannelValue := (pixel >>> (8 * c.val)).setWidth 8

/-- The channel sent at position `k` of a line (R127). -/
def txChannel (c : Config) (k : Fin 3) : Channel :=
  match k with
  | 0 => c.txOrder.1
  | 1 => c.txOrder.2.1
  | 2 => c.txOrder.2.2

/-- `TXC(k)`: the byte index of the channel sent at position `k` (R127). -/
def txc (c : Config) (k : Fin 3) : Fin 3 := (txChannel c k).byteIndex

/-- `rgb = (r << 16) | (g << 8) | b` (R127). -/
def packRgb (r g b : ChannelValue) : Rgb :=
  (r.setWidth 24 <<< 16) ||| (g.setWidth 24 <<< 8) ||| b.setWidth 24

/-! ### Samples -/

/-- `ENV(i, n)` (R142): `none` is the value 1, `some (j, tn)` is `0.5 − 0.5 cos (π j / tn)`. -/
def envelope (c : Config) (i n : Nat) : Option (Nat × Nat) :=
  let tn := min (sampleCount c c.taperUs) (n / 2)
  if tn = 0 then none
  else if i < tn then some (i, tn)
  else if n - tn ≤ i then some (n - 1 - i, tn)
  else none

/-- A rendered sample `QUANT(AMP × e × sin φ)` at the phase `φ` of `turns` turns (R140). -/
def renderedSample (c : Config) (env : Option (Nat × Nat)) (turns : Rat) : Sample :=
  BitVec.ofInt 16 (quantSine c.amp env turns)

/-- The frequency of sample `i` of a sweep over the line `f` with `spp` samples per pixel (R150). -/
def sweepFreq (f : List Rat) (spp i : Nat) : Rat :=
  let p := min (i / spp) (f.length - 1)
  let q := min (p + 1) (f.length - 1)
  let α : Rat := (i % spp : Nat) / (spp : Rat)
  f.getD p 0 + α * (f.getD q 0 - f.getD p 0)

/-- `PAD_US`: what a line lacks to `LINE_BUDGET_US`, never negative (R191). -/
def padUs (c : Config) : Nat := c.lineBudgetUs - (c.syncUs + c.porchUs + 3 * c.scanUs + 2 * c.sepUs)

/-- `PIX(w)`: the intensity of one pixel from its window (R253). -/
def pix (c : Config) (w : List Sample) : ChannelValue :=
  BitVec.ofInt 8 (clamp (pixelEstimate c.sampleRate c.channelMaxFreq c.blackFreq c.eps w))

/-- One bit of the VIS header from its slot (R246); a tie gives 0. -/
def visBit (c : Config) (w : List Sample) : Bool := powerGreater c.sampleRate c.visRxF1 c.visRxF0 w

/-- The byte assembled from eight bits, in `VIS_BIT_ORDER` (R246). -/
def assembleVis (o : VisBitOrder) (bits : List Bool) : BitVec 8 :=
  match o with
  | .msbFirst => bits.foldl (fun byte b => byte <<< 1 ||| (BitVec.ofBool b).setWidth 8) 0
  | .lsbFirst => bits.reverse.foldl (fun byte b => byte <<< 1 ||| (BitVec.ofBool b).setWidth 8) 0

/-- Whether a window holds a tone: `MAG(w, f) > TONE_THRESHOLD`, strictly (R248). -/
def toneDetected (c : Config) (f : Nat) (w : List Sample) : Bool :=
  magnitudeAbove c.sampleRate f c.toneThreshold w

/-! ### Validity of `CFG` -/

/-- The conditions of R243, those of R324, and the fields that R2 and R10 fix in every profile of the spec: 16 bits,
mono, 8 VIS bits, the order Green, Blue, Red (DEDUCED, notes/assumptions/28.md). -/
abbrev ConfigValid (c : Config) : Prop :=
  1 ≤ sampleCount c c.bitUs ∧ 1 ≤ sampleCount c c.syncUs ∧ 1 ≤ sampleCount c c.porchUs
    ∧ 1 ≤ c.width ∧ 1 ≤ sampleCount c c.scanUs / c.width ∧ 1 ≤ c.height ∧ 0 < c.eps
    ∧ c.visSkipSlots + 8 ≤ c.visSlotsRequired ∧ c.visConsumeSlots ≤ c.visSlotsRequired
    ∧ 0 < c.sampleRate ∧ c.amp = 32767 ∧ c.blackFreq ≤ c.channelMaxFreq
    ∧ c.bitsPerSample = 16 ∧ c.channels = 1 ∧ c.visBits = 8 ∧ c.txOrder = (.green, .blue, .red)

end Sys2Proof.Machine
end

