-- ==== Sys2Proof/Machine/Ops.lean ====
section
/-! DEFINITION. The named operations over the memories and registers (20_memory.md R60 to R84, 00_scope.md R16), the
taking of an exception (60_exceptions.md R281 to R288), the refusal of a command (R104), and the render operations that
the encoder's commands share (41_tone_sweep.md, 42_fsk.md, 43_encoder.md R182). -/

namespace Sys2Proof.Machine

/-! ### The pixel store and `IMG` -/

/-- The pixel word at an address: 0x000000 where none is listed. -/
def Memory.read : Memory → Nat → PixelWord
  | [], _ => 0
  | (b, v) :: rest, a => if a = b then v else Memory.read rest a

/-- The store with the word `v` at address `a`, in canonical form. -/
def Memory.write : Memory → Nat → PixelWord → Memory
  | [], a, v => if v = 0 then [] else [(a, v)]
  | (b, u) :: rest, a, v =>
    if a < b then (if v = 0 then (b, u) :: rest else (a, v) :: (b, u) :: rest)
    else if a = b then (if v = 0 then rest else (a, v) :: rest)
    else (b, u) :: Memory.write rest a v

/-- The canonical form: addresses strictly rising, no word 0x000000. -/
def Memory.wf (m : Memory) : Bool :=
  decide (m.Pairwise fun a b => a.1 < b.1) && m.all fun a => a.2 ≠ 0

/-- `MemRead(IMG, (x, y))` (R16, R60). -/
def Image.read (img : Image) (x y : Nat) : PixelWord := Memory.read img.pixels (x * img.height + y)

/-- The host's image with one pixel set (`pixels[x][y] := v`), for building an image. -/
def Image.write (img : Image) (x y : Nat) (v : PixelWord) : Image :=
  { img with pixels := Memory.write img.pixels (x * img.height + y) v }

/-- An absent or zero-size image (R61). -/
def imageMalformed : Option Image → Bool
  | none => true
  | some img => img.width = 0 || img.height = 0

/-! ### `PCM`, `SB`, the raster, the port -/

/-- `MemWrite(PCM, v)` for each value of a list, in order (R16, R62). -/
def Enc.appendPcm (e : Enc) (vs : List Sample) : Enc := { e with pcm := e.pcm ++ vs }

/-- `MemRead(SB, (i, n))` (R16, R64). -/
def sbPeek (d : Dec) (i n : Nat) : List Sample := (d.sb.drop i).take n

/-- `SB.consume(n)` (R16, R64). -/
def Dec.consume (d : Dec) (n : Nat) : Dec := { d with sb := d.sb.drop n }

/-- `SB.append(c)` (R16, R64). -/
def Dec.appendSb (d : Dec) (c : List Sample) : Dec := { d with sb := d.sb ++ c }

/-- The samples that the next `n` reads of the sample input port give: the delivered ones in order (R98), and past
them free values (notes/assumptions/10.md). -/
def portSamples (h : HostSide) (n : Nat) : List Sample :=
  h.port.take n ++ (List.range (n - h.port.length)).map fun j => Config.freePortSample (h.portCount + j)

/-- The port after `n` reads. -/
def HostSide.advancePort (h : HostSide) (n : Nat) : HostSide :=
  { h with port := h.port.drop n, portCount := h.portCount + (n - h.port.length) }

/-- The colour the raster holds at a place: the last `setPixel` there since the last `reset`; `none` where the core
has drawn nothing since (R66). -/
def rasterPixel (calls : List RasterCall) (x y : Nat) : Option Rgb :=
  calls.foldl
    (fun seen call =>
      match call with
      | .reset _ _ => none
      | .setPixel x' y' rgb => if x' = x ∧ y' = y then some rgb else seen)
    none

/-! ### Outcomes -/

/-- The outcome of a command is returned to the host (R17, R281). -/
def State.report (s : State) (r : CmdResult) : State := { s with host := { s.host with result := some r } }

/-- A refused command executes nothing, changes no state and raises none of the exceptions; the core takes the next
(R104). DEDUCED for every `refuse` of the spec, notes/assumptions/6.md. -/
def State.refuse (s : State) (r : RefuseReason) : State := s.report (.refused r)

/-- What an operation of `ENC` answers. -/
structure EncOut where
  enc : Enc
  raised : Option Raise
  deriving DecidableEq, Repr

/-- The operation ends normally. -/
def encOk (e : Enc) : EncOut := ⟨e, none⟩

/-- TAKING AN EXCEPTION in `ENC` (R281, R282, R283): the operation ends, the code is latched in `ENC.FAULT`, the
exception is reported, and nothing else is written. There is no handler, no saved state and no return (R293, R294). -/
def encRaise (e : Enc) (x : Raise) : EncOut := ⟨e.setFault (some x.exc), some x⟩

/-- `ENC`'s next operation of a sequence; an exception has ended it. -/
def EncOut.andThen (o : EncOut) (f : Enc → EncOut) : EncOut :=
  match o.raised with
  | none => f o.enc
  | some _ => o

/-- What an operation of `DEC` answers: its state, the raster's calls so far, the outcome. -/
structure DecOut where
  dec : Dec
  raster : List RasterCall
  result : CmdResult
  deriving DecidableEq, Repr

/-- TAKING AN EXCEPTION in `DEC` (R288): nothing changes and no latch is set; the outcome names it. -/
def decRaise (d : Dec) (r : List RasterCall) (x : Raise) : DecOut := ⟨d, r, .raised x⟩

/-- `hold(reason)` (R241): nothing changes. -/
def decHold (d : Dec) (r : List RasterCall) (h : Hold) : DecOut := ⟨d, r, .held h⟩

/-- The outcome of an operation of `ENC`. -/
def EncOut.result (o : EncOut) : CmdResult :=
  match o.raised with
  | none => .ok
  | some x => .raised x

/-- The state after an operation of `ENC`. -/
def State.withEnc (s : State) (o : EncOut) : State := { s with enc := o.enc }.report o.result

/-- The state after an operation of `DEC`. -/
def State.withDec (s : State) (o : DecOut) : State :=
  { s with dec := o.dec, host := { s.host with raster := o.raster } }.report o.result

/-- A command of `ENC`: refused while `ENC.FAULT` holds `DeviceError` (R45), which comes before every check of the
command (R292). -/
def encCommand (s : State) (op : Enc → EncOut) : Host.Outcome State Fault Refusal :=
  if encBlocked s.enc then .next (s.refuse .encFaulted) else .next (s.withEnc (op s.enc))

/-- A command of `DEC`: refused while `DEC.FAULT` is set (R45), which comes before every check of the command (R292). -/
def decCommand (s : State) (op : Dec → List RasterCall → DecOut) : Host.Outcome State Fault Refusal :=
  if decBlocked s.dec then .next (s.refuse .decFaulted) else .next (s.withDec (op s.dec s.host.raster))

/-- The event `DeviceError(u)` (R284): the unit's latch takes the code, nothing else changes. -/
def State.deviceError (s : State) : UnitId → State
  | .enc => { s with enc := s.enc.setFault (some .deviceError) }
  | .dec => { s with dec := s.dec.setFault (some .deviceError) }

/-! ### Rendering -/

/-- `PADV`: the phase after an advance at `freq`, in turns: `PHASE + 2π × freq / SAMPLE_RATE` (R130). -/
def advancePhase (c : Config) (freq phase : Rat) : Rat := phase + freq / c.sampleRate

/-- The samples `i`, `i + 1`, … of a segment and the phase after them: each advances the phase, then is rendered at
the advanced phase (R140, R146, R150). The first number counts the samples. -/
def renderSamples (c : Config) (freqAt : Nat → Rat) (envAt : Nat → Option (Nat × Nat)) :
    Nat → Nat → Rat → List Sample × Rat
  | 0, _, φ => ([], φ)
  | n + 1, i, φ =>
    let φ' := advancePhase c (freqAt i) φ
    let rest := renderSamples c freqAt envAt n (i + 1) φ'
    (renderedSample c (envAt i) φ' :: rest.1, rest.2)

/-- A segment of `n` samples appended to `PCM`, `PHASE` advanced through it (R146, R150). -/
def renderSegment (c : Config) (freqAt : Nat → Rat) (envAt : Nat → Option (Nat × Nat)) (n : Nat) (e : Enc) : Enc :=
  let r := renderSamples c freqAt envAt n 0 e.phase
  { e.appendPcm r.1 with phase := r.2 }

/-- `TONE(freq, dur, taper)` (R146). -/
def renderTone (c : Config) (freq : Nat) (dur : Int) (taper : Bool) (e : Enc) : EncOut :=
  if dur < 0 then encRaise e (.precondition (.negativeDuration dur))
  else
    let n := sampleCount c dur.toNat
    encOk (renderSegment c (fun _ => freq) (fun i => if taper then envelope c i n else none) n e)

/-- `SWEEP(dur)` (R150). -/
def renderSweep (c : Config) (dur : Int) (e : Enc) : EncOut :=
  if dur < 0 then encRaise e (.precondition (.negativeDuration dur))
  else if e.fq.length = 0 then encRaise e (.precondition .emptyFrequencyArray)
  else
    let n := sampleCount c dur.toNat
    let spp := n / e.fq.length
    if spp = 0 then encRaise e (.precondition .morePixelsThanSamples)
    else encOk (renderSegment c (sweepFreq e.fq spp) (fun i => envelope c i n) n e)

/-- `SIL(dur)` (R160): `N(dur)` zero samples, `PHASE` unchanged; nothing for `dur ≤ 0`. -/
def renderSilence (c : Config) (dur : Int) (e : Enc) : EncOut :=
  if dur ≤ 0 then encOk e else encOk (e.appendPcm (List.replicate (sampleCount c dur.toNat) 0))

/-- `BITS(bits, dur)`: a tapered tone for each bit, in order (R172). -/
def renderBits (c : Config) (bits : List Bool) (dur : Int) (e : Enc) : EncOut :=
  bits.foldl (fun o b => o.andThen (renderTone c (if b then c.fskF1 else c.fskF0) dur true)) (encOk e)

/-- `LDCH(c, y)` (R182). -/
def loadChannel (c : Config) (img : Option Image) (ch : Fin 3) (y : Nat) (e : Enc) : EncOut :=
  match img with
  | none => encRaise e .malformedInput
  | some im =>
    if im.width = 0 ∨ im.height = 0 then encRaise e .malformedInput
    else if im.height ≤ y then encRaise e (.precondition .rowOutOfRange)
    else encOk { e with fq := (List.range im.width).map fun x => fmap c (chx (im.read x y) ch).toNat }

end Sys2Proof.Machine
end

