-- ==== Sys2Proof/Machine/Decoder.lean ====
section
/-! DEFINITION. The decoder state machine's commands `VISDET`, `SYNCDET`, `PORCHDET`, `CHDEC`, `ROWOUT`, `STEP`, `PASS`,
`STOP`, `DRESET` (45_decoder_fsm.md). An action answers the unit's state, the raster's calls and its result, `ok` being
`progressed` (R241). -/

namespace Sys2Proof.Machine

/-! ### The actions -/

/-- The byte that `VISDET` assembles from slots `VIS_SKIP_SLOTS` to `VIS_SKIP_SLOTS + 7` (R246). -/
def visByte (c : Config) (d : Dec) : BitVec 8 :=
  let spb := sampleCount c c.bitUs
  assembleVis c.visBitOrder ((List.range 8).map fun j => visBit c (sbPeek d ((c.visSkipSlots + j) * spb) spb))

/-- `VISDET` (R246). -/
def visdetAction (c : Config) (d : Dec) (r : List RasterCall) : DecOut :=
  let spb := sampleCount c c.bitUs
  if d.sb.length < c.visSlotsRequired * spb then decRaise d r .bufferUnderrun
  else if visByte c d = c.visCode then
    ⟨{ d.consume (c.visConsumeSlots * spb) with row := 0, state := .awaitingSync },
      r ++ [.reset c.width c.height], .ok⟩
  else decHold d r .protocolMismatch

/-- The confirm-and-consume pattern of `SYNCDET` and `PORCHDET`: a tone of frequency `f` over the `n` samples at the
head of `SB` (R248, R250). -/
def toneAction (c : Config) (f n : Nat) (next : DecState) (d : Dec) (r : List RasterCall) : DecOut :=
  if d.sb.length < n then decRaise d r .bufferUnderrun
  else if toneDetected c f (sbPeek d 0 n) then ⟨{ d.consume n with state := next }, r, .ok⟩
  else decHold d r .toneAbsent

/-- `SYNCDET` (R248). -/
def syncdetAction (c : Config) : Dec → List RasterCall → DecOut :=
  toneAction c c.syncFreq (sampleCount c c.syncUs) .awaitingPorch

/-- `PORCHDET` (R250). -/
def porchdetAction (c : Config) : Dec → List RasterCall → DecOut :=
  toneAction c c.porchFreq (sampleCount c c.porchUs) (.decodingLine 0)

/-- `ACC[k] <- vs` (R33). -/
def Acc.setLine (a : Acc) (k : Fin 3) (vs : List ChannelValue) : Acc :=
  match k with
  | 0 => { a with green := vs }
  | 1 => { a with blue := vs }
  | 2 => { a with red := vs }

/-- Whether every entry that a row of width `w` reads has a value (R33). -/
def Acc.written (a : Acc) (w : Nat) : Bool :=
  w ≤ a.green.length && w ≤ a.blue.length && w ≤ a.red.length

/-- The `setPixel` calls of one row, `x` rising (R256, R77). -/
def rowCalls (a : Acc) (w row : Nat) : List RasterCall :=
  (List.range w).map fun x => .setPixel x row (packRgb (a.red.getD x 0) (a.green.getD x 0) (a.blue.getD x 0))

/-- `ROWOUT` (R256). -/
def rowoutAction (c : Config) (d : Dec) (r : List RasterCall) : DecOut :=
  if c.height ≤ d.row then ⟨d, r, .refused .rowOutOfFrame⟩
  else if d.acc.written c.width = false then ⟨d, r, .refused .accUnwritten⟩
  else
    ⟨{ d with row := d.row + 1, state := if d.row + 1 = c.height then .awaitingVIS else .awaitingSync },
      r ++ rowCalls d.acc c.width d.row, .ok⟩

/-- The values of one channel: window `x` is the `spp` samples from `x × spp` on (R252). -/
def channelLine (c : Config) (d : Dec) (spp : Nat) : List ChannelValue :=
  (List.range c.width).map fun x => pix c (sbPeek d (x * spp) spp)

/-- `CHDEC k` (R252). For `k` = 2 it ends as `ROWOUT` does; where `ROWOUT` refuses, what was consumed and written
before stands. DEDUCED, unsafe, notes/assumptions/12.md. -/
def chdecAction (c : Config) (k : Fin 3) (d : Dec) (r : List RasterCall) : DecOut :=
  let n := sampleCount c c.scanUs
  if d.sb.length < n then decRaise d r .bufferUnderrun
  else
    let spp := n / c.width
    let d' := { d.consume (c.width * spp) with acc := d.acc.setLine k (channelLine c d spp) }
    match k with
    | 0 => ⟨{ d' with state := .decodingLine 1 }, r, .ok⟩
    | 1 => ⟨{ d' with state := .decodingLine 2 }, r, .ok⟩
    | 2 => rowoutAction c d' r

/-- The action of the current state (R260). -/
def stepAction (c : Config) (d : Dec) (r : List RasterCall) : DecOut :=
  match d.state with
  | .awaitingVIS => visdetAction c d r
  | .awaitingSync => syncdetAction c d r
  | .awaitingPorch => porchdetAction c d r
  | .decodingLine k => chdecAction c k d r

/-- Steps until one does not progress; its result does not surface (R262). The number bounds the steps. R262 names an
underrun and a hold as what ends a pass; a `CHDEC 2` whose `ROWOUT` refuses (U7, U8) ends it the same way: the outcome is
`ok`, what it consumed and wrote stands, and the refusal does not surface. DEDUCED, unsafe, notes/assumptions/12.md. -/
def passLoop (c : Config) : Nat → Dec → List RasterCall → DecOut
  | 0, d, r => ⟨d, r, .ok⟩
  | fuel + 1, d, r =>
    let o := stepAction c d r
    match o.result with
    | .ok => passLoop c fuel o.dec o.raster
    | _ => ⟨o.dec, o.raster, .ok⟩

/-- A bound above the steps of any pass: all steps but a VIS match consume a sample (R243, R264), and between two
VIS matches another step progresses. -/
def passBound (d : Dec) : Nat := 2 * d.sb.length + 2

/-- `PASS` (R262): the stop signal is looked at once, at the start. -/
def passAction (c : Config) (d : Dec) (r : List RasterCall) : DecOut :=
  if d.stopped then ⟨d, r, .ok⟩ else passLoop c (passBound d) d r

/-! ### The commands -/

/-- `VISDET` issued directly (R240, R246). -/
def execVisdet (s : State) : Host.Outcome State Fault Refusal := decCommand s (visdetAction s.cfg)

/-- `SYNCDET` issued directly (R240, R248). -/
def execSyncdet (s : State) : Host.Outcome State Fault Refusal := decCommand s (syncdetAction s.cfg)

/-- `PORCHDET` issued directly (R240, R250). -/
def execPorchdet (s : State) : Host.Outcome State Fault Refusal := decCommand s (porchdetAction s.cfg)

/-- `CHDEC k` issued directly (R240, R252). The value `k` = 3 has no command word (R104). -/
def execChdec (k : BitVec 2) (s : State) : Host.Outcome State Fault Refusal :=
  match channelOperand k with
  | none => .next (s.refuse (.reservedWord .channel))
  | some ch => decCommand s (chdecAction s.cfg ch)

/-- `ROWOUT` issued directly (R256). -/
def execRowout (s : State) : Host.Outcome State Fault Refusal := decCommand s (rowoutAction s.cfg)

/-- `STEP` (R260). -/
def execStep (s : State) : Host.Outcome State Fault Refusal := decCommand s (stepAction s.cfg)

/-- `PASS` (R262). -/
def execPass (s : State) : Host.Outcome State Fault Refusal := decCommand s (passAction s.cfg)

/-- `STOP` (R266). Like every `DEC` command but `DRESET` it is refused while `DEC.FAULT` is set (R45, R284).
DEDUCED, notes/assumptions/7.md. -/
def execStop (s : State) : Host.Outcome State Fault Refusal :=
  decCommand s fun d r => ⟨d.setStopped, r, .ok⟩

/-- `DRESET` (R268): `DEC` to its reset state, also while `DEC.FAULT` is set (R45); the raster is not touched. -/
def execDreset (s : State) : Host.Outcome State Fault Refusal :=
  .next (s.withDec ⟨.reset, s.host.raster, .ok⟩)

end Sys2Proof.Machine
end

