-- ==== Sys2Proof/Machine/Encoder.lean ====
section
/-! DEFINITION. The encoder sequencer's commands `ERESET`, `LDCH`, `ENCODE` (43_encoder.md). -/

namespace Sys2Proof.Machine

/-- `LDCH c, y` (R182). The value `c` = 3 has no command word (R104). -/
def execLdch (c : BitVec 2) (y : BitVec 16) (s : State) : Host.Outcome State Fault Refusal :=
  match channelOperand c with
  | none => .next (s.refuse (.reservedWord .channel))
  | some ch => encCommand s (loadChannel s.cfg s.host.img ch (rowOperand y))

/-- `ERESET` (R180): `ENC` to its reset state, also while `ENC.FAULT` holds `DeviceError` (R45). -/
def execEreset (s : State) : Host.Outcome State Fault Refusal :=
  .next (s.withEnc (encOk .reset))

/-- `SEQ <- (stage, y, k)` (R30). -/
def Enc.atStage (e : Enc) (stage : Stage) (y : Nat) (k : Fin 3) : Enc := { e with seq := ⟨stage, y, k⟩ }

/-- A tapered tone of the sequence, rendered at a stage (R188). -/
def toneStage (c : Config) (stage : Stage) (y : Nat) (k : Fin 3) (freq dur : Nat) (o : EncOut) : EncOut :=
  o.andThen fun e => renderTone c freq dur true (e.atStage stage y k)

/-- The scan of the channel at position `k` of row `y` (R188). -/
def scanStage (c : Config) (img : Image) (y : Nat) (k : Fin 3) (o : EncOut) : EncOut :=
  (o.andThen fun e => loadChannel c (some img) (txc c k) y (e.atStage .scan y k)).andThen (renderSweep c c.scanUs)

/-- The separator after position `k` (R188). -/
def sepStage (c : Config) (y : Nat) (k : Fin 3) (o : EncOut) : EncOut :=
  toneStage c .sep y k c.porchFreq c.sepUs o

/-- The pad of a line (R188, R191). -/
def padStage (c : Config) (y : Nat) (o : EncOut) : EncOut :=
  o.andThen fun e => renderSilence c (padUs c) (e.atStage .pad y 2)

/-- One line: sync, porch, Green, separator, Blue, separator, Red, pad (R188). -/
def encodeLine (c : Config) (img : Image) (y : Nat) (o : EncOut) : EncOut :=
  let o := toneStage c .hsync y 0 c.syncFreq c.syncUs o
  let o := toneStage c .hporch y 0 c.porchFreq c.porchUs o
  let o := sepStage c y 0 (scanStage c img y 0 o)
  let o := sepStage c y 1 (scanStage c img y 1 o)
  padStage c y (scanStage c img y 2 o)

/-- The header, the vertical sync and the vertical porch (R188, R190). -/
def encodeHeader (c : Config) (vis : BitVec 8) (e : Enc) : EncOut :=
  let o := renderBits c (vbits c.visBitOrder vis) c.bitUs (e.atStage .vis 0 0)
  let o := toneStage c .vsync 0 0 c.syncFreq c.syncUs o
  toneStage c .vporch 0 0 c.porchFreq c.porchUs o

/-- The encoder's sequence: the header, then each row top to bottom (R188). -/
def encodeSequence (c : Config) (img : Image) (vis : BitVec 8) (e : Enc) : EncOut :=
  (List.range img.height).foldl (fun o y => encodeLine c img y o) (encodeHeader c vis e)

/-- `ENCODE` over an image that is present and not empty: `ERESET`, the sequence, then `SEQ <- (DONE, H − 1, 2)`
(R186). -/
def encodeImage (c : Config) (img : Image) (vis : BitVec 8) : EncOut :=
  (encodeSequence c img vis .reset).andThen fun e => encOk (e.atStage .done (img.height - 1) 2)

/-- The complete buffer is handed to the host; after an exception none is (R186, R194, R282). -/
def State.handOver (s : State) (o : EncOut) : State :=
  match o.raised with
  | none => { s with host := { s.host with handed := s.host.handed ++ [o.enc.pcm] } }
  | some _ => s

/-- `ENCODE vis` (R186): it clears `ENC.FAULT` itself, so no latch refuses it (R44, R45). A malformed image is
reported before any synthesis, with `ENC` reset (R283). -/
def execEncode (vis : BitVec 8) (s : State) : Host.Outcome State Fault Refusal :=
  match s.host.img with
  | none => .next (s.withEnc (encRaise .reset .malformedInput))
  | some img =>
    if img.width = 0 ∨ img.height = 0 then .next (s.withEnc (encRaise .reset .malformedInput))
    else
      let o := encodeImage s.cfg img vis
      .next ((s.handOver o).withEnc o)

end Sys2Proof.Machine
end

