-- ==== Sys2Proof/Machine/Stream.lean ====
section
/-! DEFINITION. The StreamBuffer's and the estimator's commands `APPEND`, `PEEK`, `CONSUME`, `GOERTZ`
(44_goertzel_streambuffer.md). -/

namespace Sys2Proof.Machine

/-- Whether `n` more samples exceed `SB_MAX` (R65, U2); never with the default, none. -/
def exceedsBound (c : Config) (d : Dec) (n : Nat) : Bool :=
  match c.sbMax with
  | none => false
  | some bound => bound < d.sb.length + n

/-- `APPEND n` (R220): `n` samples of the port to the tail of `SB`, then a pass. A refused `APPEND` drops its samples.
Beyond an `SB_MAX` that the host has set, the spec says nothing (U2). -/
def execAppend (n : BitVec 32) (s : State) : Host.Outcome State Fault Refusal :=
  let k := countOperand n
  let s' := { s with host := s.host.advancePort k }
  if decBlocked s.dec then .next (s'.refuse .decFaulted)
  else if s.dec.stopped then .next (s'.refuse .stopped)
  else if exceedsBound s.cfg s.dec k then .refused .streamBufferBound
  else .next (s'.withDec (passAction s.cfg (s.dec.appendSb (portSamples s.host k)) s.host.raster))

/-- `PEEK(n)` (R224). -/
def peekAction (n : Nat) (d : Dec) (r : List RasterCall) : DecOut :=
  if d.sb.length < n then decRaise d r .bufferUnderrun else ⟨{ d with win := sbPeek d 0 n }, r, .ok⟩

/-- `CONSUME(n)` (R226). -/
def consumeAction (n : Nat) (d : Dec) (r : List RasterCall) : DecOut :=
  if d.sb.length < n then decRaise d r .bufferUnderrun else ⟨d.consume n, r, .ok⟩

/-- `PEEK n` (R224). -/
def execPeek (n : BitVec 32) (s : State) : Host.Outcome State Fault Refusal :=
  decCommand s (peekAction (countOperand n))

/-- `CONSUME n` (R226). -/
def execConsume (n : BitVec 32) (s : State) : Host.Outcome State Fault Refusal :=
  decCommand s (consumeAction (countOperand n))

/-- `GOERTZ freq` (R216). -/
def execGoertz (freq : BitVec 16) (s : State) : Host.Outcome State Fault Refusal :=
  decCommand s fun d r =>
    ⟨{ d with
        gp := power s.cfg.sampleRate (freqOperand freq) d.win
        gm := magnitude s.cfg.sampleRate (freqOperand freq) d.win }, r, .ok⟩

end Sys2Proof.Machine
end

