-- ==== Sys2Proof/Machine/Synth.lean ====
section
/-! DEFINITION. The synthesis commands `PADV`, `TONE`, `SWEEP`, `BITS`, `SIL` (40_phase_and_maps.md R130,
41_tone_sweep.md, 42_fsk.md). -/

namespace Sys2Proof.Machine

/-- `PADV freq` (R130): the phase advances once; no sample, no exception. -/
def execPadv (freq : BitVec 16) (s : State) : Host.Outcome State Fault Refusal :=
  encCommand s fun e => encOk { e with phase := advancePhase s.cfg (freqOperand freq) e.phase }

/-- `TONE freq, dur [, T]` (R146). -/
def execTone (freq : BitVec 16) (dur : BitVec 32) (taper : Bool) (s : State) : Host.Outcome State Fault Refusal :=
  encCommand s (renderTone s.cfg (freqOperand freq) (durOperand dur) taper)

/-- `SWEEP dur` (R150). -/
def execSweep (dur : BitVec 32) (s : State) : Host.Outcome State Fault Refusal :=
  encCommand s (renderSweep s.cfg (durOperand dur))

/-- `BITS n, pat, dur` (R172). Operands that no command word has (R101) are refused as a reserved word is (R104). -/
def execBits (n : BitVec 4) (pat : BitVec 8) (dur : BitVec 32) (s : State) : Host.Outcome State Fault Refusal :=
  if 8 < n.toNat then .next (s.refuse (.reservedWord .bitCount))
  else if 2 ^ n.toNat ≤ pat.toNat then .next (s.refuse (.reservedWord .bitPattern))
  else encCommand s (renderBits s.cfg (bitsOperand n.toNat pat) (durOperand dur))

/-- `SIL dur` (R160). -/
def execSil (dur : BitVec 32) (s : State) : Host.Outcome State Fault Refusal :=
  encCommand s (renderSilence s.cfg (durOperand dur))

end Sys2Proof.Machine
end

