-- ==== Sys2Proof/Machine/Dispatch.lean ====
section
/-! DEFINITION. One arm per command, each one call of its meaning (30_encoding.md R100). -/

namespace Sys2Proof.Machine

def exec (i : Instr) (s : State) : Host.Outcome State Fault Refusal :=
  match i with
  | .padv freq => Sys2Proof.Machine.execPadv freq s
  | .tone freq dur taper => Sys2Proof.Machine.execTone freq dur taper s
  | .sweep dur => Sys2Proof.Machine.execSweep dur s
  | .bits n pat dur => Sys2Proof.Machine.execBits n pat dur s
  | .sil dur => Sys2Proof.Machine.execSil dur s
  | .ldch c y => Sys2Proof.Machine.execLdch c y s
  | .ereset => Sys2Proof.Machine.execEreset s
  | .encode vis => Sys2Proof.Machine.execEncode vis s
  | .append n => Sys2Proof.Machine.execAppend n s
  | .peek n => Sys2Proof.Machine.execPeek n s
  | .consume n => Sys2Proof.Machine.execConsume n s
  | .goertz freq => Sys2Proof.Machine.execGoertz freq s
  | .visdet => Sys2Proof.Machine.execVisdet s
  | .syncdet => Sys2Proof.Machine.execSyncdet s
  | .porchdet => Sys2Proof.Machine.execPorchdet s
  | .chdec k => Sys2Proof.Machine.execChdec k s
  | .rowout => Sys2Proof.Machine.execRowout s
  | .step => Sys2Proof.Machine.execStep s
  | .pass => Sys2Proof.Machine.execPass s
  | .stop => Sys2Proof.Machine.execStop s
  | .dreset => Sys2Proof.Machine.execDreset s

end Sys2Proof.Machine
end

