-- ==== Sys2Proof/Machine/Wire.lean ====
section
/-! DEFINITION. Bytes and samples at the device boundary (20_memory.md R70, R71, 60_exceptions.md R301, R302):
little-endian two's complement in both directions. -/

namespace Sys2Proof.Machine

/-- The two bytes of a sample: `u[7:0]`, then `u[15:8]` (R70). -/
def sampleBytes (v : Sample) : List Byte := [v.extractLsb' 0 8, v.extractLsb' 8 8]

/-- The bytes of a buffer on the wire: sample `i` at offsets `2i` and `2i + 1` (R70). -/
def wireBytes (pcm : List Sample) : List Byte := pcm.flatMap sampleBytes

/-- The samples of the bytes of one device read (R70); none where the count is not a whole number of samples (R71,
U9). No bytes are an empty chunk. -/
def samplesOfBytes : List Byte → Option (List Sample)
  | [] => some []
  | [_] => none
  | lo :: hi :: rest => (samplesOfBytes rest).map fun vs => (hi ++ lo) :: vs

end Sys2Proof.Machine
end

