-- ==== Sys2Proof/Machine/Fetch.lean ====
section
/-! DEFINITION. Taking the host's next input (30_encoding.md R91, 60_exceptions.md R284, R290, R302, R303, R312). The
core has no program counter and no program store (10_state.md R30, R31): a program is the list of inputs that the host
presents. -/

namespace Sys2Proof.Machine

/-- What the core takes next. -/
inductive Fetched where
  /-- A command, in the state with its word taken. -/
  | run (i : Instr) (s : State)
  /-- Nothing to execute: the step's outcome. -/
  | settled (o : Host.Outcome State Fault Refusal)

/-- The state with the rest of the inputs. -/
def State.withInbox (s : State) (rest : List HostInput) : State := { s with host := { s.host with inbox := rest } }

/-- The host binds an image, or unbinds it (R303). -/
def State.bindImage (s : State) (img : Option Image) : State := { s with host := { s.host with img := img } }

/-- Samples delivered to the sample input port, behind those not yet taken (R98). -/
def State.deliver (s : State) (vs : List Sample) : State := { s with host := { s.host with port := s.host.port ++ vs } }

/-- The next input: a command word, decoded (R101) or refused as reserved (R104); a device failure (R284); an image
(R303); a device read (R302). With no input the core waits and keeps its state (R312). -/
def fetch (s : State) : Fetched :=
  match s.host.inbox with
  | [] => .settled (.next s)
  | .command w :: rest =>
    match decode w with
    | .ok i => .run i (s.withInbox rest)
    | .error e => .settled (.next ((s.withInbox rest).refuse (.reservedWord e)))
  | .deviceError u :: rest => .settled (.next ((s.withInbox rest).deviceError u))
  | .bindImage img :: rest => .settled (.next ((s.withInbox rest).bindImage img))
  | .deviceRead bytes :: rest =>
    match samplesOfBytes bytes with
    | none => .settled (.refused .oddByteCount)
    | some vs => .settled (.next ((s.withInbox rest).deliver vs))

/-- The word placed as the host's next input. -/
def State.presentNext (s : State) (w : CmdWord) : State := s.withInbox (.command w :: s.host.inbox)

/-- The rank of an input among those of one moment: device failure, then stop, then the chunk (R291). The stop is the
word of `STOP`. R291 ranks no other input (other commands, reserved words, those of operation code 0x2B among them,
images): they rank with the chunks. DESIGN CHOICE, notes/assumptions/31.md. -/
def HostInput.rank : HostInput → Nat
  | .deviceError _ => 0
  | .command w => if w = encode .stop then 1 else 2
  | .bindImage _ => 2
  | .deviceRead _ => 2

/-- An input put before the first of a higher rank. -/
def insertInput (x : HostInput) : List HostInput → List HostInput
  | [] => [x]
  | y :: rest => if x.rank ≤ y.rank then x :: y :: rest else y :: insertInput x rest

/-- The order in which the host presents the inputs of one moment (R291); inputs of one rank keep their order. -/
def presentationOrder (xs : List HostInput) : List HostInput := xs.foldr insertInput []

/-- The host presents the inputs of one moment, behind those still waiting (R291). -/
def State.presentMoment (s : State) (xs : List HostInput) : State :=
  s.withInbox (s.host.inbox ++ presentationOrder xs)

end Sys2Proof.Machine
end

