-- ==== Sys2Proof/Machine/Step.lean ====
section
/-! DEFINITION. One step: the core takes the host's next input and executes it to completion (30_encoding.md R91). -/

namespace Sys2Proof.Machine

/-- One step. A `CFG` that is not valid is refused (R324, U12). -/
def step (s : State) : Host.Outcome State Fault Refusal :=
  if ConfigValid s.cfg then
    match fetch s with
    | .run i s' => exec i s'
    | .settled o => o
  else .refused .invalidConfig

/-- The state with the instruction of the low `nbits` bits `w` as the host's next input, the bits above them zero. -/
def State.withFetchWord (s : State) (nbits w : Nat) : State :=
  s.presentNext (BitVec.ofNat 64 (w % 2 ^ nbits))

end Sys2Proof.Machine
end

