-- ==== Sys2Proof/Machine/Pseudo.lean ====
section
/-! DEFINITION. The assembler's syntax (30_encoding.md R108) and the pseudo-instructions: the named pieces of the
encoder's sequence as lists of commands (R110). R110 does not say what an expansion is when a value does not fit its
operand field (a frequency or a row of 2^16 or more, a duration of 2^31 or more): here the field takes the value's low 16
or 32 bits. DESIGN CHOICE, unsafe, notes/assumptions/33.md. No meaning uses an expansion. -/

namespace Sys2Proof.Machine

/-- The syntax of a command (R108): the mnemonic, then the operands, numbers in decimal. -/
def Instr.syntaxLine : Instr → String
  | .padv freq => "PADV " ++ toString freq.toNat
  | .tone freq dur taper =>
    "TONE " ++ toString freq.toNat ++ ", " ++ toString dur.toInt ++ (if taper then ", T" else "")
  | .sweep dur => "SWEEP " ++ toString dur.toInt
  | .bits n pat dur => "BITS " ++ toString n.toNat ++ ", " ++ toString pat.toNat ++ ", " ++ toString dur.toInt
  | .sil dur => "SIL " ++ toString dur.toInt
  | .ldch c y => "LDCH " ++ toString c.toNat ++ ", " ++ toString y.toNat
  | .ereset => "ERESET"
  | .encode vis => "ENCODE " ++ toString vis.toNat
  | .append n => "APPEND " ++ toString n.toNat
  | .peek n => "PEEK " ++ toString n.toNat
  | .consume n => "CONSUME " ++ toString n.toNat
  | .goertz freq => "GOERTZ " ++ toString freq.toNat
  | .visdet => "VISDET"
  | .syncdet => "SYNCDET"
  | .porchdet => "PORCHDET"
  | .chdec k => "CHDEC " ++ toString k.toNat
  | .rowout => "ROWOUT"
  | .step => "STEP"
  | .pass => "PASS"
  | .stop => "STOP"
  | .dreset => "DRESET"

/-- A tapered tone with operands from `CFG`; a value that does not fit is cut to its field. DESIGN CHOICE,
notes/assumptions/33.md. -/
def toneCommand (freq dur : Nat) : Instr := .tone (BitVec.ofNat 16 freq) (BitVec.ofNat 32 dur) true

/-- The pattern of `vbits(vis)` as the operand of `BITS` (R184): `vis`, or `vis` with its bits reversed. -/
def vbitsPattern (o : VisBitOrder) (vis : BitVec 8) : BitVec 8 :=
  match o with
  | .msbFirst => vis
  | .lsbFirst => vis.reverse

/-- `VIS vis` (R110); a duration that does not fit is cut to its field. DESIGN CHOICE, notes/assumptions/33.md. -/
def pseudoVis (c : Config) (vis : BitVec 8) : List Instr :=
  [.bits 8 (vbitsPattern c.visBitOrder vis) (BitVec.ofNat 32 c.bitUs)]

/-- `VSYNC`, and `HSYNC` (R110). -/
def pseudoSync (c : Config) : List Instr := [toneCommand c.syncFreq c.syncUs]

/-- `VPORCH`, and `PORCH` (R110). -/
def pseudoPorch (c : Config) : List Instr := [toneCommand c.porchFreq c.porchUs]

/-- `SEP` (R110). -/
def pseudoSep (c : Config) : List Instr := [toneCommand c.porchFreq c.sepUs]

/-- `SCAN ch, y` (R110); a row or a duration that does not fit is cut to its field. DESIGN CHOICE,
notes/assumptions/33.md. -/
def pseudoScan (c : Config) (ch : BitVec 2) (y : Nat) : List Instr :=
  [.ldch ch (BitVec.ofNat 16 y), .sweep (BitVec.ofNat 32 c.scanUs)]

/-- `PAD` (R110); a duration that does not fit is cut to its field. DESIGN CHOICE, notes/assumptions/33.md. -/
def pseudoPad (c : Config) : List Instr := [.sil (BitVec.ofNat 32 (padUs c))]

/-- `LINE y` (R110). -/
def pseudoLine (c : Config) (y : Nat) : List Instr :=
  pseudoSync c ++ pseudoPorch c ++ pseudoScan c 1 y ++ pseudoSep c ++ pseudoScan c 0 y ++ pseudoSep c
    ++ pseudoScan c 2 y ++ pseudoPad c

/-- `FRAME vis` for an image of `height` rows (R110). -/
def pseudoFrame (c : Config) (vis : BitVec 8) (height : Nat) : List Instr :=
  pseudoVis c vis ++ pseudoSync c ++ pseudoPorch c ++ (List.range height).flatMap (pseudoLine c)

end Sys2Proof.Machine
end

