-- ==== Sys2Proof/Machine/Reference.lean ====
section
/-! DEFINITION. The rules' real-number formulas, written over `ℝ` as the spec has them (00_scope.md R14: the reference
reading is exact real arithmetic). Claims compare the computed operations with them; no meaning uses them. -/

namespace Sys2Proof.Machine

/-- The radians that a number of turns is: the value of `PHASE` is `radians s.enc.phase` (R23). -/
noncomputable def radians (turns : Rat) : ℝ := 2 * Real.pi * (turns : ℝ)

/-- `trunc(x)`: toward zero (R15). -/
noncomputable def truncReal (x : ℝ) : ℤ := if 0 ≤ x then ⌊x⌋ else ⌈x⌉

/-- `round_half_up(x) = floor(x + 1/2)` (R15). -/
noncomputable def roundHalfUp (x : ℝ) : ℤ := ⌊x + 1 / 2⌋

/-- The envelope value that `env` names (R142). -/
noncomputable def envReal (env : Option (Nat × Nat)) : ℝ :=
  match env with
  | none => 1
  | some (j, tn) => 1 / 2 - 1 / 2 * Real.cos (Real.pi * j / tn)

/-- `ENV(i, n)` with `Tn` given, as R142 writes it. -/
noncomputable def envFormula (tn i n : Nat) : ℝ :=
  if tn = 0 then 1
  else if i < tn then 1 / 2 - 1 / 2 * Real.cos (Real.pi * i / tn)
  else if n - tn ≤ i then 1 / 2 - 1 / 2 * Real.cos (Real.pi * (n - 1 - i : ℝ) / tn)
  else 1

/-- The rendered sample before `QUANT`: `AMP × e × sin φ` (R140). -/
noncomputable def sampleReal (amp : Nat) (env : Option (Nat × Nat)) (turns : Rat) : ℝ :=
  amp * envReal env * Real.sin (radians turns)

/-- `xn(s) = s / 32768` (R211). -/
noncomputable def xn (s : Sample) : ℝ := (s.toInt : ℝ) / 32768

/-- `Σ_{m ≥ m₀} xn(w[m]) g(m)` over the samples of a window, the first having index `m₀`. -/
noncomputable def windowSum (g : Nat → ℝ) : Nat → List Sample → ℝ
  | _, [] => 0
  | m, x :: rest => xn x * g m + windowSum g (m + 1) rest

/-- `POWER(w, f)` (R212). -/
noncomputable def powerReal (rate f : Nat) (w : List Sample) : ℝ :=
  windowSum (fun m => Real.cos (2 * Real.pi * f / rate * m)) 0 w ^ 2
    + windowSum (fun m => Real.sin (2 * Real.pi * f / rate * m)) 0 w ^ 2

/-- The two variables `(s1, s2)` of the Goertzel recurrence after a window, from `(s1, s2)` (R213); `coef` is
`2 cos ω`. -/
noncomputable def goertzelRun (coef : ℝ) : ℝ × ℝ → List Sample → ℝ × ℝ
  | st, [] => st
  | st, x :: rest => goertzelRun coef (xn x + coef * st.1 - st.2, st.1) rest

/-- The power as the recurrence gives it: `s1² + s2² − c s1 s2` (R213). -/
noncomputable def goertzelPower (rate f : Nat) (w : List Sample) : ℝ :=
  let coef := 2 * Real.cos (2 * Real.pi * f / rate)
  let st := goertzelRun coef (0, 0) w
  st.1 ^ 2 + st.2 ^ 2 - coef * st.1 * st.2

/-- `MAG(w, f)` (R214). -/
noncomputable def magReal (rate f : Nat) (w : List Sample) : ℝ :=
  if w.length = 0 then 0 else 2 * Real.sqrt (powerReal rate f w) / w.length

/-- `PIX(w)` before `CLAMP` (R253). -/
noncomputable def pixReal (c : Config) (w : List Sample) : ℤ :=
  let ph := powerReal c.sampleRate c.channelMaxFreq w
  let pl := powerReal c.sampleRate c.blackFreq w
  roundHalfUp (255 * ph / (pl + ph + (c.eps : ℝ)))

/-- The real part of a Fourier sum. -/
noncomputable def DftSum.reValue (s : DftSum) : ℝ :=
  (s.terms.map fun t => (t.2 : ℝ) * Real.cos (2 * Real.pi * t.1 / s.order)).sum

/-- The imaginary part of a Fourier sum. -/
noncomputable def DftSum.imValue (s : DftSum) : ℝ :=
  (s.terms.map fun t => (t.2 : ℝ) * Real.sin (2 * Real.pi * t.1 / s.order)).sum

/-- The real number that `GP` holds (R35, R212). -/
noncomputable def Power.value (g : Power) : ℝ := (g.sum.reValue ^ 2 + g.sum.imValue ^ 2) / 32768 ^ 2

/-- The real number that `GM` holds (R35, R214). -/
noncomputable def Magnitude.value (m : Magnitude) : ℝ :=
  if m.n = 0 then 0 else 2 * Real.sqrt ((m.sum.reValue ^ 2 + m.sum.imValue ^ 2) / 32768 ^ 2) / m.n

end Sys2Proof.Machine
end

