-- ==== Sys2Proof/Safety.lean ====
section
/-! DEFINITION. What counts as a good state, a waiting decoder and a stuck decoder, in the terms the claims use. -/

namespace Sys2Proof.Machine

/-- A Fourier sum in canonical form: terms rising, below the order, none zero. -/
def DftSum.Canonical (s : DftSum) : Prop :=
  (s.terms.Pairwise fun a b => a.1 < b.1) ∧ ∀ t ∈ s.terms, t.1 < s.order ∧ t.2 ≠ 0

/-- An image whose pixel store is in canonical form. -/
def ImageOk : Option Image → Prop
  | none => True
  | some img => Memory.wf img.pixels = true

/-- An input whose image, if it binds one, is in canonical form. -/
def InputOk : HostInput → Prop
  | .bindImage img => ImageOk img
  | .command _ => True
  | .deviceError _ => True
  | .deviceRead _ => True

/-- A raster call within the frame (R74): a pixel of a column below `WIDTH` and a row below `HEIGHT`; a `reset` of the
frame's size. -/
def CallOk (c : Config) : RasterCall → Prop
  | .reset w h => w = c.width ∧ h = c.height
  | .setPixel x y _ => x < c.width ∧ y < c.height

/-- A line of `ACC` has all its entries or none (R33). -/
def LineOk (c : Config) (line : List ChannelValue) : Prop := line.length = 0 ∨ line.length = c.width

/-- The invariant of the machine. -/
structure Inv (s : State) : Prop where
  /-- `CFG` is valid (R324). -/
  cfg_valid : ConfigValid s.cfg
  /-- `PHASE` is not negative (R22, R23). -/
  phase_nonneg : 0 ≤ s.enc.phase
  /-- Every frequency of the line lies in the band (R124, R125). -/
  fq_in_band : ∀ f ∈ s.enc.fq, (s.cfg.blackFreq : Rat) ≤ f ∧ f ≤ s.cfg.channelMaxFreq
  /-- Only an exception leaves `SEQ` inside the sequence; otherwise it is `IDLE` or `DONE` (R30, R282). -/
  seq_idle_or_done : s.enc.fault = none → s.enc.seq.stage = .idle ∨ s.enc.seq.stage = .done
  /-- The codes that `ENC.FAULT` can hold (R44). -/
  enc_fault_codes : s.enc.fault ∈ [none, some .preconditionError, some .malformedInput, some .deviceError]
  /-- The codes that `DEC.FAULT` can hold (R44). -/
  dec_fault_codes : s.dec.fault ∈ [none, some .deviceError]
  /-- `ROW` is at most `HEIGHT` (R41). -/
  row_le_height : s.dec.row ≤ s.cfg.height
  /-- `ACC` is written a line at a time (R33). -/
  acc_lines : LineOk s.cfg s.dec.acc.green ∧ LineOk s.cfg s.dec.acc.blue ∧ LineOk s.cfg s.dec.acc.red
  /-- `GP` and `GM` come from one window (R35). -/
  gp_gm_agree : s.dec.gp.sum = s.dec.gm.sum
  /-- The registers' exact values are in canonical form. -/
  gp_canonical : s.dec.gp.sum.Canonical
  /-- The pixel store of `IMG` is in canonical form, and so is that of every image the host is about to bind. -/
  images_ok : ImageOk s.host.img ∧ ∀ x ∈ s.host.inbox, InputOk x
  /-- Every raster call lies in the frame (R74). -/
  raster_in_frame : ∀ call ∈ s.host.raster, CallOk s.cfg call

/-- The decoder's detection has failed on a full window: it is stuck (R247, R338, U6). -/
def Stuck (c : Config) (d : Dec) : Prop :=
  match d.state with
  | .awaitingVIS => c.visSlotsRequired * sampleCount c c.bitUs ≤ d.sb.length ∧ visByte c d ≠ c.visCode
  | .awaitingSync =>
    sampleCount c c.syncUs ≤ d.sb.length ∧ toneDetected c c.syncFreq (sbPeek d 0 (sampleCount c c.syncUs)) = false
  | .awaitingPorch =>
    sampleCount c c.porchUs ≤ d.sb.length ∧ toneDetected c c.porchFreq (sbPeek d 0 (sampleCount c c.porchUs)) = false
  | .decodingLine _ => False

/-- The commands of the decode loop (R338): `APPEND`, `PASS`, `STOP`. -/
def LoopCommand : Instr → Prop
  | .append _ => True
  | .pass => True
  | .stop => True
  | .padv _ | .tone _ _ _ | .sweep _ | .bits _ _ _ | .sil _ | .ldch _ _ | .ereset | .encode _ | .peek _ | .consume _
  | .goertz _ | .visdet | .syncdet | .porchdet | .chdec _ | .rowout | .step | .dreset => False

/-- The commands of a list executed in order, stopping where one has no next state (R31). -/
def runCommands : List Instr → State → Host.Outcome State Fault Refusal
  | [], s => .next s
  | i :: rest, s =>
    match exec i s with
    | .next t => runCommands rest t
    | .fault f => .fault f
    | .refused r => .refused r

/-- `n` progressed steps of the state machine lead from one state of `DEC` and raster to another (R260, R262). -/
def Progresses (c : Config) : Nat → Dec → List RasterCall → Dec → List RasterCall → Prop
  | 0, d, r, d', r' => d = d' ∧ r = r'
  | n + 1, d, r, d', r' =>
    (stepAction c d r).result = .ok ∧
      Progresses c n (stepAction c d r).dec (stepAction c d r).raster d' r'

/-- The bits that a word of the operation code may set, by its format (R92, R100); `none` for a code that is not in the
map. -/
def formatMask (opc : Nat) : Option CmdWord :=
  if opc ∈ [0x1E, 0x24, 0x25, 0x26, 0x28, 0x29, 0x2A, 0x2B, 0x2E] then some 0xFF00000000000000
  else if opc ∈ [0x10, 0x23] then some 0xFF00FFFF00000000
  else if opc = 0x11 then some 0xFF01FFFFFFFFFFFF
  else if opc ∈ [0x12, 0x14, 0x20, 0x21, 0x22] then some 0xFF000000FFFFFFFF
  else if opc = 0x13 then some 0xFF0F00FFFFFFFFFF
  else if opc = 0x15 then some 0xFF03FFFF00000000
  else if opc = 0x27 then some 0xFF03000000000000
  else if opc = 0x1F then some 0xFF0000FF00000000
  else none

/-- A reserved word, in R104's own words: an unlisted operation code; a set bit that the format names zero; `BITS` with
`n` above 8 or a set bit in `A[7:n]`; `LDCH` or `CHDEC` with channel 3. -/
def Reserved (w : CmdWord) : Prop :=
  let opc := w.toNat / 2 ^ 56
  let n := w.toNat / 2 ^ 48 % 16
  let pat := w.toNat / 2 ^ 32 % 256
  match formatMask opc with
  | none => True
  | some mask =>
    w &&& ~~~mask ≠ 0 ∨ (opc = 0x13 ∧ (8 < n ∨ 2 ^ n ≤ pat)) ∨ ((opc = 0x15 ∨ opc = 0x27) ∧ n % 4 = 3)

/-- The `n` samples of a tone at `f` Hz from the phase `φ` (in turns): sample `i` at the phase after `i + 1` advances
(R140, R146). -/
def toneSamples (c : Config) (f n : Nat) (taper : Bool) (φ : Rat) : List Sample :=
  (List.range n).map fun i =>
    renderedSample c (if taper then envelope c i n else none) (φ + (i + 1 : Nat) * (f : Rat) / c.sampleRate)

/-- Tapered tones (frequency in Hz, duration in µs) in order from the phase `φ` (in turns): their samples, and the phase
after them (R146, R188). -/
def toneTrain (c : Config) : Rat → List (Nat × Nat) → List Sample × Rat
  | φ, [] => ([], φ)
  | φ, (f, d) :: rest =>
    let n := sampleCount c d
    let r := toneTrain c (φ + n * (f : Rat) / c.sampleRate) rest
    (toneSamples c f n true φ ++ r.1, r.2)

/-- The frequencies and durations of `CFG` fit the operand fields of the command word (R94, R95), so that the pieces of
the encoder's sequence can be written as commands. -/
structure OperandsFit (c : Config) : Prop where
  syncFreq : c.syncFreq < 2 ^ 16
  porchFreq : c.porchFreq < 2 ^ 16
  bitUs : c.bitUs < 2 ^ 31
  syncUs : c.syncUs < 2 ^ 31
  porchUs : c.porchUs < 2 ^ 31
  scanUs : c.scanUs < 2 ^ 31
  sepUs : c.sepUs < 2 ^ 31
  lineBudgetUs : c.lineBudgetUs < 2 ^ 31

/-- The command that is the action of a decoder state (R240, R260). -/
def actionCommand : DecState → Instr
  | .awaitingVIS => .visdet
  | .awaitingSync => .syncdet
  | .awaitingPorch => .porchdet
  | .decodingLine k => .chdec (BitVec.ofNat 2 k.val)

/-- The number of samples of one encoded line (R192): sync, porch, three scans, two separators, pad. -/
def lineLength (c : Config) : Nat :=
  sampleCount c c.syncUs + sampleCount c c.porchUs + 3 * sampleCount c c.scanUs + 2 * sampleCount c c.sepUs
    + sampleCount c (padUs c)

/-- The number of samples before the first line (R192): eight bits, vertical sync, vertical porch. -/
def headerLength (c : Config) : Nat :=
  8 * sampleCount c c.bitUs + sampleCount c c.syncUs + sampleCount c c.porchUs

/-- The unit that a command is for (R91). -/
def unitOf : Instr → UnitId
  | .padv _ | .tone _ _ _ | .sweep _ | .bits _ _ _ | .sil _ | .ldch _ _ | .ereset | .encode _ => .enc
  | .append _ | .peek _ | .consume _ | .goertz _ | .visdet | .syncdet | .porchdet | .chdec _ | .rowout | .step | .pass
  | .stop | .dreset => .dec

end Sys2Proof.Machine
end

