-- ==== Sys2Proof/Certificates/Slice0/Obligations.lean ====
section
/-! DEFINITION. The statements for the provers. Every statement about a command names the whole next state, so its frame
is the record equation: what the update does not name is unchanged. `State.report` writes the outcome register only. -/

section
open Sys2Proof Sys2Proof.Machine

/-! ### The command word -/

/-- Decoding an encoded well-formed command gives it back, every operand at every value (R90, R92, R100). -/
def Obligations.DecodeEncodeAgree : Prop :=
  ∀ i : Instr, i.WellFormed → decode (encode i) = .ok i

/-- A word that decodes is the one encoding of a well-formed command (R101). -/
def Obligations.DecodedWordIsItsEncoding : Prop :=
  ∀ (w : CmdWord) (i : Instr), decode w = .ok i → i.WellFormed ∧ encode i = w

/-- The worked encodings of R112, in both directions. -/
def Obligations.WorkedEncodings : Prop :=
  (encode (.tone 1200 9000 true) = 0x110104B000002328 ∧ decode 0x110104B000002328 = .ok (.tone 1200 9000 true))
    ∧ (encode (.tone 1500 1500 true) = 0x110105DC000005DC ∧ decode 0x110105DC000005DC = .ok (.tone 1500 1500 true))
    ∧ (encode (.sweep 138240) = 0x1200000000021C00 ∧ decode 0x1200000000021C00 = .ok (.sweep 138240))
    ∧ (encode (.sil 16780) = 0x140000000000418C ∧ decode 0x140000000000418C = .ok (.sil 16780))
    ∧ (encode (.bits 8 0x4C 30000) = 0x1308004C00007530 ∧ decode 0x1308004C00007530 = .ok (.bits 8 0x4C 30000))
    ∧ (encode (.ldch 1 0) = 0x1501000000000000 ∧ decode 0x1501000000000000 = .ok (.ldch 1 0))
    ∧ (encode (.encode 0x4C) = 0x1F00004C00000000 ∧ decode 0x1F00004C00000000 = .ok (.encode 0x4C))
    ∧ (encode (.append 4096) = 0x2000000000001000 ∧ decode 0x2000000000001000 = .ok (.append 4096))
    ∧ (encode (.chdec 2) = 0x2702000000000000 ∧ decode 0x2702000000000000 = .ok (.chdec 2))
    ∧ (encode (.tone 1200 (-1) true) = 0x110104B0FFFFFFFF ∧ decode 0x110104B0FFFFFFFF = .ok (.tone 1200 (-1) true))

/-- The decoder rejects exactly the words of R104, and a step over one takes it, records the refusal and changes
nothing else. -/
def Obligations.ReservedWordsAreRefused : Prop :=
  (∀ w : CmdWord, (∃ e, decode w = .error e) ↔ Reserved w)
    ∧ ∀ (s : State) (w : CmdWord) (rest : List HostInput),
      ConfigValid s.cfg → s.host.inbox = .command w :: rest → Reserved w →
        ∃ e, step s = .next
          { s with host := { s.host with inbox := rest, result := some (.refused (.reservedWord e)) } }

/-! ### The step -/

/-- A step whose next input is the word of a command executes that command, the word taken from the inputs; a word placed
by `withFetchWord` runs next, in the state as it was. -/
def Obligations.StepRunsTheDecodedCommand : Prop :=
  (∀ (s : State) (w : CmdWord) (i : Instr) (rest : List HostInput),
    ConfigValid s.cfg → s.host.inbox = .command w :: rest → decode w = .ok i →
      step s = exec i { s with host := { s.host with inbox := rest } })
    ∧ ∀ (s : State) (nbits w : Nat) (i : Instr),
      ConfigValid s.cfg → decodeTableWord nbits w = some i → step (s.withFetchWord nbits w) = exec i s

/-- What a step does with every other input (R284, R302, R303, R312): with none, nothing; a device failure sets the
unit's latch; an image is bound; the samples of a device read go to the port's end. An odd byte count is refused (U9;
the model's reading, notes/assumptions/17.md), and so is every step over a `CFG` that is not `ConfigValid`: one that breaks
a condition of R243 or R324 (U12), and by the model's reading (notes/assumptions/28.md), not by those rules, one without 16
bits a sample, one channel, 8 VIS bits or the order Green, Blue, Red. -/
def Obligations.StepTakesHostEvents : Prop :=
  ∀ (s : State) (rest : List HostInput), ConfigValid s.cfg →
    (s.host.inbox = [] → step s = .next s)
    ∧ (s.host.inbox = .deviceError .enc :: rest →
        step s = .next { s with
          enc := { s.enc with fault := some .deviceError }
          host := { s.host with inbox := rest } })
    ∧ (s.host.inbox = .deviceError .dec :: rest →
        step s = .next { s with
          dec := { s.dec with fault := some .deviceError }
          host := { s.host with inbox := rest } })
    ∧ (∀ img, s.host.inbox = .bindImage img :: rest →
        step s = .next { s with host := { s.host with inbox := rest, img := img } })
    ∧ (∀ vs, s.host.inbox = .deviceRead (wireBytes vs) :: rest →
        step s = .next { s with host := { s.host with inbox := rest, port := s.host.port ++ vs } })
    ∧ (∀ bytes, s.host.inbox = .deviceRead bytes :: rest → bytes.length % 2 = 1 → step s = .refused .oddByteCount)
    ∧ ∀ c : Config, ¬ ConfigValid c → step { s with cfg := c } = .refused .invalidConfig

/-- The inputs of one moment are presented in the order device failure, then stop, then the rest (R291): first every
`DeviceError`, then every word of `STOP`, then every other input, each in the order the host names them and none lost;
they stand behind the inputs that still wait, and with none waiting the next step takes the first of them. That inputs
R291 does not name (other commands, reserved words, images) go with the chunks, and that inputs of one kind keep their
order, is the model's choice (notes/assumptions/31.md). -/
def Obligations.PresentationIsByRank : Prop :=
  ∀ xs : List HostInput,
    let failures := xs.filter fun x => x = .deviceError .enc ∨ x = .deviceError .dec
    let stops := xs.filter fun x => x = .command 0x2B00000000000000
    let others := xs.filter fun x =>
      x ≠ .deviceError .enc ∧ x ≠ .deviceError .dec ∧ x ≠ .command 0x2B00000000000000
    presentationOrder xs = failures ++ stops ++ others
      ∧ ∀ s : State,
        let waiting := fun (inbox : List HostInput) => ({ s with host := { s.host with inbox := inbox } } : State)
        s.presentMoment xs = waiting (s.host.inbox ++ (failures ++ stops ++ others))
        ∧ (ConfigValid s.cfg → s.host.inbox = [] →
          (∀ f, failures = .deviceError .enc :: f →
            step (s.presentMoment xs) = .next { waiting (f ++ stops ++ others) with
              enc := { s.enc with fault := some .deviceError } })
          ∧ (∀ f, failures = .deviceError .dec :: f →
            step (s.presentMoment xs) = .next { waiting (f ++ stops ++ others) with
              dec := { s.dec with fault := some .deviceError } })
          ∧ ∀ x f, failures = [] → stops = x :: f →
            step (s.presentMoment xs) = exec .stop (waiting (f ++ others)))

/-! ### Reset and the invariant -/

/-- The reset table of R52: the state after power-on reset, and `ERESET` then `DRESET` from any state. The value of
`VIS_CODE` is the model's own (notes/assumptions/2.md), so it is left open here. -/
def Obligations.ResetTable : Prop :=
  (State.reset.enc = { phase := 0, fq := [], seq := ⟨.idle, 0, 0⟩, fault := none, pcm := [] }
    ∧ State.reset.dec.state = .awaitingVIS ∧ State.reset.dec.row = 0 ∧ State.reset.dec.acc = ⟨[], [], []⟩
    ∧ State.reset.dec.win = [] ∧ State.reset.dec.gp.value = 0 ∧ State.reset.dec.gm.value = 0
    ∧ State.reset.dec.stopped = false ∧ State.reset.dec.fault = none ∧ State.reset.dec.sb = []
    ∧ State.reset.cfg =
      { sampleRate := 44100, bitsPerSample := 16, channels := 1, amp := 32767, blackFreq := 1500
        channelMaxFreq := 2300, syncFreq := 1200, porchFreq := 1500, fskF0 := 1100, fskF1 := 1300
        bitUs := 30000, syncUs := 9000, porchUs := 1500, scanUs := 138240, sepUs := 1500
        lineBudgetUs := 445000, taperUs := 5000, width := 320, height := 256
        txOrder := (.green, .blue, .red), pixelPacking := .rrggbb, visBits := 8, visSlotsRequired := 10
        visSkipSlots := 1, toneThreshold := 1 / 5, chunkSamples := 4096
        visCode := State.reset.cfg.visCode, visBitOrder := .msbFirst, visRxF1 := 1300, visRxF0 := 1100
        visConsumeSlots := 10, eps := 1 / 1000000000, sbMax := none })
    ∧ ∀ s : State, ∃ t u, exec .ereset s = .next t ∧ exec .dreset t = .next u
      ∧ u = ({ s with enc := State.reset.enc, dec := State.reset.dec } : State).report .ok

/-- The invariant holds right after reset. -/
def Obligations.InvariantHoldsAtReset : Prop := Inv State.reset

/-- Every step keeps the invariant, from every state that has it. -/
def Obligations.EveryStepKeepsTheInvariant : Prop :=
  ∀ s t : State, Inv s → step s = .next t → Inv t

/-! ### Counts and maps -/

/-- The consequences of the sample count (R121): its values under `CANON`; monotone; and a sum of segments is never
longer than the one segment of the summed duration, and shorter by at most one sample a segment. -/
def Obligations.SampleCountLaws : Prop :=
  ([30000, 9000, 1500, 138240, 5000, 16780, 445000, 0, 22, 23].map (sampleCount .canon)
      = [1323, 396, 66, 6096, 220, 739, 19624, 0, 0, 1])
    ∧ ∀ c : Config,
      (∀ a b, a ≤ b → sampleCount c a ≤ sampleCount c b)
      ∧ (∀ a b, sampleCount c a + sampleCount c b ≤ sampleCount c (a + b)
          ∧ sampleCount c (a + b) ≤ sampleCount c a + sampleCount c b + 1)
      ∧ ∀ ds : List Nat, (ds.map (sampleCount c)).sum ≤ sampleCount c ds.sum
          ∧ sampleCount c ds.sum ≤ (ds.map (sampleCount c)).sum + ds.length

/-- `CLAMP` (R122): its three cases, its range, the source's examples, idempotence. -/
def Obligations.ClampSaturates : Prop :=
  (∀ v : Int, (v < 0 → clamp v = 0) ∧ (255 < v → clamp v = 255) ∧ (0 ≤ v → v ≤ 255 → clamp v = v)
    ∧ 0 ≤ clamp v ∧ clamp v ≤ 255 ∧ clamp (clamp v) = clamp v)
    ∧ clamp (-10) = 0 ∧ clamp 300 = 255

/-- The FrequencyMap under `CANON` (R124, R125): its formula, its ends, its step, its sample values; and for every `CFG`
whose band is not inverted, it stays in the band. -/
def Obligations.FrequencyMapBand : Prop :=
  (∀ v : Nat, fmap .canon v = 1500 + v * 800 / 255)
    ∧ fmap .canon 0 = 1500 ∧ fmap .canon 255 = 2300
    ∧ (∀ v : Nat, fmap .canon (v + 1) - fmap .canon v = 800 / 255)
    ∧ (∀ u v : Nat, u < v → fmap .canon u < fmap .canon v)
    ∧ (|fmap .canon 1 - 1503.1373| < 0.0001 ∧ |fmap .canon 127 - 1898.4314| < 0.0001
      ∧ |fmap .canon 128 - 1901.5686| < 0.0001 ∧ |fmap .canon 254 - 2296.8627| < 0.0001)
    ∧ ∀ (c : Config) (v : Nat), c.blackFreq ≤ c.channelMaxFreq → v ≤ 255 →
      (c.blackFreq : Rat) ≤ fmap c v ∧ fmap c v ≤ c.channelMaxFreq

/-- Channel extraction, the transmission order and the composition of a pixel (R126, R127): `c` = 0 Blue, 1 Green, 2 Red,
and a composed pixel gives its channels back. -/
def Obligations.ChannelsUnpackAndPack : Prop :=
  (∀ (p : PixelWord) (c : Fin 3), (chx p c).toNat = p.toNat / 2 ^ (8 * c.val) % 256)
    ∧ (txc .canon 0 = 1 ∧ txc .canon 1 = 0 ∧ txc .canon 2 = 2)
    ∧ (∀ r g b : ChannelValue, (packRgb r g b).toNat = r.toNat * 2 ^ 16 + g.toNat * 2 ^ 8 + b.toNat)
    ∧ ∀ r g b : ChannelValue,
      chx ((packRgb r g b).setWidth 32) 2 = r ∧ chx ((packRgb r g b).setWidth 32) 1 = g
        ∧ chx ((packRgb r g b).setWidth 32) 0 = b

/-- The bit orders (R96, R184): `vbits` as a `BITS` pattern in both orders, and the decoder's assembly undoes the
encoder's order. -/
def Obligations.VisBitOrdersAgree : Prop :=
  ∀ vis : BitVec 8,
    vbits .msbFirst vis = bitsOperand 8 vis ∧ vbits .lsbFirst vis = bitsOperand 8 vis.reverse
      ∧ ∀ o : VisBitOrder, assembleVis o (vbits o vis) = vis

/-- The taper envelope (R142): its value is the rule's formula, it is symmetric, and it lies in [0, 1]. -/
def Obligations.EnvelopeShape : Prop :=
  ∀ (c : Config) (n i : Nat), i < n →
    envReal (envelope c i n) = envFormula (min (sampleCount c c.taperUs) (n / 2)) i n
      ∧ envReal (envelope c i n) = envReal (envelope c (n - 1 - i) n)
      ∧ 0 ≤ envReal (envelope c i n) ∧ envReal (envelope c i n) ≤ 1

/-- The pad (R191): the budget less the sum of the segments, never negative; 16780 µs and 739 samples under `CANON`. -/
def Obligations.PadFillsTheBudget : Prop :=
  (∀ c : Config,
    (padUs c : Int) = max 0 ((c.lineBudgetUs : Int) - (c.syncUs + c.porchUs + 3 * c.scanUs + 2 * c.sepUs)))
    ∧ padUs .canon = 16780 ∧ sampleCount .canon (padUs .canon) = 739

/-- Bytes and samples at the device boundary (R70): sample `i` is the little-endian pair of its pattern mod 65536 at
offsets `2i` and `2i + 1`, and reading is the reverse. That a byte count is readable exactly when it is even is the model's
reading of R71 and U9, which leave an odd count outside (notes/assumptions/17.md). -/
def Obligations.WireFormatIsLittleEndian : Prop :=
  (∀ (pcm : List Sample) (i : Nat) (v : Sample), pcm[i]? = some v →
    ∃ lo hi : Byte, (wireBytes pcm)[2 * i]? = some lo ∧ (wireBytes pcm)[2 * i + 1]? = some hi
      ∧ (lo.toNat : Int) = v.toInt % 65536 % 256 ∧ (hi.toNat : Int) = v.toInt % 65536 / 256)
    ∧ (∀ pcm : List Sample, (wireBytes pcm).length = 2 * pcm.length ∧ samplesOfBytes (wireBytes pcm) = some pcm)
    ∧ ∀ bytes : List Byte,
      (bytes.length % 2 = 0 → ∃ vs, samplesOfBytes bytes = some vs ∧ wireBytes vs = bytes)
      ∧ (bytes.length % 2 = 1 → samplesOfBytes bytes = none)

/-! ### Synthesis -/

/-- A rendered sample is exactly `QUANT(AMP × e × sin φ)` over the reals, at every phase and envelope value (R14, R128,
R140); so it never leaves −32767 to 32767. -/
def Obligations.RenderedSampleIsExact : Prop :=
  ∀ (c : Config) (env : Option (Nat × Nat)) (turns : Rat),
    c.amp = 32767 → (∀ j tn, env = some (j, tn) → 0 < tn) →
      (renderedSample c env turns).toInt = truncReal (32767 * envReal env * Real.sin (radians turns))
        ∧ -32767 ≤ (renderedSample c env turns).toInt ∧ (renderedSample c env turns).toInt ≤ 32767

/-- `PADV` (R130): the phase advances by `2π freq / SAMPLE_RATE`, and nothing else changes. -/
def Obligations.PadvAdvancesThePhase : Prop :=
  ∀ (s : State) (freq : BitVec 16), s.enc.fault ≠ some .deviceError →
    ∃ φ : Rat,
      exec (.padv freq) s = .next (({ s with enc := { s.enc with phase := φ } } : State).report .ok)
        ∧ radians φ = radians s.enc.phase + 2 * Real.pi * freq.toNat / s.cfg.sampleRate
        ∧ (freq = 0 → φ = s.enc.phase)

/-- `TONE` (R146, R147): `N(dur)` samples, each rendered after its own advance, and the phase after them; a negative
duration raises, with nothing written but the latch. -/
def Obligations.ToneRendersItsSamples : Prop :=
  ∀ (s : State) (freq : BitVec 16) (dur : BitVec 32) (taper : Bool), s.enc.fault ≠ some .deviceError →
    let n := sampleCount s.cfg dur.toInt.toNat
    (0 ≤ dur.toInt →
      exec (.tone freq dur taper) s = .next (({ s with
        enc := { s.enc with
          phase := s.enc.phase + n * (freq.toNat : Rat) / s.cfg.sampleRate
          pcm := s.enc.pcm ++ toneSamples s.cfg freq.toNat n taper s.enc.phase } } : State).report .ok))
    ∧ (dur.toInt < 0 →
      exec (.tone freq dur taper) s = .next (({ s with
        enc := { s.enc with fault := some .preconditionError } } : State).report
          (.raised (.precondition (.negativeDuration dur.toInt)))))

/-- A tapered tone of two or more samples starts and ends on a zero sample, whenever the taper has a sample (R143,
R147). -/
def Obligations.TaperedToneStartsAndEndsAtZero : Prop :=
  ∀ (c : Config) (freq n : Nat) (φ : Rat), 1 ≤ sampleCount c c.taperUs → 2 ≤ n →
    (toneSamples c freq n true φ).length = n
      ∧ (toneSamples c freq n true φ)[0]? = some 0 ∧ (toneSamples c freq n true φ)[n - 1]? = some 0

/-- `SWEEP` (R150): over a line of `L ≥ 1` frequencies with `spp = n div L ≥ 1` samples a pixel it writes `n = N(dur)`
tapered samples, sample `i` at the phase after the advances at `fi 0` to `fi i`, where `fi` interpolates from the pixel `p`
to the next pixel `q`, the last pixel holding its own frequency. -/
def Obligations.SweepRendersTheLine : Prop :=
  ∀ (s : State) (dur : BitVec 32), s.enc.fault ≠ some .deviceError → 0 ≤ dur.toInt → s.enc.fq ≠ [] →
    let f := s.enc.fq
    let n := sampleCount s.cfg dur.toInt.toNat
    let spp := n / f.length
    let p : Nat → Nat := fun i => min (i / spp) (f.length - 1)
    let q : Nat → Nat := fun i => min (p i + 1) (f.length - 1)
    let α : Nat → Rat := fun i => ((i % spp : Nat) : Rat) / (spp : Rat)
    let fi : Nat → Rat := fun i => f.getD (p i) 0 + α i * (f.getD (q i) 0 - f.getD (p i) 0)
    let phaseAt : Nat → Rat := fun k => s.enc.phase + ((List.range k).map fi).sum / s.cfg.sampleRate
    1 ≤ spp →
      exec (.sweep dur) s = .next (({ s with
        enc := { s.enc with
          phase := phaseAt n
          pcm := s.enc.pcm ++ (List.range n).map fun i =>
            renderedSample s.cfg (envelope s.cfg i n) (phaseAt (i + 1)) } } : State).report .ok)

/-- The checks of `SWEEP` in their order (R150, R292): negative duration, empty line, more pixels than samples; each
raises with nothing written but the latch. -/
def Obligations.SweepChecksInOrder : Prop :=
  ∀ (s : State) (dur : BitVec 32), s.enc.fault ≠ some .deviceError →
    let raises := fun cause =>
      exec (.sweep dur) s = .next (({ s with
        enc := { s.enc with fault := some .preconditionError } } : State).report (.raised (.precondition cause)))
    (dur.toInt < 0 → raises (.negativeDuration dur.toInt))
      ∧ (0 ≤ dur.toInt → s.enc.fq = [] → raises .emptyFrequencyArray)
      ∧ (0 ≤ dur.toInt → s.enc.fq ≠ [] → sampleCount s.cfg dur.toInt.toNat < s.enc.fq.length →
        raises .morePixelsThanSamples)

/-- A sweep over one frequency is the tapered tone of that frequency (R151). -/
def Obligations.SingleFrequencySweepIsATone : Prop :=
  ∀ (s : State) (freq : BitVec 16) (dur : BitVec 32),
    s.enc.fq = [(freq.toNat : Rat)] → 1 ≤ sampleCount s.cfg dur.toInt.toNat →
      exec (.sweep dur) s = exec (.tone freq dur true) s

/-- `SIL` (R160): `N(dur)` zero samples, `PHASE` unchanged; nothing for `dur ≤ 0`, and never an exception. -/
def Obligations.SilenceAppendsZeros : Prop :=
  ∀ (s : State) (dur : BitVec 32), s.enc.fault ≠ some .deviceError →
    (0 < dur.toInt →
      exec (.sil dur) s = .next (({ s with
        enc := { s.enc with
          pcm := s.enc.pcm ++ List.replicate (sampleCount s.cfg dur.toInt.toNat) 0 } } : State).report .ok))
    ∧ (dur.toInt ≤ 0 → exec (.sil dur) s = .next (s.report .ok))

/-- `BITS` (R172): for each bit, first bit first, `N(dur)` samples of a tapered tone at `FSK_F1` or `FSK_F0`, the phase
running on from bit to bit. -/
def Obligations.BitsRenderTaperedTones : Prop :=
  ∀ (s : State) (n : BitVec 4) (pat : BitVec 8) (dur : BitVec 32), s.enc.fault ≠ some .deviceError →
    n.toNat ≤ 8 → pat.toNat < 2 ^ n.toNat → 0 ≤ dur.toInt →
    let count := sampleCount s.cfg dur.toInt.toNat
    let freqs : List Nat :=
      (List.range n.toNat).map fun j => if pat.getLsbD (n.toNat - 1 - j) then s.cfg.fskF1 else s.cfg.fskF0
    let phaseAt : Nat → Rat := fun j => s.enc.phase + (((freqs.take j).sum * count : Nat) : Rat) / s.cfg.sampleRate
    exec (.bits n pat dur) s = .next (({ s with
      enc := { s.enc with
        phase := phaseAt n.toNat
        pcm := s.enc.pcm ++
          (List.range n.toNat).flatMap fun j => toneSamples s.cfg (freqs.getD j 0) count true (phaseAt j) } }
      : State).report .ok)

/-- `BITS` is the `TONE` commands of its bits in order (R172), for `FSK` frequencies that a command word can hold; of
no bits it does nothing, whatever the duration; and with a negative duration it raises before anything is written. -/
def Obligations.BitsAreTones : Prop :=
  ∀ (s : State) (n : BitVec 4) (pat : BitVec 8) (dur : BitVec 32), s.enc.fault ≠ some .deviceError →
    n.toNat ≤ 8 → pat.toNat < 2 ^ n.toNat →
    (n = 0 → exec (.bits n pat dur) s = .next (s.report .ok))
    ∧ (n ≠ 0 → 0 ≤ dur.toInt → s.cfg.fskF0 < 2 ^ 16 → s.cfg.fskF1 < 2 ^ 16 →
        exec (.bits n pat dur) s =
          runCommands ((bitsOperand n.toNat pat).map fun b =>
            .tone (BitVec.ofNat 16 (if b then s.cfg.fskF1 else s.cfg.fskF0)) dur true) s)
    ∧ (n ≠ 0 → dur.toInt < 0 →
        exec (.bits n pat dur) s = .next (({ s with
          enc := { s.enc with fault := some .preconditionError } } : State).report
            (.raised (.precondition (.negativeDuration dur.toInt)))))

/-! ### The encoder -/

/-- `LDCH` (R182): the line of frequencies of one channel of one row; `MalformedInput` for an absent or zero-size image,
then `PreconditionError` for a row outside it, with nothing written but the latch. -/
def Obligations.LdchLoadsTheLine : Prop :=
  ∀ (s : State) (c : BitVec 2) (y : BitVec 16) (hc : c.toNat < 3), s.enc.fault ≠ some .deviceError →
    let raises := fun (x : Raise) =>
      exec (.ldch c y) s = .next (({ s with enc := { s.enc with fault := some x.exc } } : State).report (.raised x))
    (s.host.img = none → raises .malformedInput)
      ∧ ∀ im : Image, s.host.img = some im →
        (im.width = 0 ∨ im.height = 0 → raises .malformedInput)
        ∧ (0 < im.width → 0 < im.height → im.height ≤ y.toNat → raises (.precondition .rowOutOfRange))
        ∧ (0 < im.width → y.toNat < im.height →
          exec (.ldch c y) s = .next (({ s with
            enc := { s.enc with
              fq := (List.range im.width).map fun x =>
                fmap s.cfg (chx (im.read x y.toNat) ⟨c.toNat, hc⟩).toNat } } : State).report .ok))

/-- `ERESET` (R180): `ENC` to its reset state from every state, also a faulted one; nothing else changes. -/
def Obligations.EresetRestoresTheEncoder : Prop :=
  ∀ s : State,
    exec .ereset s = .next (({ s with
      enc := { phase := 0, fq := [], seq := ⟨.idle, 0, 0⟩, fault := none, pcm := [] } } : State).report .ok)

/-- `ENCODE` of an image no wider than a scan has samples (R186, R187, R188, R192): it ends normally from every state of
`ENC`, also a faulted one, hands over one complete buffer whose length the image's height fixes, stands at `DONE`, and
changes nothing else. Under `CANON`, a header is 11046 samples and a line 19621. -/
def Obligations.EncodeHandsOverTheTransmission : Prop :=
  (∀ (s : State) (vis : BitVec 8) (im : Image), s.host.img = some im → 0 < im.width → 0 < im.height →
    im.width ≤ sampleCount s.cfg s.cfg.scanUs →
      ∃ e : Enc,
        exec (.encode vis) s = .next (({ s with
          enc := e
          host := { s.host with handed := s.host.handed ++ [e.pcm] } } : State).report .ok)
        ∧ e.fault = none ∧ e.seq = ⟨.done, im.height - 1, 2⟩
        ∧ e.pcm.length = headerLength s.cfg + im.height * lineLength s.cfg
        ∧ e.fq = (List.range im.width).map fun x =>
            fmap s.cfg (chx (im.read x (im.height - 1)) (txc s.cfg 2)).toNat)
    ∧ headerLength .canon = 11046 ∧ lineLength .canon = 19621
    ∧ headerLength .canon + 256 * lineLength .canon = 5034022

/-- `MalformedInput` (R283): `ENCODE` of an absent or zero-size image raises it from a reset `ENC` with an empty buffer
and hands nothing over; `LDCH` raises it with no change but the latch. -/
def Obligations.MalformedImageRaises : Prop :=
  ∀ s : State,
    (s.host.img = none ∨ ∃ im, s.host.img = some im ∧ (im.width = 0 ∨ im.height = 0)) →
      (∀ vis : BitVec 8,
        exec (.encode vis) s = .next (({ s with
          enc := { phase := 0, fq := [], seq := ⟨.idle, 0, 0⟩, fault := some .malformedInput, pcm := [] } }
            : State).report (.raised .malformedInput)))
      ∧ ∀ (c : BitVec 2) (y : BitVec 16), c.toNat ≤ 2 → s.enc.fault ≠ some .deviceError →
        exec (.ldch c y) s = .next (({ s with
          enc := { s.enc with fault := some .malformedInput } } : State).report (.raised .malformedInput))

/-- `ENCODE` of an image wider than a scan has samples (R186, R282): the first scan raises. `PCM` and `PHASE` are those of
the tapered tones of the header's eight bits, the vertical sync and porch and the sync and porch of line 0, from an empty
buffer and phase 0: what `ERESET`, `VIS`, `VSYNC`, `VPORCH`, `HSYNC`, `PORCH` leave (for a `CFG` whose values fit the
operand fields). `FQ` is the first channel's line of row 0, `SEQ` holds the stage reached, nothing is handed over. -/
def Obligations.TooWideImageStopsAtTheFirstScan : Prop :=
  ∀ (s : State) (vis : BitVec 8) (im : Image), s.host.img = some im → 0 < im.height →
    sampleCount s.cfg s.cfg.scanUs < im.width →
      let c := s.cfg
      let bits := (vbits c.visBitOrder vis).map fun b => (if b then c.fskF1 else c.fskF0, c.bitUs)
      let sync := (c.syncFreq, c.syncUs)
      let porch := (c.porchFreq, c.porchUs)
      let train := toneTrain c 0 (bits ++ [sync, porch, sync, porch])
      let e : Enc :=
        { phase := train.2
          fq := (List.range im.width).map fun x => fmap c (chx (im.read x 0) (txc c 0)).toNat
          seq := ⟨.scan, 0, 0⟩
          fault := some .preconditionError
          pcm := train.1 }
      exec (.encode vis) s = .next (({ s with enc := e } : State).report
          (.raised (.precondition .morePixelsThanSamples)))
        ∧ e.pcm.length = headerLength c + sampleCount c c.syncUs + sampleCount c c.porchUs
        ∧ (OperandsFit c →
          ∃ t, runCommands
              (.ereset :: (pseudoVis c vis ++ pseudoSync c ++ pseudoPorch c ++ pseudoSync c ++ pseudoPorch c)) s = .next t
            ∧ t.enc = { e with fq := [], seq := ⟨.idle, 0, 0⟩, fault := none })

/-- `ENCODE vis` equals `ERESET` followed by the commands of `FRAME vis` (R110, R111): the same samples, phase and line;
only `SEQ` differs, which the separate commands leave at `IDLE`. For a `CFG` whose values fit the operand fields and an
image whose rows a command word can name. -/
def Obligations.EncodeEqualsTheFrameCommands : Prop :=
  ∀ (s : State) (vis : BitVec 8) (im : Image), ConfigValid s.cfg → OperandsFit s.cfg →
    s.host.img = some im → 0 < im.width → 0 < im.height → im.height ≤ 2 ^ 16 →
    im.width ≤ sampleCount s.cfg s.cfg.scanUs →
      ∃ t u : State,
        runCommands (.ereset :: pseudoFrame s.cfg vis im.height) s = .next t
        ∧ exec (.encode vis) s = .next u
        ∧ u.enc = { t.enc with seq := ⟨.done, im.height - 1, 2⟩ }

/-- What leaves the encoder only grows (R23, R62, R131): no command but `ERESET` and `ENCODE` sets the phase back or
removes or overwrites a sample of `PCM`. -/
def Obligations.EncoderOutputOnlyGrows : Prop :=
  ∀ (i : Instr) (s t : State), Inv s → exec i s = .next t → i ≠ .ereset → (∀ vis, i ≠ .encode vis) →
    s.enc.phase ≤ t.enc.phase ∧ s.enc.pcm <+: t.enc.pcm

/-! ### The estimator and the stream buffer -/

/-- `GOERTZ` (R212, R214, R216): `GP` and `GM` become exactly the power and the magnitude of `WIN` at the frequency; an
empty window, and one of zeros, gives 0. Nothing else changes. -/
def Obligations.GoertzMeasuresTheWindow : Prop :=
  ∀ (s : State) (freq : BitVec 16), s.dec.fault = none → 0 < s.cfg.sampleRate →
    ∃ (gp : Power) (gm : Magnitude),
      exec (.goertz freq) s = .next (({ s with dec := { s.dec with gp := gp, gm := gm } } : State).report .ok)
        ∧ gp.value = powerReal s.cfg.sampleRate freq.toNat s.dec.win
        ∧ gm.value = magReal s.cfg.sampleRate freq.toNat s.dec.win
        ∧ ((∀ v ∈ s.dec.win, v = 0) → gp.value = 0 ∧ gm.value = 0)

/-- The recurrence form of the power equals the sum form (R213). -/
def Obligations.GoertzelRecurrenceIsThePower : Prop :=
  ∀ (rate f : Nat) (w : List Sample), goertzelPower rate f w = powerReal rate f w

/-- The tone decision is exactly `MAG(w, f) > TONE_THRESHOLD` over the reals, strict (R14, R214, R248). -/
def Obligations.ToneDecisionIsExact : Prop :=
  ∀ (c : Config) (f : Nat) (w : List Sample), 0 < c.sampleRate →
    (toneDetected c f w = true ↔ (c.toneThreshold : ℝ) < magReal c.sampleRate f w)

/-- Each bit of the VIS byte is exactly the comparison of its slot's two powers over the reals, a tie giving 0, and
stands where `VIS_BIT_ORDER` puts it (R14, R246). -/
def Obligations.VisByteIsExact : Prop :=
  ∀ (c : Config) (d : Dec) (j : Nat), 0 < c.sampleRate → j < 8 →
    let spb := sampleCount c c.bitUs
    let w := (d.sb.drop ((c.visSkipSlots + j) * spb)).take spb
    ((visByte c d).getLsbD (match c.visBitOrder with | .msbFirst => 7 - j | .lsbFirst => j) = true
      ↔ powerReal c.sampleRate c.visRxF0 w < powerReal c.sampleRate c.visRxF1 w)

/-- A pixel's value is exactly `CLAMP(round_half_up(255 PH / (PL + PH + EPS)))` over the reals (R14, R253); a window of
zeros gives 0. -/
def Obligations.PixelValueIsExact : Prop :=
  ∀ (c : Config) (w : List Sample), 0 < c.sampleRate → 0 < c.eps →
    ((pix c w).toNat : Int) = clamp (pixReal c w) ∧ ((∀ v ∈ w, v = 0) → pix c w = 0)

/-- `APPEND` (R98, R220): `n` samples of the port, in order, go to the tail of `SB`, then it does what `PASS` does in the
state so reached; the samples are the port's own as far as the host delivered them. From `AwaitingVIS` with too few
samples the pass holds and only the buffer has grown. -/
def Obligations.AppendRunsAPass : Prop :=
  ∀ (s : State) (n : BitVec 32), s.dec.fault = none → s.dec.stopped = false →
    (∀ bound, s.cfg.sbMax = some bound → s.dec.sb.length + n.toNat ≤ bound) →
      let s' : State := { s with
        dec := { s.dec with sb := s.dec.sb ++ portSamples s.host n.toNat }
        host := { s.host with
          port := s.host.port.drop n.toNat
          portCount := s.host.portCount + (n.toNat - s.host.port.length) } }
      (∃ t, exec (.append n) s = .next t ∧ exec .pass s' = .next t)
        ∧ (portSamples s.host n.toNat).length = n.toNat
        ∧ (n.toNat ≤ s.host.port.length → portSamples s.host n.toNat = s.host.port.take n.toNat)
        ∧ (s.dec.state = .awaitingVIS →
            s.dec.sb.length + n.toNat < s.cfg.visSlotsRequired * sampleCount s.cfg s.cfg.bitUs →
              exec (.append n) s = .next (s'.report .ok))

/-- `PEEK` (R224): the window is a copy of the head; too few samples raise `BufferUnderrun` and change nothing. -/
def Obligations.PeekCopiesTheHead : Prop :=
  ∀ (s : State) (n : BitVec 32), s.dec.fault = none →
    (n.toNat ≤ s.dec.sb.length →
      exec (.peek n) s = .next (({ s with dec := { s.dec with win := s.dec.sb.take n.toNat } } : State).report .ok))
    ∧ (s.dec.sb.length < n.toNat → exec (.peek n) s = .next (s.report (.raised .bufferUnderrun)))

/-- `CONSUME` (R226): the head is removed, the window keeps its copy; too few samples raise `BufferUnderrun` and change
nothing. -/
def Obligations.ConsumeRemovesTheHead : Prop :=
  ∀ (s : State) (n : BitVec 32), s.dec.fault = none →
    (n.toNat ≤ s.dec.sb.length →
      exec (.consume n) s = .next (({ s with dec := { s.dec with sb := s.dec.sb.drop n.toNat } } : State).report .ok))
    ∧ (s.dec.sb.length < n.toNat → exec (.consume n) s = .next (s.report (.raised .bufferUnderrun)))

/-- What happens to the decoder's buffers (R66, R77, R222): `SB` loses samples at the head only and gains them by
`APPEND` only, at the tail; the raster's calls are only added to, and only by a VIS match or an emitted row. -/
def Obligations.SamplesAndCallsKeepTheirOrder : Prop :=
  ∀ (i : Instr) (s t : State), exec i s = .next t → i ≠ .dreset →
    (t.dec.sb <:+ s.dec.sb ∨ ∃ n : BitVec 32, i = .append n ∧ t.dec.sb <:+ s.dec.sb ++ portSamples s.host n.toNat)
      ∧ s.host.raster <+: t.host.raster
      ∧ ((unitOf i = .enc ∨ i ∈ [.syncdet, .porchdet, .chdec 0, .chdec 1, .stop]
          ∨ (∃ n, i = .peek n ∨ i = .consume n) ∨ ∃ f, i = .goertz f) → t.host.raster = s.host.raster)

/-! ### The decoder's actions -/

/-- `VISDET` (R246): too few samples raise `BufferUnderrun`; the configured byte matches, with the header consumed, the
raster reset, the row at 0 and the state at `AwaitingSync`; another byte holds with nothing changed. -/
def Obligations.VisdetMatchesOrHolds : Prop :=
  ∀ s : State, s.dec.fault = none →
    let spb := sampleCount s.cfg s.cfg.bitUs
    (s.dec.sb.length < s.cfg.visSlotsRequired * spb →
      exec .visdet s = .next (s.report (.raised .bufferUnderrun)))
    ∧ (s.cfg.visSlotsRequired * spb ≤ s.dec.sb.length → visByte s.cfg s.dec = s.cfg.visCode →
      exec .visdet s = .next (({ s with
        dec := { s.dec with
          sb := s.dec.sb.drop (s.cfg.visConsumeSlots * spb)
          row := 0
          state := .awaitingSync }
        host := { s.host with raster := s.host.raster ++ [.reset s.cfg.width s.cfg.height] } } : State).report .ok))
    ∧ (s.cfg.visSlotsRequired * spb ≤ s.dec.sb.length → visByte s.cfg s.dec ≠ s.cfg.visCode →
      exec .visdet s = .next (s.report (.held .protocolMismatch)))

/-- Silence reads as the VIS byte 0x00 (R351): over a window of zeros `VISDET` matches the code 0x00, in both bit
orders, and holds for every other code. -/
def Obligations.SilenceReadsAsVisZero : Prop :=
  ∀ s : State, ConfigValid s.cfg → s.dec.fault = none →
    s.cfg.visSlotsRequired * sampleCount s.cfg s.cfg.bitUs ≤ s.dec.sb.length →
    (∀ v ∈ s.dec.sb.take (s.cfg.visSlotsRequired * sampleCount s.cfg s.cfg.bitUs), v = 0) →
      visByte s.cfg s.dec = 0
        ∧ (s.cfg.visCode = 0 → ∃ t, exec .visdet s = .next t ∧ t.host.result = some .ok
            ∧ t.dec.state = .awaitingSync
            ∧ t.host.raster = s.host.raster ++ [.reset s.cfg.width s.cfg.height])
        ∧ (s.cfg.visCode ≠ 0 → exec .visdet s = .next (s.report (.held .protocolMismatch)))

/-- `SYNCDET` (R248): confirm and consume at `SYNC_FREQ`, to `AwaitingPorch`. -/
def Obligations.SyncdetConfirmsAndConsumes : Prop :=
  ∀ s : State, s.dec.fault = none →
    let n := sampleCount s.cfg s.cfg.syncUs
    let detected := toneDetected s.cfg s.cfg.syncFreq (s.dec.sb.take n)
    (s.dec.sb.length < n → exec .syncdet s = .next (s.report (.raised .bufferUnderrun)))
    ∧ (n ≤ s.dec.sb.length → detected = true →
      exec .syncdet s = .next (({ s with
        dec := { s.dec with sb := s.dec.sb.drop n, state := .awaitingPorch } } : State).report .ok))
    ∧ (n ≤ s.dec.sb.length → detected = false → exec .syncdet s = .next (s.report (.held .toneAbsent)))

/-- `PORCHDET` (R250): confirm and consume at `PORCH_FREQ`, to `DecodingLine(0)`. -/
def Obligations.PorchdetConfirmsAndConsumes : Prop :=
  ∀ s : State, s.dec.fault = none →
    let n := sampleCount s.cfg s.cfg.porchUs
    let detected := toneDetected s.cfg s.cfg.porchFreq (s.dec.sb.take n)
    (s.dec.sb.length < n → exec .porchdet s = .next (s.report (.raised .bufferUnderrun)))
    ∧ (n ≤ s.dec.sb.length → detected = true →
      exec .porchdet s = .next (({ s with
        dec := { s.dec with sb := s.dec.sb.drop n, state := .decodingLine 0 } } : State).report .ok))
    ∧ (n ≤ s.dec.sb.length → detected = false → exec .porchdet s = .next (s.report (.held .toneAbsent)))

/-- `CHDEC 0` and `CHDEC 1` (R252): with a scan's samples buffered, one value for each of `WIDTH` windows of
`N(SCAN_US) div WIDTH` samples, those windows consumed, the next channel's state; with fewer, `BufferUnderrun` and
nothing changes. -/
def Obligations.ChdecDecodesGreenAndBlue : Prop :=
  ∀ s : State, s.dec.fault = none →
    let n := sampleCount s.cfg s.cfg.scanUs
    let spp := n / s.cfg.width
    let line : List ChannelValue :=
      (List.range s.cfg.width).map fun x => pix s.cfg ((s.dec.sb.drop (x * spp)).take spp)
    (s.dec.sb.length < n →
      exec (.chdec 0) s = .next (s.report (.raised .bufferUnderrun))
        ∧ exec (.chdec 1) s = .next (s.report (.raised .bufferUnderrun)))
    ∧ (n ≤ s.dec.sb.length →
      exec (.chdec 0) s = .next (({ s with
        dec := { s.dec with
          sb := s.dec.sb.drop (s.cfg.width * spp)
          acc := { s.dec.acc with green := line }
          state := .decodingLine 1 } } : State).report .ok)
      ∧ exec (.chdec 1) s = .next (({ s with
        dec := { s.dec with
          sb := s.dec.sb.drop (s.cfg.width * spp)
          acc := { s.dec.acc with blue := line }
          state := .decodingLine 2 } } : State).report .ok))

/-- `CHDEC 2` (R252, R256): Red is decoded like the others and the row is emitted from the three lines, the raster's
calls left to right, the row counted, and the state `AwaitingVIS` after the last row, `AwaitingSync` otherwise. Where its
`ROWOUT` is refused (R256, R33, U7, U8), in whatever state it is issued, that the consumption and the Red line stand while
`STATE`, `ROW` and the raster do not change is the model's reading (notes/assumptions/12.md), not the spec's. -/
def Obligations.ChdecRedEmitsTheRow : Prop :=
  ∀ s : State, s.dec.fault = none →
    let n := sampleCount s.cfg s.cfg.scanUs
    let spp := n / s.cfg.width
    let line : List ChannelValue :=
      (List.range s.cfg.width).map fun x => pix s.cfg ((s.dec.sb.drop (x * spp)).take spp)
    (s.dec.sb.length < n → exec (.chdec 2) s = .next (s.report (.raised .bufferUnderrun)))
    ∧ (n ≤ s.dec.sb.length → s.dec.row < s.cfg.height →
      s.cfg.width ≤ s.dec.acc.green.length → s.cfg.width ≤ s.dec.acc.blue.length →
        exec (.chdec 2) s = .next (({ s with
          dec := { s.dec with
            sb := s.dec.sb.drop (s.cfg.width * spp)
            acc := { s.dec.acc with red := line }
            row := s.dec.row + 1
            state := if s.dec.row + 1 = s.cfg.height then .awaitingVIS else .awaitingSync }
          host := { s.host with
            raster := s.host.raster ++ (List.range s.cfg.width).map fun x =>
              .setPixel x s.dec.row (packRgb (line.getD x 0) (s.dec.acc.green.getD x 0) (s.dec.acc.blue.getD x 0)) } }
          : State).report .ok))
    ∧ (n ≤ s.dec.sb.length → s.cfg.height ≤ s.dec.row →
        exec (.chdec 2) s = .next (({ s with
          dec := { s.dec with
            sb := s.dec.sb.drop (s.cfg.width * spp)
            acc := { s.dec.acc with red := line } } } : State).report (.refused .rowOutOfFrame)))
    ∧ (n ≤ s.dec.sb.length → s.dec.row < s.cfg.height →
      (s.dec.acc.green.length < s.cfg.width ∨ s.dec.acc.blue.length < s.cfg.width) →
        exec (.chdec 2) s = .next (({ s with
          dec := { s.dec with
            sb := s.dec.sb.drop (s.cfg.width * spp)
            acc := { s.dec.acc with red := line } } } : State).report (.refused .accUnwritten)))

/-- `ROWOUT` (R256, R258): one call for each column, left to right, and the next row and state. At the end of the frame
and over an entry without a value R256, R33, U7 and U8 say that it is refused; that a refusal is a next state which records
it and changes nothing is the model's choice (notes/assumptions/6.md). -/
def Obligations.RowoutEmitsTheRow : Prop :=
  ∀ s : State, s.dec.fault = none →
    (s.cfg.height ≤ s.dec.row → exec .rowout s = .next (s.report (.refused .rowOutOfFrame)))
    ∧ (s.dec.row < s.cfg.height →
      (s.dec.acc.green.length < s.cfg.width ∨ s.dec.acc.blue.length < s.cfg.width
        ∨ s.dec.acc.red.length < s.cfg.width) →
        exec .rowout s = .next (s.report (.refused .accUnwritten)))
    ∧ (s.dec.row < s.cfg.height →
      s.cfg.width ≤ s.dec.acc.green.length → s.cfg.width ≤ s.dec.acc.blue.length →
      s.cfg.width ≤ s.dec.acc.red.length →
        exec .rowout s = .next (({ s with
          dec := { s.dec with
            row := s.dec.row + 1
            state := if s.dec.row + 1 = s.cfg.height then .awaitingVIS else .awaitingSync }
          host := { s.host with
            raster := s.host.raster ++ (List.range s.cfg.width).map fun x =>
              .setPixel x s.dec.row
                (packRgb (s.dec.acc.red.getD x 0) (s.dec.acc.green.getD x 0) (s.dec.acc.blue.getD x 0)) } }
          : State).report .ok))

/-- `STEP` (R260) ends normally or as the action does: it is the command of the current state's action. -/
def Obligations.StepRunsTheStatesAction : Prop :=
  ∀ s : State, s.dec.fault = none →
    ∃ t, exec .step s = .next t ∧ exec (actionCommand s.dec.state) s = .next t

/-- The transitions of R244, and no other: every `STEP` is one of the table's rows, with the row's condition, exactly its
change of `DEC`, exactly its raster calls, and nothing else changed; a mismatch, an absent tone or an underrun changes
nothing. Two cases stand outside the table: while `DEC.FAULT` is set `STEP` is refused (R45; that nothing changes is
notes/assumptions/6.md); and where `ROWOUT` refuses inside `CHDEC 2` the consumption and the Red line stand, `STATE`, `ROW`
and the raster do not change (the model's reading, notes/assumptions/12.md). -/
def Obligations.OnlyTheTabledTransitions : Prop :=
  ∀ s t : State, exec .step s = .next t →
    let c := s.cfg
    let d := s.dec
    let slots := c.visSlotsRequired * sampleCount c c.bitUs
    let sync := sampleCount c c.syncUs
    let porch := sampleCount c c.porchUs
    let scan := sampleCount c c.scanUs
    let spp := scan / c.width
    let line : List ChannelValue := (List.range c.width).map fun x => pix c ((d.sb.drop (x * spp)).take spp)
    let rest := d.sb.drop (c.width * spp)
    let ends := fun (d' : Dec) (calls : List RasterCall) (r : CmdResult) =>
      t = ({ s with dec := d', host := { s.host with raster := s.host.raster ++ calls } } : State).report r
    let written := c.width ≤ d.acc.green.length ∧ c.width ≤ d.acc.blue.length
    (d.fault ≠ none ∧ ends d [] (.refused .decFaulted))
    ∨ (d.fault = none ∧
      ((d.state = .awaitingVIS ∧ slots ≤ d.sb.length ∧ visByte c d = c.visCode
          ∧ ends { d with
              sb := d.sb.drop (c.visConsumeSlots * sampleCount c c.bitUs), row := 0, state := .awaitingSync }
            [.reset c.width c.height] .ok)
        ∨ (d.state = .awaitingVIS ∧ slots ≤ d.sb.length ∧ visByte c d ≠ c.visCode
          ∧ ends d [] (.held .protocolMismatch))
        ∨ (d.state = .awaitingVIS ∧ d.sb.length < slots ∧ ends d [] (.raised .bufferUnderrun))
        ∨ (d.state = .awaitingSync ∧ sync ≤ d.sb.length ∧ toneDetected c c.syncFreq (d.sb.take sync) = true
          ∧ ends { d with sb := d.sb.drop sync, state := .awaitingPorch } [] .ok)
        ∨ (d.state = .awaitingSync ∧ sync ≤ d.sb.length ∧ toneDetected c c.syncFreq (d.sb.take sync) = false
          ∧ ends d [] (.held .toneAbsent))
        ∨ (d.state = .awaitingSync ∧ d.sb.length < sync ∧ ends d [] (.raised .bufferUnderrun))
        ∨ (d.state = .awaitingPorch ∧ porch ≤ d.sb.length ∧ toneDetected c c.porchFreq (d.sb.take porch) = true
          ∧ ends { d with sb := d.sb.drop porch, state := .decodingLine 0 } [] .ok)
        ∨ (d.state = .awaitingPorch ∧ porch ≤ d.sb.length ∧ toneDetected c c.porchFreq (d.sb.take porch) = false
          ∧ ends d [] (.held .toneAbsent))
        ∨ (d.state = .awaitingPorch ∧ d.sb.length < porch ∧ ends d [] (.raised .bufferUnderrun))
        ∨ (d.state = .decodingLine 0 ∧ scan ≤ d.sb.length
          ∧ ends { d with sb := rest, acc := { d.acc with green := line }, state := .decodingLine 1 } [] .ok)
        ∨ (d.state = .decodingLine 1 ∧ scan ≤ d.sb.length
          ∧ ends { d with sb := rest, acc := { d.acc with blue := line }, state := .decodingLine 2 } [] .ok)
        ∨ (d.state = .decodingLine 2 ∧ scan ≤ d.sb.length ∧ d.row < c.height ∧ written
          ∧ ∃ st, ((d.row + 1 < c.height ∧ st = .awaitingSync) ∨ (d.row + 1 = c.height ∧ st = .awaitingVIS))
            ∧ ends { d with sb := rest, acc := { d.acc with red := line }, row := d.row + 1, state := st }
              ((List.range c.width).map fun x =>
                .setPixel x d.row (packRgb (line.getD x 0) (d.acc.green.getD x 0) (d.acc.blue.getD x 0))) .ok)
        ∨ (d.state = .decodingLine 2 ∧ scan ≤ d.sb.length ∧ c.height ≤ d.row
          ∧ ends { d with sb := rest, acc := { d.acc with red := line } } [] (.refused .rowOutOfFrame))
        ∨ (d.state = .decodingLine 2 ∧ scan ≤ d.sb.length ∧ d.row < c.height ∧ ¬ written
          ∧ ends { d with sb := rest, acc := { d.acc with red := line } } [] (.refused .accUnwritten))
        ∨ ((∃ k, d.state = .decodingLine k) ∧ d.sb.length < scan ∧ ends d [] (.raised .bufferUnderrun))))

/-- `PASS` (R262, R264): it runs steps until one does not progress, whose result does not surface; where a VIS match
consumes a sample it makes at most `SB.len` progressed steps, and never more than twice that and one; while `STOPPED` it
changes nothing. That a refusal of `ROWOUT` inside `CHDEC 2` too ends the pass unsurfaced, with what that step consumed and
wrote standing, is the model's reading (notes/assumptions/12.md). -/
def Obligations.PassDrainsTheBuffer : Prop :=
  ∀ s : State, ConfigValid s.cfg → s.dec.fault = none →
    (s.dec.stopped = true → exec .pass s = .next (s.report .ok))
    ∧ (s.dec.stopped = false →
      ∃ (n : Nat) (d : Dec) (r : List RasterCall),
        Progresses s.cfg n s.dec s.host.raster d r
          ∧ (stepAction s.cfg d r).result ≠ .ok
          ∧ exec .pass s = .next (({ s with
              dec := (stepAction s.cfg d r).dec
              host := { s.host with raster := (stepAction s.cfg d r).raster } } : State).report .ok)
          ∧ n ≤ 2 * s.dec.sb.length + 1
          ∧ (1 ≤ s.cfg.visConsumeSlots → n ≤ s.dec.sb.length))

/-- `STOP` (R266): it sets `STOPPED` and keeps everything else; after it `PASS` returns at once and `APPEND` is refused,
until `DRESET`. That the samples of a refused `APPEND` leave the port is the model's reading of R220
(notes/assumptions/11.md); that `portCount` advances past those the host had not delivered is the model's choice
(notes/assumptions/10.md); that nothing else changes is its reading of a refusal (notes/assumptions/6.md). -/
def Obligations.StopEndsTheDecodeLoop : Prop :=
  ∀ s : State, s.dec.fault = none →
    let t : State := ({ s with dec := { s.dec with stopped := true } } : State).report .ok
    exec .stop s = .next t
      ∧ exec .pass t = .next (t.report .ok)
      ∧ (∀ n : BitVec 32,
        exec (.append n) t = .next (({ t with
          host := { t.host with
            port := t.host.port.drop n.toNat
            portCount := t.host.portCount + (n.toNat - t.host.port.length) } } : State).report (.refused .stopped)))
      ∧ ∃ u, exec .dreset t = .next u ∧ u.dec.stopped = false

/-- `DRESET` (R268): `DEC` to its reset state from every state, also a faulted or stopped one; the raster is not
touched. -/
def Obligations.DresetRestoresTheDecoder : Prop :=
  ∀ s : State, ∃ (gp : Power) (gm : Magnitude), gp.value = 0 ∧ gm.value = 0
    ∧ exec .dreset s = .next (({ s with
        dec := { state := .awaitingVIS, row := 0, acc := ⟨[], [], []⟩, win := [], gp := gp, gm := gm
                 stopped := false, fault := none, sb := [] } } : State).report .ok)

/-! ### Latches, precision of exceptions, independence of the units -/

/-- The latches (R45) refuse exactly these: while `DEC.FAULT` is set every `DEC` command but `DRESET`, while `ENC.FAULT`
holds `DeviceError` every `ENC` command but `ERESET` and `ENCODE`; no other command in no other state is refused for a
latch, and `DRESET`, `ERESET` and `ENCODE` never end in a refusal. A refusal changes nothing but the outcome
(notes/assumptions/6.md), and for an `APPEND` the port: its samples leave it (notes/assumptions/11.md), and `portCount`
advances past those the host had not delivered (notes/assumptions/10.md). These, and that `STOP` is among the refused,
against R290 (notes/assumptions/7.md), are the model's reading. -/
def Obligations.FaultLatchesRefuse : Prop :=
  (∀ (s : State) (i : Instr), s.dec.fault ≠ none → unitOf i = .dec → i ≠ .dreset → (∀ n, i ≠ .append n) → i.WellFormed →
      exec i s = .next (s.report (.refused .decFaulted)))
    ∧ (∀ (s : State) (n : BitVec 32), s.dec.fault ≠ none →
      exec (.append n) s = .next (({ s with
        host := { s.host with
          port := s.host.port.drop n.toNat
          portCount := s.host.portCount + (n.toNat - s.host.port.length) } } : State).report (.refused .decFaulted)))
    ∧ (∀ (s : State) (i : Instr), s.enc.fault = some .deviceError → unitOf i = .enc → i ≠ .ereset →
      (∀ vis, i ≠ .encode vis) → i.WellFormed → exec i s = .next (s.report (.refused .encFaulted)))
    ∧ (∀ (s t : State) (i : Instr), exec i s = .next t → t.host.result = some (.refused .decFaulted) →
      s.dec.fault ≠ none ∧ unitOf i = .dec ∧ i ≠ .dreset)
    ∧ (∀ (s t : State) (i : Instr), exec i s = .next t → t.host.result = some (.refused .encFaulted) →
      s.enc.fault = some .deviceError ∧ unitOf i = .enc ∧ i ≠ .ereset ∧ ∀ vis, i ≠ .encode vis)
    ∧ ∀ (s : State) (i : Instr), (i = .dreset ∨ i = .ereset ∨ ∃ vis, i = .encode vis) →
      ∃ t, exec i s = .next t ∧ ∀ r, t.host.result ≠ some (.refused r)

/-- Exceptions are precise (R282, R286, R287, R288, R293): a command of `ENC` other than `ENCODE` that raises has written
the latch only; a command of `DEC` that raises or holds has written nothing. -/
def Obligations.ExceptionsArePrecise : Prop :=
  ∀ (i : Instr) (s t : State), exec i s = .next t →
    (∀ x, t.host.result = some (.raised x) → unitOf i = .enc → (∀ vis, i ≠ .encode vis) →
      t = ({ s with enc := { s.enc with fault := some x.exc } } : State).report (.raised x))
    ∧ (∀ x, t.host.result = some (.raised x) → unitOf i = .dec → t = s.report (.raised x))
    ∧ ∀ h, t.host.result = some (.held h) → t = s.report (.held h)

/-- No command of one unit reads or writes the other unit's state, and none writes `CFG` (R10, R20, R91). -/
def Obligations.UnitsDoNotInterfere : Prop :=
  (∀ (i : Instr) (s t : State), exec i s = .next t → unitOf i = .enc →
    t.cfg = s.cfg ∧ t.dec = s.dec ∧ t.host.port = s.host.port ∧ t.host.portCount = s.host.portCount
      ∧ t.host.raster = s.host.raster ∧ t.host.img = s.host.img ∧ t.host.inbox = s.host.inbox)
    ∧ (∀ (i : Instr) (s t : State), exec i s = .next t → unitOf i = .dec →
      t.cfg = s.cfg ∧ t.enc = s.enc ∧ t.host.handed = s.host.handed ∧ t.host.img = s.host.img
        ∧ t.host.inbox = s.host.inbox)
    ∧ (∀ (i : Instr) (s₁ s₂ t₁ t₂ : State), exec i s₁ = .next t₁ → exec i s₂ = .next t₂ → unitOf i = .enc →
      s₁.cfg = s₂.cfg → s₁.enc = s₂.enc → s₁.host.img = s₂.host.img →
        t₁.enc = t₂.enc ∧ t₁.host.result = t₂.host.result)
    ∧ ∀ (i : Instr) (s₁ s₂ t₁ t₂ : State), exec i s₁ = .next t₁ → exec i s₂ = .next t₂ → unitOf i = .dec →
      s₁.cfg = s₂.cfg → s₁.dec = s₂.dec → s₁.host.port = s₂.host.port → s₁.host.portCount = s₂.host.portCount →
      s₁.host.raster = s₂.host.raster →
        t₁.dec = t₂.dec ∧ t₁.host.raster = t₂.host.raster ∧ t₁.host.result = t₂.host.result

/-- A failed detection never clears (R247, R338): whatever `APPEND`, `PASS` and `STOP` commands follow, in any number and
with any samples, the state, the row and the raster stay, the samples at the head stay, and the decoder is still stuck;
with no bound set on `SB` none of them stops the machine. -/
def Obligations.StuckDecoderStaysStuck : Prop :=
  ∀ (s : State) (cs : List Instr), ConfigValid s.cfg → Stuck s.cfg s.dec → (∀ i ∈ cs, LoopCommand i) →
    (∀ t, runCommands cs s = .next t →
      t.dec.state = s.dec.state ∧ t.dec.row = s.dec.row ∧ t.host.raster = s.host.raster
        ∧ s.dec.sb <+: t.dec.sb ∧ Stuck t.cfg t.dec)
      ∧ (s.cfg.sbMax = none → ∃ t, runCommands cs s = .next t)

end
end

