-- ==== Sys2Proof/Laws/Numerics.lean ====
section
/-! SUPPORT. What each enclosure of the numerics holds: `π`, the turn, the sample value, the Fourier sum, the power; what
a refined decision answers; and how near zero a cyclotomic integer can lie. -/

namespace Sys2Proof.Machine
open Real

/-! ### Series -/

/-- Term `j` of the arctangent series of `1 / q`, at the precision `p`. -/
noncomputable def atanTerm (p q j : Nat) : ℝ := (2:ℝ) ^ p * ((-1) ^ j * (q:ℝ)⁻¹ ^ (2 * j + 1) / ((2 * j + 1 : Nat) : ℝ))

theorem nat_div_error (a b : Nat) (hb : 0 < b) : |((a / b : Nat) : ℝ) - (a : ℝ) / b| ≤ 1 := by
  have h1 := Nat.div_add_mod a b
  have h2 := Nat.mod_lt a hb
  have hb' : (0:ℝ) < b := by exact_mod_cast hb
  have e : (a : ℝ) / b - ((a / b : Nat) : ℝ) = ((a % b : Nat) : ℝ) / b := by
    rw [eq_div_iff hb'.ne', sub_mul, div_mul_cancel₀ _ hb'.ne']
    have : (a : ℝ) = b * (a / b : Nat) + (a % b : Nat) := by exact_mod_cast h1.symm
    linarith
  rw [abs_sub_comm, e, abs_of_nonneg (by positivity), div_le_one hb']
  exact_mod_cast h2.le

/-- The partial sum of the series errs by at most 1 a term. -/
theorem atanInv_error (p q : Nat) (hq : 0 < q) (n k : Nat) :
    |(atanInv q n k (2 ^ p / q ^ (2 * k + 1)) : ℝ) - ∑ j ∈ Finset.range n, atanTerm p q (k + j)| ≤ n := by
  induction n generalizing k with
  | zero => simp [atanInv]
  | succ n ih =>
    have hk := ih (k + 1)
    have ha : 2 ^ p / q ^ (2 * k + 1) / (q * q) = 2 ^ p / q ^ (2 * (k + 1) + 1) := by
      rw [Nat.div_div_eq_div_mul]; congr 1; ring
    rw [Finset.sum_range_succ', atanInv, ha]
    have hd : 2 ^ p / q ^ (2 * k + 1) / (2 * k + 1) = 2 ^ p / (q ^ (2 * k + 1) * (2 * k + 1)) :=
      Nat.div_div_eq_div_mul ..
    have he := nat_div_error (2 ^ p) (q ^ (2 * k + 1) * (2 * k + 1)) (by positivity)
    rw [hd]
    have ht : atanTerm p q (k + 0) = (-1) ^ k * (((2 ^ p : Nat) : ℝ) / ((q ^ (2 * k + 1) * (2 * k + 1) : Nat) : ℝ)) := by
      simp only [atanTerm, add_zero]; push_cast; rw [inv_pow]; field_simp
    rw [ht]
    have hsum : ∑ i ∈ Finset.range n, atanTerm p q (k + (i + 1)) = ∑ j ∈ Finset.range n, atanTerm p q (k + 1 + j) :=
      Finset.sum_congr rfl fun i _ => by congr 1; omega
    rw [hsum]
    generalize 2 ^ p / (q ^ (2 * k + 1) * (2 * k + 1)) = t at *
    generalize ((2 ^ p : Nat) : ℝ) / ((q ^ (2 * k + 1) * (2 * k + 1) : Nat) : ℝ) = u at *
    rw [abs_le] at *
    rcases Nat.even_or_odd k with h | h
    · simp only [Nat.even_iff.1 h, if_true, h.neg_one_pow, one_mul]
      push_cast
      constructor <;> linarith [hk.1, hk.2, he.1, he.2]
    · simp only [Nat.odd_iff.1 h, one_ne_zero, if_false, h.neg_one_pow]
      push_cast
      constructor <;> linarith [hk.1, hk.2, he.1, he.2]

/-- The rest of the series is at most 1. -/
theorem atan_tail (p q n : Nat) (hq : 5 ≤ q) (hn : p ≤ 4 * n) :
    |(2:ℝ) ^ p * arctan (q:ℝ)⁻¹ - ∑ j ∈ Finset.range n, atanTerm p q (0 + j)| ≤ 1 := by
  have hq' : (5:ℝ) ≤ q := by exact_mod_cast hq
  have hx0 : (0:ℝ) < (q:ℝ)⁻¹ := by positivity
  have hx : (q:ℝ)⁻¹ ≤ 1 / 5 := by rw [inv_eq_one_div]; exact one_div_le_one_div_of_le (by norm_num) hq'
  have hs := (Real.hasSum_arctan (x := (q:ℝ)⁻¹) (by rw [Real.norm_of_nonneg hx0.le]; linarith)).mul_left ((2:ℝ) ^ p)
  have hs' : HasSum (fun j => atanTerm p q (0 + j)) ((2:ℝ) ^ p * arctan (q:ℝ)⁻¹) := by
    simpa [atanTerm, mul_div_assoc] using hs
  have ht := (hasSum_nat_add_iff' n).2 hs'
  have hpow : (2:ℝ) ^ p ≤ 16 ^ n := by
    calc (2:ℝ) ^ p ≤ 2 ^ (4 * n) := pow_le_pow_right₀ (by norm_num) hn
      _ = 16 ^ n := by rw [pow_mul]; norm_num
  have hg : HasSum (fun i : Nat => (1/5:ℝ) * (1 / 25) ^ i) ((1/5:ℝ) * (1 - 1 / 25)⁻¹) :=
    (hasSum_geometric_of_lt_one (by norm_num) (by norm_num)).mul_left _
  refine le_trans (ht.norm_le_of_bounded hg fun i => ?_) (by norm_num)
  rw [Real.norm_eq_abs]
  simp only [atanTerm, abs_mul, abs_div, abs_pow, abs_neg, abs_one, one_pow, one_mul, Nat.abs_ofNat, Nat.abs_cast]
  have h1 : (1:ℝ) ≤ ((2 * (0 + (i + n)) + 1 : Nat) : ℝ) := by exact_mod_cast (by omega)
  have h2 : |((q:ℝ)⁻¹)| ^ (2 * (0 + (i + n)) + 1) ≤ (1 / 5) ^ (2 * (0 + (i + n)) + 1) := by
    rw [abs_of_pos hx0]; exact pow_le_pow_left₀ hx0.le hx _
  calc (2:ℝ) ^ p * (|((q:ℝ)⁻¹)| ^ (2 * (0 + (i + n)) + 1) / ((2 * (0 + (i + n)) + 1 : Nat) : ℝ))
      ≤ 16 ^ n * ((1 / 5) ^ (2 * (0 + (i + n)) + 1)) := by
        gcongr
        exact (div_le_self (by positivity) h1).trans h2
    _ = 1/5 * (1/25) ^ i * (16 / 25) ^ n := by
        rw [show 2 * (0 + (i + n)) + 1 = 1 + 2 * i + 2 * n by ring, pow_add, pow_add, pow_mul, pow_mul,
          show (16 / 25 : ℝ) = 16 * (1 / 5) ^ 2 by norm_num, show (1 / 25 : ℝ) = (1 / 5) ^ 2 by norm_num, mul_pow]
        ring
    _ ≤ 1/5 * (1/25) ^ i * 1 := by gcongr; exact pow_le_one₀ (by norm_num) (by norm_num)
    _ = _ := by ring

/-- `piMid` and `piRad` enclose `2 ^ p * π`. -/
theorem piMid_error (p : Nat) : |(piMid p : ℝ) - 2 ^ p * π| ≤ piRad p := by
  have hn : p ≤ 4 * piTerms p := by unfold piTerms; omega
  have a5 := atanInv_error p 5 (by norm_num) (piTerms p) 0
  have a239 := atanInv_error p 239 (by norm_num) (piTerms p) 0
  have b5 := atan_tail p 5 (piTerms p) (by norm_num) hn
  have b239 := atan_tail p 239 (piTerms p) (by norm_num) hn
  have hm := four_mul_arctan_inv_5_sub_arctan_inv_239
  have hπ : (2:ℝ) ^ p * π = 4 * (4 * (2 ^ p * arctan (5:ℝ)⁻¹) - 2 ^ p * arctan (239:ℝ)⁻¹) := by
    have : π = 4 * (4 * arctan (5:ℝ)⁻¹ - arctan (239:ℝ)⁻¹) := by linarith
    calc (2:ℝ) ^ p * π = 2 ^ p * (4 * (4 * arctan (5:ℝ)⁻¹ - arctan (239:ℝ)⁻¹)) := by rw [← this]
      _ = _ := by ring
  rw [hπ]
  simp only [piMid, piRad]
  simp only [mul_zero, zero_add, pow_one] at a5 a239 b5 b239
  push_cast at *
  rw [abs_le] at *
  constructor <;> linarith [a5.1, a5.2, b5.1, b5.2, a239.1, a239.2, b239.1, b239.2]


theorem int_ediv_error (a : Int) (b : Nat) (hb : 0 < b) : |((a / (b : Int) : Int) : ℝ) - (a : ℝ) / b| ≤ 1 := by
  have hb' : (0:ℝ) < b := by exact_mod_cast hb
  have hz : (0 : Int) < b := by exact_mod_cast hb
  have h1 := Int.mul_ediv_add_emod a b
  have h2 := Int.emod_nonneg a hz.ne'
  have h3 := Int.emod_lt_of_pos a hz
  have e : (a : ℝ) / b - ((a / (b : Int) : Int) : ℝ) = ((a % (b : Int) : Int) : ℝ) / b := by
    rw [eq_div_iff hb'.ne', sub_mul, div_mul_cancel₀ _ hb'.ne']
    have : (a : ℝ) = b * ((a / (b : Int) : Int) : ℝ) + ((a % (b : Int) : Int) : ℝ) := by exact_mod_cast h1.symm
    linarith
  rw [abs_sub_comm, e, abs_of_nonneg (div_nonneg (by exact_mod_cast h2) hb'.le), div_le_one hb']
  exact_mod_cast h3.le

/-- Term `m` of the exponential series at the precision `p`. -/
noncomputable def expTerm (p : Nat) (x : ℝ) (m : Nat) : ℝ := (2:ℝ) ^ p * (x ^ m / (m.factorial : ℝ))

/-- The partial sum of the exponential series errs by at most 2 a term. -/
theorem expSum_error (p : Nat) (y : Int) (hy : |(y:ℝ)| ≤ 2 ^ p) (n m : Nat) (t : Int)
    (ht : |(t:ℝ) - expTerm p (y / 2 ^ p) m| ≤ if m = 0 then 0 else 2) :
    ‖(((expSum p y n m t).1 : ℂ) + (expSum p y n m t).2 * Complex.I)
      - ∑ j ∈ Finset.range n, (expTerm p (y / 2 ^ p) (m + j) : ℂ) * Complex.I ^ (m + j)‖ ≤ 2 * n := by
  induction n generalizing m t with
  | zero => simp [expSum]
  | succ n ih =>
    have hp : (0:ℝ) < 2 ^ p := by positivity
    have hm : (0:ℝ) < (m:ℝ) + 1 := by positivity
    have step : |((t * y / ((2 ^ p * (m + 1) : Nat) : Int) : Int) : ℝ) - expTerm p (y / 2 ^ p) (m + 1)| ≤ 2 := by
      have h1 := int_ediv_error (t * y) (2 ^ p * (m + 1)) (by positivity)
      have h2 : expTerm p (y / 2 ^ p) (m + 1) = expTerm p (y / 2 ^ p) m * (y / (2 ^ p * (m + 1))) := by
        simp only [expTerm, Nat.factorial_succ, pow_succ (_ / _)]; push_cast; field_simp
      have h3 : |(t:ℝ) * y / (2 ^ p * (m + 1)) - expTerm p (y / 2 ^ p) (m + 1)| ≤ 1 := by
        rw [h2, mul_div_assoc, ← sub_mul, abs_mul]
        have h4 : |(y:ℝ) / (2 ^ p * (m + 1))| ≤ 1 / (m + 1) := by
          rw [abs_div, abs_of_pos (by positivity : (0:ℝ) < 2 ^ p * (m + 1)), div_le_div_iff₀ (by positivity) hm, one_mul]
          exact mul_le_mul_of_nonneg_right hy hm.le
        rcases Nat.eq_zero_or_pos m with rfl | h0
        · rw [if_pos rfl] at ht
          rw [le_antisymm ht (abs_nonneg _)]; simp
        · rw [if_neg (by omega)] at ht
          have h0' : (1:ℝ) ≤ m := by exact_mod_cast h0
          calc _ ≤ 2 * (1 / ((m:ℝ) + 1)) := mul_le_mul ht h4 (abs_nonneg _) (by norm_num)
            _ ≤ 1 := by rw [mul_one_div, div_le_one hm]; linarith
      push_cast at h1
      calc _ ≤ _ := abs_sub_le _ ((t:ℝ) * y / (2 ^ p * (m + 1))) _
        _ ≤ 2 := by push_cast; linarith
    have hr := ih (m + 1) (t * y / ((2 ^ p * (m + 1) : Nat) : Int)) (by rw [if_neg (Nat.succ_ne_zero m)]; exact step)
    have ht2 : |(t:ℝ) - expTerm p (y / 2 ^ p) m| ≤ 2 := by
      refine ht.trans ?_; split <;> norm_num
    rw [Finset.sum_range_succ']
    have hsum : ∑ i ∈ Finset.range n, (expTerm p (y / 2 ^ p) (m + (i + 1)) : ℂ) * Complex.I ^ (m + (i + 1))
        = ∑ j ∈ Finset.range n, (expTerm p (y / 2 ^ p) (m + 1 + j) : ℂ) * Complex.I ^ (m + 1 + j) :=
      Finset.sum_congr rfl fun i _ => by rw [show m + (i + 1) = m + 1 + i by omega]
    rw [hsum]
    set r := expSum p y n (m + 1) (t * y / ((2 ^ p * (m + 1) : Nat) : Int)) with hrdef
    have hshape : (((expSum p y (n + 1) m t).1 : ℂ) + (expSum p y (n + 1) m t).2 * Complex.I)
        = (r.1 + r.2 * Complex.I) + t * Complex.I ^ m := by
      have hI : Complex.I ^ m = Complex.I ^ (m % 4) := by
        conv_lhs => rw [← Nat.div_add_mod m 4, pow_add, pow_mul, Complex.I_pow_four, one_pow, one_mul]
      rw [hI]
      simp only [expSum, ← hrdef]
      have : m % 4 < 4 := Nat.mod_lt _ (by norm_num)
      generalize m % 4 = k at *
      interval_cases k
      · simp; ring
      · simp; ring
      · simp [Complex.I_sq]; ring
      · simp [Complex.I_pow_three]; ring
    rw [hshape, add_zero]
    have : (r.1 + r.2 * Complex.I) + t * Complex.I ^ m
        - (∑ j ∈ Finset.range n, (expTerm p (y / 2 ^ p) (m + 1 + j) : ℂ) * Complex.I ^ (m + 1 + j)
            + (expTerm p (y / 2 ^ p) m : ℂ) * Complex.I ^ m)
        = ((r.1 + r.2 * Complex.I)
            - ∑ j ∈ Finset.range n, (expTerm p (y / 2 ^ p) (m + 1 + j) : ℂ) * Complex.I ^ (m + 1 + j))
          + (((t:ℝ) - expTerm p (y / 2 ^ p) m : ℝ) : ℂ) * Complex.I ^ m := by push_cast; ring
    rw [this]
    refine (norm_add_le _ _).trans ?_
    rw [norm_mul, norm_pow, Complex.norm_I, one_pow, mul_one, Complex.norm_real, Real.norm_eq_abs]
    push_cast
    linarith

/-- Enough terms are taken. -/
theorem factorial_bound (p : Nat) : 2 ^ p ≤ (expTerms p).factorial := by
  have h : ∀ k, 4 * 8 ^ k ≤ (k + 8).factorial := by
    intro k
    induction k with
    | zero => decide
    | succ k ih =>
      rw [show k + 1 + 8 = (k + 8) + 1 by omega, Nat.factorial_succ, pow_succ]
      nlinarith [Nat.factorial_pos (k + 8)]
  unfold expTerms
  refine le_trans ?_ (h (p / 3))
  calc 2 ^ p ≤ 2 ^ (2 + 3 * (p / 3)) := Nat.pow_le_pow_right (by norm_num) (by omega)
    _ = 4 * 8 ^ (p / 3) := by rw [pow_add, pow_mul]; norm_num

/-- The enclosure of the exponential at a dyadic angle. -/
theorem expSum_exp (p : Nat) (y : Int) (hy : |(y:ℝ)| ≤ 2 ^ p) :
    ‖(((expSum p y (expTerms p) 0 (2 ^ p)).1 : ℂ) + (expSum p y (expTerms p) 0 (2 ^ p)).2 * Complex.I)
      - 2 ^ p * Complex.exp (((y / 2 ^ p : ℝ) : ℂ) * Complex.I)‖ ≤ 2 * expTerms p + 2 := by
  have hp : (0:ℝ) < 2 ^ p := by positivity
  have h1 := expSum_error p y hy (expTerms p) 0 (2 ^ p) (by simp [expTerm])
  have hx : ‖((y / 2 ^ p : ℝ) : ℂ) * Complex.I‖ ≤ 1 := by
    rw [norm_mul, Complex.norm_I, mul_one, Complex.norm_real, Real.norm_eq_abs, abs_div, abs_of_pos hp, div_le_one hp]
    exact hy
  have hn : 0 < expTerms p := by unfold expTerms; omega
  have h2 := Complex.exp_bound hx hn
  have hs : ∑ j ∈ Finset.range (expTerms p), (expTerm p (y / 2 ^ p) (0 + j) : ℂ) * Complex.I ^ (0 + j)
      = 2 ^ p * ∑ m ∈ Finset.range (expTerms p), (((y / 2 ^ p : ℝ) : ℂ) * Complex.I) ^ m / (m.factorial : ℂ) := by
    rw [Finset.mul_sum]
    refine Finset.sum_congr rfl fun j _ => ?_
    simp only [zero_add, expTerm, mul_pow]
    push_cast; ring
  rw [hs] at h1
  have h3 : ‖(2:ℂ) ^ p * ∑ m ∈ Finset.range (expTerms p), (((y / 2 ^ p : ℝ) : ℂ) * Complex.I) ^ m / (m.factorial : ℂ)
      - 2 ^ p * Complex.exp (((y / 2 ^ p : ℝ) : ℂ) * Complex.I)‖ ≤ 2 := by
    rw [← mul_sub, norm_mul, norm_pow, Complex.norm_ofNat, norm_sub_rev]
    have hf : (2:ℝ) ^ p ≤ (expTerms p).factorial := by exact_mod_cast factorial_bound p
    have hn' : (1:ℝ) ≤ expTerms p := by exact_mod_cast hn
    have hf0 : (0:ℝ) < (expTerms p).factorial := by positivity
    calc _ ≤ (2:ℝ) ^ p * (‖((y / 2 ^ p : ℝ) : ℂ) * Complex.I‖ ^ expTerms p
          * (((expTerms p).succ : ℝ) * (((expTerms p).factorial : ℝ) * (expTerms p : ℝ))⁻¹)) :=
          mul_le_mul_of_nonneg_left h2 hp.le
      _ ≤ (expTerms p).factorial * (1 * (((expTerms p).succ : ℝ) * (((expTerms p).factorial : ℝ) * (expTerms p : ℝ))⁻¹)) := by
          gcongr
          exact pow_le_one₀ (norm_nonneg _) hx
      _ = ((expTerms p : ℝ) + 1) / expTerms p := by push_cast; field_simp
      _ ≤ 2 := by rw [div_le_iff₀ (by linarith)]; linarith
  calc _ ≤ _ := norm_sub_le_norm_sub_add_norm_sub _ _ _
    _ ≤ _ := add_le_add h1 h3


/-- The number of absolute value 1 at `t` turns. -/
noncomputable def turn (t : ℝ) : ℂ := Complex.exp (((2 * π * t : ℝ) : ℂ) * Complex.I)

theorem norm_turn (t : ℝ) : ‖turn t‖ = 1 := Complex.norm_exp_ofReal_mul_I _

theorem turn_re (t : ℝ) : (turn t).re = cos (2 * π * t) := Complex.exp_ofReal_mul_I_re _

theorem turn_im (t : ℝ) : (turn t).im = sin (2 * π * t) := Complex.exp_ofReal_mul_I_im _

theorem turn_zero : turn 0 = 1 := by simp [turn]

theorem turn_add (s t : ℝ) : turn (s + t) = turn s * turn t := by
  rw [turn, turn, turn, ← Complex.exp_add]; congr 1; push_cast; ring

/-- The middle of a ball as a complex number. -/
def Ball.mid (b : Ball) : ℂ := (b.re : ℂ) + (b.im : ℂ) * Complex.I

/-- What a complex ball says of a number (its docstring). -/
def Ball.Encloses (b : Ball) (p : Nat) (z : ℂ) : Prop := ‖(2:ℂ) ^ p * z - b.mid‖ ≤ b.rad

theorem norm_exp_sub_le (a b : ℝ) :
    ‖Complex.exp ((a : ℂ) * Complex.I) - Complex.exp ((b : ℂ) * Complex.I)‖ ≤ |a - b| := by
  have : Complex.exp ((a : ℂ) * Complex.I) - Complex.exp ((b : ℂ) * Complex.I)
      = Complex.exp ((b : ℂ) * Complex.I) * (Complex.exp (Complex.I * ((a - b : ℝ) : ℂ)) - 1) := by
    rw [mul_sub, ← Complex.exp_add, mul_one]; congr 2; push_cast; ring
  rw [this, norm_mul, Complex.norm_exp_ofReal_mul_I, one_mul]
  simpa using Real.norm_exp_I_mul_ofReal_sub_one_le (x := a - b)

theorem piRad_small (p : Nat) (hp : 64 ≤ p) : (piRad p : ℝ) / 4 + 1 ≤ 2 ^ p / 8 := by
  have h : ∀ k, 20 * ((k + 64) / 4 + 3) * 2 + 8 ≤ 2 ^ (k + 64) := by
    intro k
    induction k with
    | zero => norm_num
    | succ k ih =>
      have : (k + 1 + 64) / 4 ≤ (k + 64) / 4 + 1 := by omega
      have : 2 ^ (k + 1 + 64) = 2 * 2 ^ (k + 64) := by rw [show k + 1 + 64 = (k + 64) + 1 by omega, pow_succ, mul_comm]
      omega
  have h1 := h (p - 64)
  rw [Nat.sub_add_cancel hp] at h1
  have h2 : piRad p * 2 + 8 ≤ 2 ^ p := by unfold piRad piTerms; omega
  have h3 : (piRad p : ℝ) * 2 + 8 ≤ 2 ^ p := by exact_mod_cast h2
  linarith

/-- `cisSmall` encloses the turn of a small angle. -/
theorem cisSmall_encloses (p : Nat) (hp : 64 ≤ p) (u : Rat) (hu : |u| ≤ 1 / 8) :
    (cisSmall p u).Encloses p (turn u) := by
  unfold cisSmall
  split
  · next h => subst h; simp [Ball.Encloses, Ball.mid, turn_zero]
  · have hP : (0:ℝ) < 2 ^ p := by positivity
    have hpi := piMid_error p
    have hu' : |(u:ℝ)| ≤ 1 / 8 := by simpa using (Rat.cast_le (K := ℝ)).2 hu
    have hsmall := piRad_small p hp
    set y : Int := 2 * piMid p * u.num / (u.den : Int) with hy
    have h1 : |(y:ℝ) - 2 * piMid p * u| ≤ 1 := by
      have h := int_ediv_error (2 * piMid p * u.num) u.den u.pos
      rw [← hy] at h
      have : ((2 * piMid p * u.num : Int) : ℝ) / (u.den : ℝ) = 2 * piMid p * (u : ℝ) := by
        conv_rhs => rw [Rat.cast_def u]
        push_cast; ring
      rwa [this] at h
    have h2 : |2 * (piMid p : ℝ) * u - 2 ^ p * (2 * π * u)| ≤ piRad p / 4 := by
      rw [show 2 * (piMid p : ℝ) * u - 2 ^ p * (2 * π * u) = ((piMid p : ℝ) - 2 ^ p * π) * (2 * u) by ring, abs_mul, abs_mul]
      rw [Nat.abs_ofNat]
      calc _ ≤ (piRad p : ℝ) * (2 * (1 / 8)) :=
            mul_le_mul hpi (by linarith) (by positivity) (Nat.cast_nonneg _)
        _ = _ := by ring
    have h3 : |(y:ℝ) - 2 ^ p * (2 * π * u)| ≤ piRad p / 4 + 1 := by
      calc _ ≤ _ := abs_sub_le _ (2 * (piMid p : ℝ) * u) _
        _ ≤ _ := by linarith
    have h4 : |(y:ℝ)| ≤ 2 ^ p := by
      have h5 : |(2:ℝ) ^ p * (2 * π * u)| ≤ 2 ^ p * (7 / 8) := by
        rw [abs_mul, abs_of_pos hP, abs_mul, abs_of_pos (by positivity : (0:ℝ) < 2 * π)]
        have : 2 * π * |(u:ℝ)| ≤ 2 * 3.15 * (1 / 8) :=
          mul_le_mul (by linarith [pi_lt_d2]) hu' (abs_nonneg _) (by norm_num)
        exact mul_le_mul_of_nonneg_left (this.trans (by norm_num)) hP.le
      have := abs_le.1 h3; have := abs_le.1 h5
      rw [abs_le]; constructor <;> linarith
    have h6 := expSum_exp p y h4
    have h7 : ‖(2:ℂ) ^ p * turn u - 2 ^ p * Complex.exp (((y / 2 ^ p : ℝ) : ℂ) * Complex.I)‖ ≤ piRad p / 4 + 1 := by
      rw [← mul_sub, norm_mul, norm_pow, Complex.norm_ofNat, turn]
      calc _ ≤ (2:ℝ) ^ p * |2 * π * u - y / 2 ^ p| := mul_le_mul_of_nonneg_left (norm_exp_sub_le _ _) hP.le
        _ = |(y:ℝ) - 2 ^ p * (2 * π * u)| := by
          rw [← abs_of_pos hP, ← abs_mul, abs_of_pos hP, ← abs_neg]; congr 1; field_simp; ring
        _ ≤ _ := h3
    have hr : (40:ℝ) ≤ piRad p := by
      have : 40 ≤ piRad p := by unfold piRad piTerms; omega
      exact_mod_cast this
    unfold Ball.Encloses Ball.mid
    calc _ ≤ _ := norm_sub_le_norm_sub_add_norm_sub _ (2 ^ p * Complex.exp (((y / 2 ^ p : ℝ) : ℂ) * Complex.I)) _
      _ ≤ (piRad p / 4 + 1) + (2 * expTerms p + 2) := by
          refine add_le_add h7 ?_
          rw [norm_sub_rev]; exact h6
      _ ≤ _ := by push_cast; linarith

/-- A quarter turn is a power of `i`. -/
theorem turn_quarter (q : Int) : turn ((q : ℝ) / 4) = Complex.I ^ (q % 4).toNat := by
  have h1 : turn (((q / 4 : Int) : ℝ)) = 1 := by
    rw [turn, Complex.exp_eq_one_iff]
    exact ⟨q / 4, by push_cast; ring⟩
  have h2 : ((q : ℝ) / 4) = ((q / 4 : Int) : ℝ) + ((q % 4 : Int) : ℝ) / 4 := by
    have := Int.mul_ediv_add_emod q 4
    have : (q : ℝ) = 4 * ((q / 4 : Int) : ℝ) + ((q % 4 : Int) : ℝ) := by exact_mod_cast this.symm
    linarith
  rw [h2, turn_add, h1, one_mul]
  have h3 := Int.emod_nonneg q (by norm_num : (4 : Int) ≠ 0)
  have h4 : turn (1 / 4) = Complex.I := by
    apply Complex.ext
    · rw [turn_re, show 2 * π * (1 / 4) = π / 2 by ring]; simp
    · rw [turn_im, show 2 * π * (1 / 4) = π / 2 by ring]; simp
  have h5 : ∀ k : Nat, turn ((k : ℝ) / 4) = Complex.I ^ k := by
    intro k
    induction k with
    | zero => simp [turn_zero]
    | succ k ih => rw [pow_succ, ← ih, ← h4, ← turn_add]; congr 1; push_cast; ring
  rw [← h5]; congr 2
  exact_mod_cast (Int.toNat_of_nonneg h3).symm

/-- A ball turned by quarters encloses the number so turned. -/
theorem Ball.quarterTurns_encloses {b : Ball} {p : Nat} {z : ℂ} (h : b.Encloses p z) (q : Int) :
    (b.quarterTurns q).Encloses p (z * turn ((q : ℝ) / 4)) := by
  have key : (b.quarterTurns q).mid = b.mid * turn ((q : ℝ) / 4) ∧ (b.quarterTurns q).rad = b.rad := by
    rw [turn_quarter]
    have h3 := Int.emod_nonneg q (by norm_num : (4 : Int) ≠ 0)
    have h4 := Int.emod_lt_of_pos q (by norm_num : (0 : Int) < 4)
    unfold Ball.quarterTurns Ball.mid
    generalize q % 4 = k at *
    interval_cases k
    · simp
    · refine ⟨?_, rfl⟩
      simp; linear_combination (-(b.im : ℂ)) * Complex.I_sq
    · refine ⟨?_, rfl⟩
      simp [Complex.I_sq]; ring
    · refine ⟨?_, rfl⟩
      simp [Complex.I_pow_three]; linear_combination ((b.im : ℂ)) * Complex.I_sq
  unfold Ball.Encloses
  rw [key.1, key.2, ← mul_assoc, ← sub_mul, norm_mul, norm_turn, mul_one]
  exact h

/-- `cis` encloses the number of absolute value 1 at its angle. -/
theorem cis_encloses (p : Nat) (hp : 64 ≤ p) (t : Rat) : (cis p t).Encloses p (turn t) := by
  unfold cis
  set q := (4 * t + 1 / 2).floor with hq
  have h1 : (q : ℚ) ≤ 4 * t + 1 / 2 := Int.floor_le (4 * t + 1 / 2)
  have h2 : 4 * t + 1 / 2 < (q : ℚ) + 1 := Int.lt_floor_add_one (4 * t + 1 / 2)
  have h3 : |t - (q : ℚ) / 4| ≤ 1 / 8 := by rw [abs_le]; constructor <;> linarith
  have h := Ball.quarterTurns_encloses (cisSmall_encloses p hp _ h3) q
  rwa [← turn_add, show (((t - (q : ℚ) / 4 : ℚ) : ℝ)) + (q : ℝ) / 4 = (t : ℝ) by push_cast; ring] at h


/-! ### The operations on enclosures -/

/-- What a real ball says of a number: it lies within the radius of the middle. -/
def RealBall.Encloses (b : RealBall) (x : ℝ) : Prop := |x - b.mid| ≤ b.rad

theorem RealBall.Encloses.lo_le {b : RealBall} {x : ℝ} (h : b.Encloses x) : (b.lo : ℝ) ≤ x := by
  have := (abs_le.1 h).1; simp only [RealBall.lo]; push_cast; linarith

theorem RealBall.Encloses.le_hi {b : RealBall} {x : ℝ} (h : b.Encloses x) : x ≤ b.hi := by
  have := (abs_le.1 h).2; simp only [RealBall.hi]; push_cast; linarith

theorem Ball.Encloses.re {b : Ball} {p : Nat} {z : ℂ} (h : b.Encloses p z) : |2 ^ p * z.re - b.re| ≤ b.rad := by
  refine le_trans ?_ (le_trans (Complex.abs_re_le_norm _) h)
  have : ((2:ℂ) ^ p * z).re = 2 ^ p * z.re := by
    rw [show ((2:ℂ) ^ p) = (((2:ℝ) ^ p : ℝ) : ℂ) by push_cast; rfl, Complex.re_ofReal_mul]
  simp [Ball.mid, this]

theorem Ball.Encloses.im {b : Ball} {p : Nat} {z : ℂ} (h : b.Encloses p z) : |2 ^ p * z.im - b.im| ≤ b.rad := by
  refine le_trans ?_ (le_trans (Complex.abs_im_le_norm _) h)
  have : ((2:ℂ) ^ p * z).im = 2 ^ p * z.im := by
    rw [show ((2:ℂ) ^ p) = (((2:ℝ) ^ p : ℝ) : ℂ) by push_cast; rfl, Complex.im_ofReal_mul]
  simp [Ball.mid, this]

theorem Ball.norm_mid_le (b : Ball) : ‖b.mid‖ ≤ ((b.re.natAbs + b.im.natAbs : Nat) : ℝ) := by
  have h1 := norm_add_le (b.re : ℂ) ((b.im : ℂ) * Complex.I)
  rw [norm_mul, Complex.norm_I, mul_one, Complex.norm_intCast, Complex.norm_intCast] at h1
  push_cast [Nat.cast_natAbs]
  exact h1

theorem cast_mkRat (a b : Nat) : ((mkRat a b : Rat) : ℝ) = (a : ℝ) / b := by
  rw [Rat.mkRat_eq_div]; push_cast; rfl

/-- The envelope's enclosure holds the exact value (R142). -/
theorem envBall_encloses (p : Nat) (hp : 64 ≤ p) (env : Option (Nat × Nat)) (h : ∀ j tn, env = some (j, tn) → 0 < tn) :
    (envBall p env).Encloses (2 ^ (p + 1) * envReal env) := by
  match env with
  | none => simp [RealBall.Encloses, envBall, envReal]
  | some (j, tn) =>
    have ht := h j tn rfl
    have hc := (cis_encloses p hp (mkRat j (2 * tn))).re
    have ht' : (0:ℝ) < tn := by exact_mod_cast ht
    rw [cast_mkRat, turn_re,
      show 2 * π * ((j:ℝ) / ((2 * tn : Nat) : ℝ)) = π * j / tn by push_cast; field_simp] at hc
    simp only [RealBall.Encloses, envBall, envReal]
    rw [abs_sub_comm] at hc
    refine le_trans (le_of_eq ?_) hc
    congr 1; push_cast; ring

/-- The sample's enclosure holds the exact value (R140). -/
theorem sampleBall_encloses (amp : Nat) (env : Option (Nat × Nat)) (t : Rat) (p : Nat) (hp : 64 ≤ p)
    (h : ∀ j tn, env = some (j, tn) → 0 < tn) :
    (sampleBall amp env t p).Encloses (2 ^ (2 * p + 1) * sampleReal amp env t) := by
  have he := envBall_encloses p hp env h
  have hs := (cis_encloses p hp t).im
  rw [turn_im] at hs
  unfold RealBall.Encloses at *
  simp only [sampleBall, sampleReal, radians]
  generalize envBall p env = e at *
  generalize cis p t = s at *
  generalize hE : (2:ℝ) ^ (p + 1) * envReal env = E at *
  generalize hS : (2:ℝ) ^ p * sin (2 * π * t) = S at *
  have : (2:ℝ) ^ (2 * p + 1) * ((amp:ℝ) * envReal env * sin (2 * π * t)) = amp * (E * S) := by
    rw [← hE, ← hS]; ring
  rw [this]
  push_cast
  rw [← mul_sub, abs_mul, Nat.abs_cast]
  refine mul_le_mul_of_nonneg_left ?_ (Nat.cast_nonneg _)
  have key : E * S - e.mid * s.im = (e.mid : ℝ) * (S - s.im) + (E - e.mid) * s.im + (E - e.mid) * (S - s.im) := by ring
  rw [key]
  refine (abs_add_three _ _ _).trans ?_
  rw [abs_mul, abs_mul, abs_mul]
  push_cast [Nat.cast_natAbs]
  have h1 := mul_le_mul_of_nonneg_left hs (abs_nonneg (e.mid : ℝ))
  have h2 := mul_le_mul_of_nonneg_right he (abs_nonneg (s.im : ℝ))
  have h3 := mul_le_mul he hs (abs_nonneg _) (Nat.cast_nonneg _)
  linarith

/-- The Fourier sum of a window, from its integer samples, by Horner's rule. -/
noncomputable def dftValue (rate f : Nat) (w : List Sample) : ℂ :=
  w.foldr (fun x a => (x.toInt : ℂ) + turn ((f : ℝ) / rate) * a) 0

/-- A step of Horner's rule keeps the enclosure. -/
theorem Ball.mulAdd_encloses {p : Nat} {c a : Ball} {u z : ℂ} (hc : c.Encloses p u) (ha : a.Encloses p z) (hu : ‖u‖ = 1)
    (x : Int) : (Ball.mulAdd p c x a).Encloses p ((x : ℂ) + u * z) := by
  unfold Ball.mulAdd
  split
  · next h =>
    have hz : z = 0 := by
      have : ‖(2:ℂ) ^ p * z‖ ≤ 0 := by simpa [Ball.Encloses, Ball.mid, h.1, h.2.1, h.2.2] using ha
      have h2 := norm_le_zero_iff.1 this
      exact (mul_eq_zero.1 h2).resolve_left (pow_ne_zero _ two_ne_zero)
    simp [Ball.Encloses, Ball.mid, hz, mul_comm]
  · have hP : (0:ℝ) < 2 ^ p := by positivity
    have hPc : (2:ℂ) ^ p ≠ 0 := pow_ne_zero _ two_ne_zero
    have e1 := int_ediv_error (c.re * a.re - c.im * a.im) (2 ^ p) (by positivity)
    have e2 := int_ediv_error (c.re * a.im + c.im * a.re) (2 ^ p) (by positivity)
    have e3 := nat_div_error (c.rad * (a.re.natAbs + a.im.natAbs)) (2 ^ p) (by positivity)
    have hm := a.norm_mid_le
    unfold Ball.Encloses at *
    have k1 : ‖(2:ℂ) ^ p * (u * z) - c.mid * a.mid / 2 ^ p‖
        ≤ a.rad + c.rad * ((a.re.natAbs + a.im.natAbs : Nat) : ℝ) / 2 ^ p := by
      have : (2:ℂ) ^ p * (u * z) - c.mid * a.mid / 2 ^ p
          = u * (2 ^ p * z - a.mid) + (2 ^ p * u - c.mid) * a.mid / 2 ^ p := by field_simp; ring
      rw [this]
      refine (norm_add_le _ _).trans ?_
      rw [norm_mul, hu, one_mul, norm_div, norm_mul, norm_pow, Complex.norm_ofNat]
      gcongr
    have k2 : ‖c.mid * a.mid / 2 ^ p
        - (⟨(c.re * a.re - c.im * a.im) / ((2 ^ p : Nat) : Int), (c.re * a.im + c.im * a.re) / ((2 ^ p : Nat) : Int), 0⟩ : Ball).mid‖
          ≤ 2 := by
      have : c.mid * a.mid / 2 ^ p
          - (⟨(c.re * a.re - c.im * a.im) / ((2 ^ p : Nat) : Int), (c.re * a.im + c.im * a.re) / ((2 ^ p : Nat) : Int), 0⟩ : Ball).mid
          = ((((c.re * a.re - c.im * a.im : Int) : ℝ) / ((2 ^ p : Nat) : ℝ)
              - (((c.re * a.re - c.im * a.im) / ((2 ^ p : Nat) : Int) : Int) : ℝ) : ℝ) : ℂ)
            + ((((c.re * a.im + c.im * a.re : Int) : ℝ) / ((2 ^ p : Nat) : ℝ)
              - (((c.re * a.im + c.im * a.re) / ((2 ^ p : Nat) : Int) : Int) : ℝ) : ℝ) : ℂ) * Complex.I := by
        simp only [Ball.mid]
        generalize (c.re * a.re - c.im * a.im) / ((2 ^ p : Nat) : Int) = A
        generalize (c.re * a.im + c.im * a.re) / ((2 ^ p : Nat) : Int) = B
        push_cast
        field_simp
        linear_combination ((c.im : ℂ) * a.im) * Complex.I_sq
      rw [this]
      refine (norm_add_le _ _).trans ?_
      rw [norm_mul, Complex.norm_I, mul_one, Complex.norm_real, Complex.norm_real, Real.norm_eq_abs, Real.norm_eq_abs,
        abs_sub_comm, abs_sub_comm (((c.re * a.im + c.im * a.re : Int) : ℝ) / _)]
      linarith
    have k3 := (abs_le.1 e3).1
    have hsplit : (2:ℂ) ^ p * ((x : ℂ) + u * z)
        - (⟨x * 2 ^ p + (c.re * a.re - c.im * a.im) / 2 ^ p, (c.re * a.im + c.im * a.re) / 2 ^ p,
            a.rad + c.rad * (a.re.natAbs + a.im.natAbs) / 2 ^ p + 3⟩ : Ball).mid
        = ((2:ℂ) ^ p * (u * z) - c.mid * a.mid / 2 ^ p) + (c.mid * a.mid / 2 ^ p
          - (⟨(c.re * a.re - c.im * a.im) / ((2 ^ p : Nat) : Int), (c.re * a.im + c.im * a.re) / ((2 ^ p : Nat) : Int), 0⟩
              : Ball).mid) := by
      rw [show ((2 ^ p : Nat) : Int) = 2 ^ p by push_cast; rfl]
      simp only [Ball.mid]
      generalize (c.re * a.re - c.im * a.im) / (2 ^ p : Int) = A
      generalize (c.re * a.im + c.im * a.re) / (2 ^ p : Int) = B
      push_cast; ring
    rw [hsplit]
    refine (norm_add_le _ _).trans ?_
    push_cast at *
    linarith

/-- The Fourier sum's enclosure holds the exact value (R212). -/
theorem dftBall_encloses (rate f : Nat) (w : List Sample) (p : Nat) (hp : 64 ≤ p) :
    (dftBall rate f w p).Encloses p (dftValue rate f w) := by
  have hc := cis_encloses p hp (mkRat f rate)
  rw [cast_mkRat] at hc
  simp only [dftBall, dftValue]
  induction w with
  | nil => simp [Ball.Encloses, Ball.mid]
  | cons x w ih => exact Ball.mulAdd_encloses hc ih (norm_turn _) _

/-- The squared modulus of an enclosed number is enclosed. -/
theorem Ball.normSq_encloses {b : Ball} {p : Nat} {z : ℂ} (h : b.Encloses p z) :
    b.normSq.Encloses (2 ^ (2 * p) * ‖z‖ ^ 2) := by
  have hm := b.norm_mid_le
  have h0 : (2:ℝ) ^ (2 * p) * ‖z‖ ^ 2 = ‖(2:ℂ) ^ p * z‖ ^ 2 := by
    rw [norm_mul, norm_pow, Complex.norm_ofNat]; ring
  have h1 : ‖b.mid‖ ^ 2 = ((b.re * b.re + b.im * b.im : Int) : ℝ) := by
    rw [← Complex.normSq_eq_norm_sq, Complex.normSq_apply]; simp [Ball.mid]
  have h2 : |‖(2:ℂ) ^ p * z‖ - ‖b.mid‖| ≤ b.rad := (abs_norm_sub_norm_le _ _).trans h
  unfold RealBall.Encloses
  rw [h0]
  simp only [Ball.normSq]
  rw [← h1]
  generalize ‖(2:ℂ) ^ p * z‖ = Z at *
  have hn := norm_nonneg b.mid
  generalize ‖b.mid‖ = M at *
  have hsq : Z ^ 2 - M ^ 2 = 2 * M * (Z - M) + (Z - M) * (Z - M) := by ring
  rw [hsq]
  refine (abs_add_le _ _).trans ?_
  rw [abs_mul, abs_mul (Z - M), abs_of_nonneg (mul_nonneg zero_le_two hn)]
  have h3 : 2 * M * |Z - M| ≤ 2 * ((b.re.natAbs + b.im.natAbs : Nat) : ℝ) * b.rad :=
    mul_le_mul (by linarith) h2 (abs_nonneg _) (by positivity)
  have h4 := mul_le_mul h2 h2 (abs_nonneg _) (Nat.cast_nonneg _)
  push_cast at *
  linarith

/-- The sum form of the power, from the Fourier sum (R212). -/
theorem powerReal_eq (rate f : Nat) (w : List Sample) : powerReal rate f w = ‖dftValue rate f w‖ ^ 2 / 2 ^ 30 := by
  have key : ∀ (w : List Sample) (m : Nat), turn ((f : ℝ) / rate * m) * dftValue rate f w
      = ((32768 * windowSum (fun m => cos (2 * π * f / rate * m)) m w : ℝ) : ℂ)
        + ((32768 * windowSum (fun m => sin (2 * π * f / rate * m)) m w : ℝ) : ℂ) * Complex.I := by
    intro w
    induction w with
    | nil => intro m; simp [dftValue, windowSum]
    | cons x w ih =>
      intro m
      have h1 := ih (m + 1)
      rw [show (f : ℝ) / rate * ((m + 1 : Nat) : ℝ) = (f : ℝ) / rate * m + (f : ℝ) / rate by push_cast; ring, turn_add] at h1
      simp only [dftValue, List.foldr_cons] at *
      rw [mul_add, ← mul_assoc, h1]
      have h2 : turn ((f : ℝ) / rate * m)
          = ((cos (2 * π * f / rate * m) : ℝ) : ℂ) + ((sin (2 * π * f / rate * m) : ℝ) : ℂ) * Complex.I := by
        apply Complex.ext
        · rw [turn_re, show 2 * π * ((f : ℝ) / rate * m) = 2 * π * f / rate * m by ring,
            Complex.add_re, Complex.ofReal_re, Complex.re_ofReal_mul, Complex.I_re, mul_zero, add_zero]
        · rw [turn_im, show 2 * π * ((f : ℝ) / rate * m) = 2 * π * f / rate * m by ring,
            Complex.add_im, Complex.ofReal_im, Complex.im_ofReal_mul, Complex.I_im, mul_one, zero_add]
      rw [h2]
      simp only [windowSum, xn]
      push_cast; ring
  have h := key w 0
  rw [Nat.cast_zero, mul_zero, turn_zero, one_mul] at h
  rw [powerReal, h, ← Complex.normSq_eq_norm_sq, Complex.normSq_add_mul_I]
  ring

/-- The power's enclosure holds the exact value (R212). -/
theorem powerBall_encloses (rate f : Nat) (w : List Sample) (p : Nat) (hp : 64 ≤ p) :
    (powerBall rate f w p).Encloses (2 ^ (2 * p + 30) * powerReal rate f w) := by
  have h := Ball.normSq_encloses (dftBall_encloses rate f w p hp)
  rw [powerReal_eq, show (2:ℝ) ^ (2 * p + 30) * (‖dftValue rate f w‖ ^ 2 / 2 ^ 30) = 2 ^ (2 * p) * ‖dftValue rate f w‖ ^ 2 by
    rw [pow_add]; field_simp]
  exact h

/-! ### Decisions -/

/-- A refinement answers `v`, if every test that settles answers `v` and either one of them settles or the last one
answers `v`. -/
theorem refine_eq {α : Type} (test : Nat → Option α) (last : Nat → α) (v : α) (n p : Nat)
    (hs : ∀ k, ∀ a, test (2 ^ k * p) = some a → a = v)
    (h : (∃ k, k < n ∧ test (2 ^ k * p) ≠ none) ∨ last (2 ^ n * p) = v) : refine test last n p = v := by
  induction n generalizing p with
  | zero => rcases h with ⟨k, hk, _⟩ | h; · omega
            simpa [refine] using h
  | succ n ih =>
    unfold refine
    have h0 := hs 0
    rw [pow_zero, one_mul] at h0
    cases ht : test p with
    | some a => exact h0 a ht
    | none =>
      refine ih (2 * p) (fun k a hk => hs (k + 1) a (by rw [pow_succ, mul_assoc]; exact hk)) ?_
      rcases h with ⟨k, hk, hk2⟩ | h
      · cases k with
        | zero => rw [pow_zero, one_mul] at hk2; exact absurd ht hk2
        | succ k => exact .inl ⟨k, by omega, by rwa [pow_succ, mul_assoc] at hk2⟩
      · exact .inr (by rwa [pow_succ, mul_assoc] at h)

/-- A decision answers `v`, if every test that settles answers `v`, a tie found answers `v`, and without a tie some
refined test settles or the last one answers `v`. -/
theorem decideReal_eq {α : Type} (test : Nat → Option α) (tie : Unit → Bool) (onTie : Nat → α) (fuel : Nat) (v : α)
    (hs : ∀ k, ∀ a, test (2 ^ k * basePrecision) = some a → a = v)
    (ht : test basePrecision = none → tie () = true → onTie basePrecision = v)
    (h : tie () = false →
      (∃ k, k < fuel ∧ test (2 ^ (k + 1) * basePrecision) ≠ none) ∨ onTie (2 ^ (fuel + 1) * basePrecision) = v) :
    decideReal test tie onTie fuel = v := by
  unfold decideReal
  cases hb : test basePrecision with
  | some a => exact hs 0 a (by simpa using hb)
  | none =>
    simp only
    split
    · next htie => exact ht hb htie
    · next htie =>
      refine refine_eq _ _ _ _ _ (fun k a hk => hs (k + 1) a (by rw [pow_succ, mul_assoc]; exact hk)) ?_
      rcases h (by simpa using htie) with ⟨k, hk, hk2⟩ | h
      · exact .inl ⟨k, hk, by rwa [pow_succ, mul_assoc] at hk2⟩
      · exact .inr (by rwa [pow_succ, mul_assoc] at h)


/-! ### Radii -/

theorem cisSmall_rad (p : Nat) (hp : 64 ≤ p) (u : Rat) : (cisSmall p u).rad ≤ 8 * p := by
  unfold cisSmall
  split
  · exact Nat.zero_le _
  · simp only [piRad, piTerms, expTerms]; omega

/-- The radius of a turn's enclosure. -/
theorem cis_rad (p : Nat) (hp : 64 ≤ p) (t : Rat) : (cis p t).rad ≤ 8 * p := by
  have h := cisSmall_rad p hp (t - ((4 * t + 1 / 2).floor : Rat) / 4)
  simp only [cis, Ball.quarterTurns]
  split <;> exact h

theorem two_pow_large (p : Nat) (hp : 64 ≤ p) : 8 * p ≤ 2 ^ p := by
  obtain ⟨k, rfl⟩ := Nat.exists_eq_add_of_le hp
  induction k with
  | zero => norm_num
  | succ k ih =>
    have := ih (by omega)
    have e : 2 ^ (64 + (k + 1)) = 2 * 2 ^ (64 + k) := by rw [← add_assoc, pow_succ, mul_comm]
    omega

theorem Ball.Encloses.norm_mid_le {b : Ball} {p : Nat} {z : ℂ} (h : b.Encloses p z) :
    ‖b.mid‖ ≤ 2 ^ p * ‖z‖ + b.rad := by
  have h1 := norm_sub_norm_le b.mid ((2:ℂ) ^ p * z)
  rw [norm_sub_rev, norm_mul, norm_pow, Complex.norm_ofNat] at h1
  have h2 : ‖(2:ℂ) ^ p * z - b.mid‖ ≤ b.rad := h
  linarith

theorem Ball.re_le (b : Ball) : (b.re.natAbs : ℝ) ≤ ‖b.mid‖ := by
  have := Complex.abs_re_le_norm b.mid
  simpa [Ball.mid, Nat.cast_natAbs] using this

theorem Ball.im_le (b : Ball) : (b.im.natAbs : ℝ) ≤ ‖b.mid‖ := by
  have := Complex.abs_im_le_norm b.mid
  simpa [Ball.mid, Nat.cast_natAbs] using this

/-- The radius of a sample's enclosure. -/
theorem sampleBall_rad (amp : Nat) (env : Option (Nat × Nat)) (t : Rat) (p : Nat) (hp : 64 ≤ p) :
    ((sampleBall amp env t p).rad : ℝ) ≤ amp * (2 ^ p * (64 * p)) := by
  have hP : (8 * p : ℝ) ≤ 2 ^ p := by exact_mod_cast two_pow_large p hp
  have hp0 : (0:ℝ) ≤ p := Nat.cast_nonneg _
  have bound : ∀ u : Rat, ((cis p u).rad : ℝ) ≤ 8 * p ∧ ‖(cis p u).mid‖ ≤ 2 * 2 ^ p := fun u => by
    have h1 : ((cis p u).rad : ℝ) ≤ 8 * p := by exact_mod_cast cis_rad p hp u
    have h2 := (cis_encloses p hp u).norm_mid_le
    rw [norm_turn] at h2
    exact ⟨h1, by linarith⟩
  have hs := bound t
  have hsi := (cis p t).im_le
  have he : ((envBall p env).rad : ℝ) ≤ 8 * p ∧ ((envBall p env).mid.natAbs : ℝ) ≤ 3 * 2 ^ p := by
    match env with
    | none =>
      refine ⟨by simp [envBall, hp0], ?_⟩
      simp only [envBall, Int.natAbs_pow]
      push_cast [pow_succ]
      have : (0:ℝ) ≤ 2 ^ p := by positivity
      simp; linarith
    | some (j, tn) =>
      have hb := bound (mkRat j (2 * tn))
      have hr := (cis p (mkRat j (2 * tn))).re_le
      refine ⟨hb.1, ?_⟩
      simp only [envBall]
      have : ((2 ^ p - (cis p (mkRat j (2 * tn))).re).natAbs : ℝ) ≤ 2 ^ p + ((cis p (mkRat j (2 * tn))).re.natAbs : ℝ) := by
        have := Int.natAbs_sub_le (2 ^ p) (cis p (mkRat j (2 * tn))).re
        have h2 : ((2 : Int) ^ p).natAbs = 2 ^ p := by simp [Int.natAbs_pow]
        rw [h2] at this
        exact_mod_cast this
      linarith [hb.2]
  simp only [sampleBall]
  push_cast
  refine mul_le_mul_of_nonneg_left ?_ (Nat.cast_nonneg _)
  have h1 := mul_le_mul he.2 hs.1 (Nat.cast_nonneg _) (by positivity)
  have h2 := mul_le_mul (hsi.trans hs.2) he.1 (Nat.cast_nonneg _) (by positivity)
  have h3 := mul_le_mul he.1 hs.1 (Nat.cast_nonneg _) (by positivity)
  have h4 : (8 * p : ℝ) * (8 * p) ≤ 2 ^ p * (8 * p) := mul_le_mul_of_nonneg_right hP (by positivity)
  nlinarith

/-! ### Cyclotomic integers -/

open Polynomial in
/-- A non-zero integer polynomial in a primitive root of unity of order `q` is at least `B ^ -q` in absolute value, if
its values at all roots of unity of order `q` are at most `B`. -/
theorem cyclotomic_lower_bound (q : Nat) (hq : 0 < q) (C : ℤ[X]) (B : ℝ) (hB1 : 1 ≤ B)
    (hB : ∀ ξ : ℂ, ξ ^ q = 1 → ‖aeval ξ C‖ ≤ B) (ζ : ℂ) (hζ : IsPrimitiveRoot ζ q) (hne : aeval ζ C ≠ 0) :
    1 ≤ ‖aeval ζ C‖ * B ^ q := by
  classical
  have : NeZero q := ⟨hq.ne'⟩
  have hcyc : IsCyclotomicExtension {q} ℚ (CyclotomicField q ℚ) := CyclotomicField.isCyclotomicExtension q ℚ
  let η : (CyclotomicField q ℚ) := IsCyclotomicExtension.zeta q ℚ (CyclotomicField q ℚ)
  have hη : IsPrimitiveRoot η q := IsCyclotomicExtension.zeta_spec q ℚ (CyclotomicField q ℚ)
  let x : (CyclotomicField q ℚ) := aeval η C
  have hint : IsIntegral ℤ x := by
    have : x ∈ integralClosure ℤ (CyclotomicField q ℚ) := by
      have h1 : η ∈ integralClosure ℤ (CyclotomicField q ℚ) := hη.isIntegral hq
      have := (aeval (⟨η, h1⟩ : integralClosure ℤ (CyclotomicField q ℚ)) C).2
      rwa [aeval_subalgebra_coe] at this
    exact this
  obtain ⟨N, hN⟩ := IsIntegrallyClosed.isIntegral_iff.1 (Algebra.isIntegral_norm ℚ hint)
  have hirr : Irreducible (cyclotomic q ℚ) := cyclotomic.irreducible_rat hq
  let emb := hη.embeddingsEquivPrimitiveRoots ℂ hirr
  let φ : (CyclotomicField q ℚ) →ₐ[ℚ] ℂ := emb.symm ⟨ζ, by rw [mem_primitiveRoots hq]; exact hζ⟩
  have hφ : φ η = ζ := by
    have := hη.embeddingsEquivPrimitiveRoots_apply_coe ℂ hirr φ
    rw [← this]; simp [φ, emb]
  have hval : ∀ σ : (CyclotomicField q ℚ) →ₐ[ℚ] ℂ, σ x = aeval (σ η) C := fun σ => by
    exact (aeval_algHom_apply (σ.restrictScalars ℤ) η C).symm
  have hx : x ≠ 0 := by
    intro h
    apply hne
    rw [← hφ, ← hval, h, map_zero]
  have hN0 : N ≠ 0 := by
    rintro rfl
    rw [map_zero] at hN
    exact hx (Algebra.norm_eq_zero_iff.1 hN.symm)
  have hprod := Algebra.norm_eq_prod_embeddings ℚ ℂ x
  have h1 : (1:ℝ) ≤ ‖∏ σ : (CyclotomicField q ℚ) →ₐ[ℚ] ℂ, σ x‖ := by
    rw [← hprod, ← hN]
    have : (1:ℝ) ≤ |(N:ℝ)| := by exact_mod_cast Int.one_le_abs hN0
    simpa using this
  have hroot : ∀ σ : (CyclotomicField q ℚ) →ₐ[ℚ] ℂ, ‖σ x‖ ≤ B := fun σ => by
    rw [hval]; apply hB; rw [← map_pow, hη.pow_eq_one, map_one]
  rw [norm_prod, ← Finset.mul_prod_erase _ _ (Finset.mem_univ φ)] at h1
  have h2 : ∏ σ ∈ Finset.univ.erase φ, ‖σ x‖ ≤ B ^ (Finset.univ.erase φ).card :=
    (Finset.prod_le_prod (fun _ _ => norm_nonneg _) fun σ _ => hroot σ).trans (by simp)
  have hcard : (Finset.univ.erase φ).card ≤ q := by
    refine (Finset.card_erase_le).trans ?_
    rw [Finset.card_univ, Fintype.card_congr emb]
    rw [Fintype.card_coe, hζ.card_primitiveRoots]
    exact Nat.totient_le q
  rw [hval, hφ] at h1
  calc (1:ℝ) ≤ _ := h1
    _ ≤ ‖aeval ζ C‖ * B ^ q := mul_le_mul_of_nonneg_left (h2.trans (pow_le_pow_right₀ hB1 hcard)) (norm_nonneg _)


end Sys2Proof.Machine
end

