-- ==== Sys2Proof/Laws/Gaps.lean ====
section
/-! SUPPORT. The exact test for a tie (`vanishesAt`), how near the boundary of a decision an exact value can lie without
lying on it, and that the last precision of a decision is finer than that. -/

namespace Sys2Proof.Machine
open Polynomial

/-! ### Coefficient lists and the exact test -/

/-- The value of a list of coefficients, the first having the exponent 0. -/
def listValue (ξ : ℂ) : List Int → ℂ
  | [] => 0
  | a :: rest => a + ξ * listValue ξ rest

/-- The value of a list appended. -/
theorem listValue_append (ξ : ℂ) (a b : List Int) : listValue ξ (a ++ b) = listValue ξ a + ξ ^ a.length * listValue ξ b := by
  induction a with
  | nil => simp [listValue]
  | cons x a ih => simp only [List.cons_append, listValue, ih, List.length_cons, pow_succ]; ring

theorem listValue_zipWith_sub (ξ : ℂ) (a b : List Int) (h : a.length = b.length) :
    listValue ξ (List.zipWith (· - ·) a b) = listValue ξ a - listValue ξ b := by
  induction a generalizing b with
  | nil => cases b <;> simp_all [listValue]
  | cons x a ih =>
    cases b with
    | nil => simp at h
    | cons y b => simp only [List.zipWith_cons_cons, listValue, ih b (by simpa using h)]; push_cast; ring

theorem cyclicDiff_length (c : List Int) (s : Nat) : (cyclicDiff c s).length = c.length := by
  simp [cyclicDiff]

/-- At a root of unity of the list's length, `cyclicDiff` multiplies by `ξ ^ s - 1`. -/
theorem cyclicDiff_value (ξ : ℂ) (c : List Int) (s : Nat) (h : s ≤ c.length) (hξ : ξ ^ c.length = 1) :
    listValue ξ (cyclicDiff c s) = (ξ ^ s - 1) * listValue ξ c := by
  unfold cyclicDiff
  rw [listValue_zipWith_sub _ _ _ (by simp), listValue_append]
  have hc : listValue ξ c = listValue ξ (c.take (c.length - s)) + ξ ^ (c.length - s) * listValue ξ (c.drop (c.length - s)) := by
    conv_lhs => rw [← List.take_append_drop (c.length - s) c, listValue_append]
    rw [List.length_take, Nat.min_eq_left (Nat.sub_le _ _)]
  have hl : (c.drop (c.length - s)).length = s := by rw [List.length_drop]; omega
  have hp : ξ ^ s * ξ ^ (c.length - s) = 1 := by rw [← pow_add, Nat.add_sub_cancel' h, hξ]
  rw [hl]
  linear_combination (-ξ ^ s) * hc - listValue ξ (c.drop (c.length - s)) * hp

theorem fold_length (q : Nat) (ds : List Nat) (c : List Int) (hc : c.length = q) :
    (ds.foldl (fun c d => cyclicDiff c (q / d)) c).length = q := by
  induction ds generalizing c with
  | nil => exact hc
  | cons d ds ih =>
    refine ih _ ?_
    rw [cyclicDiff_length, hc]

/-- The fold of `vanishesAt` multiplies by every factor. -/
theorem fold_value (q : Nat) (ds : List Nat) (c : List Int) (ξ : ℂ) (hξ : ξ ^ q = 1) (hc : c.length = q) :
    listValue ξ (ds.foldl (fun c d => cyclicDiff c (q / d)) c)
      = (ds.map fun d => ξ ^ (q / d) - 1).prod * listValue ξ c := by
  induction ds generalizing c with
  | nil => simp
  | cons d ds ih =>
    have hle : q / d ≤ c.length := by rw [hc]; exact Nat.div_le_self _ _
    rw [List.foldl_cons, ih _ (by rw [cyclicDiff_length, hc]), cyclicDiff_value _ _ _ hle (by rw [hc]; exact hξ)]
    simp only [List.map_cons, List.prod_cons]; ring

/-- The polynomial of a list of coefficients. -/
noncomputable def listPoly : List Int → ℤ[X]
  | [] => 0
  | a :: rest => C a + X * listPoly rest

theorem aeval_listPoly (ξ : ℂ) (c : List Int) : aeval ξ (listPoly c) = listValue ξ c := by
  induction c with
  | nil => simp [listPoly, listValue]
  | cons a c ih => simp only [listPoly, listValue, map_add, map_mul, aeval_C, aeval_X, ih]; simp

/-- The coefficients of a list's polynomial. -/
theorem listPoly_coeff (c : List Int) (n : Nat) : (listPoly c).coeff n = c.getD n 0 := by
  induction c generalizing n with
  | nil => simp [listPoly]
  | cons a c ih =>
    cases n with
    | zero => simp [listPoly]
    | succ n => rw [listPoly, coeff_add, coeff_C_succ, coeff_X_mul, ih]; simp

/-- A list of `q` coefficients that vanishes at every root of unity of order `q` is zero. -/
theorem list_zero_of_values (q : Nat) (hq : 0 < q) (c : List Int) (hc : c.length = q)
    (h : ∀ ξ : ℂ, ξ ^ q = 1 → listValue ξ c = 0) : ∀ x ∈ c, x = 0 := by
  have hζ := Complex.isPrimitiveRoot_exp q hq.ne'
  have hP : listPoly c = 0 := by
    by_contra hne
    have hdeg : (listPoly c).natDegree < q := by
      rw [natDegree_lt_iff_degree_lt hne, degree_lt_iff_coeff_zero]
      intro m hm
      rw [listPoly_coeff, List.getD_eq_default _ _ (by omega)]
    have hne' : (listPoly c).map (Int.castRingHom ℂ) ≠ 0 := by
      rwa [Ne, Polynomial.map_eq_zero_iff (RingHom.injective_int _)]
    have hsub : nthRootsFinset q (1 : ℂ) ⊆ ((listPoly c).map (Int.castRingHom ℂ)).roots.toFinset := by
      intro ξ hξ
      rw [mem_nthRootsFinset hq] at hξ
      rw [Multiset.mem_toFinset, mem_roots hne', IsRoot, eval_map, ← algebraMap_int_eq, ← aeval_def, aeval_listPoly]
      exact h ξ hξ
    have h1 := Finset.card_le_card hsub
    rw [hζ.card_nthRootsFinset] at h1
    have h2 := (Multiset.toFinset_card_le _).trans (card_roots' ((listPoly c).map (Int.castRingHom ℂ)))
    have h3 := natDegree_map_le (f := Int.castRingHom ℂ) (p := listPoly c)
    omega
  intro x hx
  obtain ⟨n, hn, rfl⟩ := List.mem_iff_getElem.1 hx
  have := listPoly_coeff c n
  rw [hP] at this
  simp [hn] at this
  exact this.symm

theorem listValue_zero (ξ : ℂ) (c : List Int) (h : ∀ x ∈ c, x = 0) : listValue ξ c = 0 := by
  induction c with
  | nil => rfl
  | cons a c ih => simp [listValue, h a (by simp), ih fun x hx => h x (by simp [hx])]

/-- A list that vanishes at one primitive root vanishes at all. -/
theorem listValue_primitive (q : Nat) (hq : 0 < q) (c : List Int) (ζ ξ : ℂ) (hζ : IsPrimitiveRoot ζ q) (hξ : IsPrimitiveRoot ξ q)
    (h : listValue ζ c = 0) : listValue ξ c = 0 := by
  rw [← aeval_listPoly] at *
  have h1 : minpoly ℤ ζ ∣ listPoly c := minpoly.isIntegrallyClosed_dvd (hζ.isIntegral hq) h
  rw [← cyclotomic_eq_minpoly hζ hq, cyclotomic_eq_minpoly hξ hq] at h1
  obtain ⟨r, hr⟩ := h1
  rw [hr, map_mul, minpoly.aeval, zero_mul]

/-- The value of a list of terms. -/
def termsValue (ξ : ℂ) (ts : List (Nat × Int)) : ℂ := (ts.map fun t => (t.2 : ℂ) * ξ ^ t.1).sum

theorem listValue_range (ξ : ℂ) (f : Nat → Int) (n : Nat) :
    listValue ξ ((List.range n).map f) = ∑ j ∈ Finset.range n, (f j : ℂ) * ξ ^ j := by
  induction n with
  | zero => simp [listValue]
  | succ n ih =>
    rw [List.range_succ, List.map_append, listValue_append, ih, Finset.sum_range_succ]
    simp [listValue]; ring

/-- Collected terms have the value of the terms. -/
theorem collectTerms_value (q : Nat) (ts : List (Nat × Int)) (h : ∀ t ∈ ts, t.1 < q) (ξ : ℂ) :
    listValue ξ (collectTerms q ts) = termsValue ξ ts := by
  unfold collectTerms
  rw [listValue_range]
  induction ts with
  | nil => simp [termsValue]
  | cons t ts ih =>
    have ih := ih fun u hu => h u (by simp [hu])
    have ht := h t (by simp)
    simp only [termsValue, List.map_cons, List.sum_cons] at *
    rw [← ih]
    have : ∀ j, ((((t :: ts).filter fun t => t.1 = j).map fun t => t.2).sum : Int)
        = (if j = t.1 then t.2 else 0) + ((ts.filter fun t => t.1 = j).map fun t => t.2).sum := by
      intro j
      rw [List.filter_cons]
      by_cases hj : t.1 = j
      · simp [hj]
      · simp [hj, Ne.symm hj]
    simp only [this]
    push_cast
    simp only [add_mul, Finset.sum_add_distrib, ite_mul, zero_mul]
    rw [Finset.sum_ite_eq' (Finset.range q) t.1, if_pos (Finset.mem_range.2 ht)]

/-- The exact test: it finds exactly the sums that are 0 at the primitive root. -/
theorem vanishesAt_iff (q : Nat) (hq : 0 < q) (ts : List (Nat × Int)) (h : ∀ t ∈ ts, t.1 < q) (ζ : ℂ)
    (hζ : IsPrimitiveRoot ζ q) : vanishesAt q ts = true ↔ termsValue ζ ts = 0 := by
  have hlen : (collectTerms q ts).length = q := by simp [collectTerms]
  rw [← collectTerms_value q ts h]
  simp only [vanishesAt, List.all_eq_true, decide_eq_true_eq]
  set ds := (List.range (q + 1)).filter fun d => 1 < d ∧ q % d = 0 with hds
  have mem : ∀ d, d ∈ ds ↔ d < q + 1 ∧ 1 < d ∧ q % d = 0 := fun d => by simp [hds]
  constructor
  · intro hz
    have h1 := fold_value q ds _ ζ hζ.pow_eq_one hlen
    rw [listValue_zero _ _ hz] at h1
    refine (mul_eq_zero.1 h1.symm).resolve_left ?_
    rw [List.prod_eq_zero_iff]
    simp only [List.mem_map, not_exists, not_and]
    intro d hd h0
    obtain ⟨_, h2, h3⟩ := (mem d).1 hd
    have h4 := hζ.dvd_of_pow_eq_one _ (sub_eq_zero.1 h0)
    have hdq : d ∣ q := Nat.dvd_of_mod_eq_zero h3
    have hpos : 0 < q / d := Nat.div_pos (Nat.le_of_dvd hq hdq) (by omega)
    have := Nat.le_of_dvd hpos h4
    have := Nat.div_lt_self hq h2
    omega
  · intro hz
    refine list_zero_of_values q hq _ (fold_length q ds _ hlen) fun ξ hξ => ?_
    rw [fold_value q ds _ ξ hξ hlen]
    by_cases hprim : IsPrimitiveRoot ξ q
    · rw [listValue_primitive q hq _ ζ ξ hζ hprim hz, mul_zero]
    · have hord : orderOf ξ ∣ q := orderOf_dvd_of_pow_eq_one hξ
      have hpos : 0 < orderOf ξ := Nat.pos_of_dvd_of_pos hord hq
      have hne : orderOf ξ ≠ q := fun he => hprim (he ▸ IsPrimitiveRoot.orderOf ξ)
      have hlt : orderOf ξ < q := lt_of_le_of_ne (Nat.le_of_dvd hq hord) hne
      have : (ds.map fun d => ξ ^ (q / d) - 1).prod = 0 := by
        rw [List.prod_eq_zero_iff, List.mem_map]
        refine ⟨q / orderOf ξ, (mem _).2 ⟨Nat.lt_succ_of_le (Nat.div_le_self _ _), ?_, ?_⟩, ?_⟩
        · rw [Nat.lt_div_iff_mul_lt' hord]; omega
        · exact Nat.mod_eq_zero_of_dvd (Nat.div_dvd_of_dvd hord)
        · rw [Nat.div_div_self hord hq.ne', pow_orderOf_eq_one, sub_self]
      rw [this, zero_mul]

/-- A `Q`-th of a turn is a primitive root of unity. -/
theorem turn_prim (Q : Nat) (hQ : 0 < Q) : IsPrimitiveRoot (turn (1 / Q)) Q := by
  have := Complex.isPrimitiveRoot_exp Q hQ.ne'
  convert this using 1
  rw [turn]; congr 1; push_cast; ring

theorem turn_nat (Q k : Nat) : turn (1 / Q) ^ k = turn ((k:ℝ) / Q) := by
  induction k with
  | zero => simp [turn_zero]
  | succ k ih => rw [pow_succ, ih, ← turn_add]; congr 1; push_cast; ring

theorem turn_int (n : Int) : turn n = 1 := by
  rw [turn, Complex.exp_eq_one_iff]; exact ⟨n, by push_cast; ring⟩

theorem turn_neg (t : ℝ) : turn (-t) = (turn t)⁻¹ := by
  rw [turn, turn, ← Complex.exp_neg]; congr 1; push_cast; ring

/-- A turn and its inverse add up to twice the cosine. -/
theorem turn_conj_cos (t : ℝ) : turn t + turn (-t) = 2 * (Real.cos (2 * Real.pi * t) : ℂ) := by
  apply Complex.ext
  · rw [Complex.add_re, turn_re, turn_re, show (2:ℂ) = ((2:ℝ):ℂ) by norm_num, ← Complex.ofReal_mul, Complex.ofReal_re, mul_neg, Real.cos_neg]; ring
  · rw [Complex.add_im, turn_im, turn_im, show (2:ℂ) = ((2:ℝ):ℂ) by norm_num, ← Complex.ofReal_mul, Complex.ofReal_im, mul_neg, Real.sin_neg]; ring

/-- A turn less its inverse is `2i` times the sine. -/
theorem turn_conj_sin (t : ℝ) : turn t - turn (-t) = 2 * Complex.I * (Real.sin (2 * Real.pi * t) : ℂ) := by
  apply Complex.ext
  · rw [Complex.sub_re, turn_re, turn_re, mul_neg, Real.cos_neg]; simp only [Complex.mul_re, Complex.mul_im, Complex.ofReal_re, Complex.ofReal_im, Complex.I_re, Complex.I_im]; simp
  · rw [Complex.sub_im, turn_im, turn_im, mul_neg, Real.sin_neg]; simp only [Complex.mul_re, Complex.mul_im, Complex.ofReal_re, Complex.ofReal_im, Complex.I_re, Complex.I_im]; simp; ring

/-- A multiple of a `Q`-th of a turn as a power, the exponent below `Q`. -/
theorem turn_as_pow (Q : Nat) (hQ : 0 < Q) (a : Int) : turn ((a:ℝ) / Q) = turn (1 / Q) ^ (a % Q).toNat := by
  rw [turn_nat]
  have h := Int.mul_ediv_add_emod a Q
  have h2 := Int.emod_nonneg a (by exact_mod_cast hQ.ne' : (Q:Int) ≠ 0)
  have hQ' : (Q:ℝ) ≠ 0 := by exact_mod_cast hQ.ne'
  have e : (a:ℝ) / Q = ((a / Q : Int) : ℝ) + (((a % Q).toNat : Nat) : ℝ) / Q := by
    have h3 : (((a % Q).toNat : Nat) : ℝ) = ((a % Q : Int) : ℝ) := by exact_mod_cast Int.toNat_of_nonneg h2
    rw [h3]
    have : (a:ℝ) = Q * ((a / Q : Int) : ℝ) + ((a % Q : Int) : ℝ) := by exact_mod_cast h.symm
    field_simp; linarith
  rw [e, turn_add, turn_int, one_mul]

/-- A bound of the polynomial of a sample value. -/
theorem aeval_bound (ξ : ℂ) (h1 : ‖ξ‖ = 1) (A K : ℤ) (P : ℤ[X]) (m : Nat) (r : ℝ) (hP : ‖aeval ξ P‖ ≤ r) :
    ‖aeval ξ (C A * P - C K * X ^ m)‖ ≤ |(A:ℝ)| * r + |(K:ℝ)| := by
  simp only [map_sub, map_mul, map_pow, aeval_X, eq_intCast, map_intCast]
  refine (norm_sub_le _ _).trans ?_
  rw [norm_mul, norm_mul, norm_pow, h1, one_pow, mul_one, Complex.norm_intCast, Complex.norm_intCast]
  gcongr


/-- A precision, even times `2 ^ 40`, is below its power of two. -/
theorem forty_bits_mul_lt (r : Nat) (hr : 64 ≤ r) : 2 ^ 40 * r < 2 ^ r := by
  obtain ⟨k, rfl⟩ := Nat.exists_eq_add_of_le hr
  clear hr
  induction k with
  | zero => norm_num
  | succ k ih =>
    have e : 2 ^ (64 + (k + 1)) = 2 * 2 ^ (64 + k) := by rw [← add_assoc, pow_succ, mul_comm]
    omega

/-! ### Powers as cyclotomic integers -/
theorem norm_listValue (u : ℂ) (hu : ‖u‖ = 1) (w : List Int) : ‖listValue u w‖ ≤ ((w.map Int.natAbs).sum : ℕ) := by
  induction w with
  | nil => simp [listValue]
  | cons x w ih =>
    simp only [listValue] at *
    refine (norm_add_le _ _).trans ?_
    rw [norm_mul, hu, one_mul, Complex.norm_intCast]
    simp only [List.map_cons, List.sum_cons]
    push_cast [Nat.cast_natAbs] at *
    linarith

theorem autocorr_ge (w : List Int) (d : Nat) (h : w.length ≤ d) : autocorr w d = 0 := by
  simp [autocorr, List.drop_eq_nil_of_le h]

theorem autocorr_cons_succ (x : Int) (w : List Int) (d : Nat) : autocorr (x :: w) (d + 1) = w.getD d 0 * x + autocorr w (d + 1) := by
  simp only [autocorr, List.drop_succ_cons]
  by_cases h : d < w.length
  · rw [List.drop_eq_getElem_cons h, List.zipWith_cons_cons, List.sum_cons, List.getD_eq_getElem _ _ h]
  · rw [List.drop_eq_nil_of_le (by omega), List.drop_eq_nil_of_le (by omega)]; rw [List.getD_eq_default _ _ (not_lt.1 h)]; simp

/-- A list's value as a sum. -/
theorem listValue_sum (u : ℂ) (w : List Int) : u * listValue u w = ∑ d ∈ Finset.range w.length, (w.getD d 0 : ℂ) * u ^ (d + 1) := by
  induction w with
  | nil => simp [listValue]
  | cons x w ih =>
    simp only [listValue, List.length_cons]
    rw [Finset.sum_range_succ', ih, mul_add, Finset.mul_sum]
    simp only [List.getD_cons_succ, List.getD_cons_zero]
    rw [add_comm]
    congr 1
    · exact Finset.sum_congr rfl fun d _ => by ring
    · ring

/-- The squared modulus of a list's value by its autocorrelation. -/
theorem normSq_horner (u : ℂ) (hu : ‖u‖ = 1) (w : List Int) :
    ((‖listValue u w‖ ^ 2 : ℝ) : ℂ) = ∑ d ∈ Finset.range w.length, (autocorr w d : ℂ) * (if d = 0 then 1 else u ^ d + u⁻¹ ^ d) := by
  have hc : (starRingEnd ℂ) u = u⁻¹ := (Complex.inv_eq_conj hu).symm
  have hm : ∀ z : ℂ, ((‖z‖ ^ 2 : ℝ) : ℂ) = z * (starRingEnd ℂ) z := fun z => by rw [Complex.mul_conj, Complex.normSq_eq_norm_sq]
  have hu0 : u ≠ 0 := by intro h; simp [h] at hu
  have conj_h : ∀ w, (starRingEnd ℂ) (listValue u w) = listValue u⁻¹ w := by
    intro w
    induction w with
    | nil => simp [listValue]
    | cons x w ih => simp only [listValue, map_add, map_mul, hc] at *; rw [ih]; simp
  rw [hm, conj_h]
  clear hm conj_h hc
  induction w with
  | nil => simp [listValue]
  | cons x w ih =>
    have e : listValue u (x :: w) * listValue u⁻¹ (x :: w)
        = x * x + x * (u * listValue u w) + x * (u⁻¹ * listValue u⁻¹ w) + listValue u w * listValue u⁻¹ w := by
      simp only [listValue]; field_simp; ring
    rw [e, ih, listValue_sum, listValue_sum, List.length_cons, Finset.sum_range_succ']
    simp only [autocorr_cons_succ, Nat.succ_ne_zero, if_false, if_true, mul_one]
    have h0 : (autocorr (x :: w) 0 : ℂ) = x * x + autocorr w 0 := by simp [autocorr]
    have hs : ∑ d ∈ Finset.range w.length, (autocorr w d : ℂ) * (if d = 0 then 1 else u ^ d + u⁻¹ ^ d)
        = ∑ d ∈ Finset.range w.length, (autocorr w (d + 1) : ℂ) * (u ^ (d + 1) + u⁻¹ ^ (d + 1)) + autocorr w 0 := by
      have h1 := Finset.sum_range_succ (fun d => (autocorr w d : ℂ) * (if d = 0 then 1 else u ^ d + u⁻¹ ^ d)) w.length
      rw [autocorr_ge w w.length le_rfl] at h1
      have h2 := Finset.sum_range_succ' (fun d => (autocorr w d : ℂ) * (if d = 0 then 1 else u ^ d + u⁻¹ ^ d)) w.length
      rw [h1] at h2
      simpa using h2
    rw [hs, h0, Finset.mul_sum, Finset.mul_sum]
    push_cast
    simp only [add_mul, Finset.sum_add_distrib, mul_add]
    have c1 : ∀ d, (x:ℂ) * ((w.getD d 0 : ℂ) * u ^ (d + 1)) = (w.getD d 0 : ℂ) * x * u ^ (d + 1) := fun d => by ring
    have c2 : ∀ d, (x:ℂ) * ((w.getD d 0 : ℂ) * u⁻¹ ^ (d + 1)) = (w.getD d 0 : ℂ) * x * u⁻¹ ^ (d + 1) := fun d => by ring
    simp only [c1, c2]
    ring


theorem termsValue_append (ξ : ℂ) (a b : List (Nat × Int)) : termsValue ξ (a ++ b) = termsValue ξ a + termsValue ξ b := by
  simp [termsValue]

theorem normSqTerms_lt (q e : Nat) (hq : 0 < q) (scale : Int) (w : List Int) : ∀ t ∈ normSqTerms q e scale w, t.1 < q := by
  intro t ht
  simp only [normSqTerms, List.mem_flatMap, List.mem_range] at ht
  obtain ⟨d, _, hd⟩ := ht
  split at hd
  · simp at hd; rw [hd]; exact hq
  · simp only [List.mem_cons, List.not_mem_nil, or_false] at hd
    rcases hd with h | h <;> rw [h] <;> exact Nat.mod_lt _ hq

/-- The terms of `normSqTerms` have the value of the scaled squared modulus. -/
theorem normSqTerms_value (q e : Nat) (hq : 0 < q) (scale : Int) (w : List Int) (ξ : ℂ) (hξ : ξ ^ q = 1) :
    termsValue ξ (normSqTerms q e scale w) = ((scale * ‖listValue (ξ ^ e) w‖ ^ 2 : ℝ) : ℂ) := by
  have hn : ‖ξ‖ = 1 := Complex.norm_eq_one_of_pow_eq_one hξ hq.ne'
  have hn' : ‖ξ ^ e‖ = 1 := by rw [norm_pow, hn, one_pow]
  have h0 : ξ ≠ 0 := by intro h; simp [h] at hn
  rw [Complex.ofReal_mul, normSq_horner _ hn', Complex.ofReal_intCast]
  have hmod : ∀ k, ξ ^ (k % q) = ξ ^ k := fun k => by
    conv_rhs => rw [← Nat.div_add_mod k q, pow_add, pow_mul, hξ, one_pow, one_mul]
  have hneg : ∀ k, ξ ^ ((q - k % q) % q) = (ξ ^ k)⁻¹ := fun k => by
    rw [hmod]; apply eq_inv_of_mul_eq_one_left; rw [← hmod k, ← pow_add, Nat.sub_add_cancel (Nat.mod_lt _ hq).le, hξ]
  unfold normSqTerms
  induction w.length with
  | zero => simp [termsValue]
  | succ n ih =>
    rw [List.range_succ, List.flatMap_append, termsValue_append, ih, Finset.sum_range_succ, mul_add]
    congr 1
    by_cases hd : n = 0
    · subst hd; simp [termsValue]
    · simp only [List.flatMap_cons, List.flatMap_nil, List.append_nil, hd, if_false, termsValue, List.map_cons, List.map_nil,
        List.sum_cons, List.sum_nil, hmod (e * n), hneg (e * n), pow_mul, inv_pow]
      push_cast; ring

/-- The Fourier sum is the value of the window's integers at the turn of the frequency (R212). -/
theorem dftValue_eq (rate f : Nat) (w : List Sample) :
    dftValue rate f w = listValue (turn ((f:ℝ) / rate)) (w.map BitVec.toInt) := by
  induction w with
  | nil => simp [dftValue, listValue]
  | cons x w ih => simp only [dftValue, List.foldr_cons, List.map_cons, listValue] at *; rw [ih]

/-- The Fourier sum is at most the window's bound. -/
theorem norm_dftValue_le (rate f : Nat) (w : List Sample) : ‖dftValue rate f w‖ ≤ windowBound w := by
  rw [dftValue_eq]
  have := norm_listValue (turn ((f:ℝ) / rate)) (norm_turn _) (w.map BitVec.toInt)
  rw [List.map_map] at this
  exact this

/-- The radius of the Fourier sum's enclosure. -/
theorem dftBall_rad (rate f : Nat) (w : List Sample) (p : Nat) (hp : 64 ≤ p) (hn : w.length * (32 * p) ≤ 2 ^ p) :
    ((dftBall rate f w p).rad : ℝ) ≤ w.length * (32 * p * (windowBound w + 1)) := by
  have hP : (0:ℝ) < 2 ^ p := by positivity
  have hc := cis_rad p hp (mkRat f rate)
  have hc' : ((cis p (mkRat f rate)).rad : ℝ) ≤ 8 * p := by exact_mod_cast hc
  have hp' : (64:ℝ) ≤ p := by exact_mod_cast hp
  induction w with
  | nil => simp [dftBall]
  | cons x w ih =>
    have hn' : w.length * (32 * p) ≤ 2 ^ p := le_trans (Nat.mul_le_mul_right _ (by simp)) hn
    have ih := ih hn'
    have he := (dftBall_encloses rate f w p hp).norm_mid_le
    have hd := norm_dftValue_le rate f w
    have hWx : (windowBound w : ℝ) ≤ windowBound (x :: w) := by
      have : windowBound w ≤ windowBound (x :: w) := by simp [windowBound]
      exact_mod_cast this
    have hW0 : (0:ℝ) ≤ windowBound w := Nat.cast_nonneg _
    have hnR : (w.length : ℝ) * (32 * p) ≤ 2 ^ p := by exact_mod_cast hn'
    rw [show dftBall rate f (x :: w) p = Ball.mulAdd p (cis p (mkRat f rate)) x.toInt (dftBall rate f w p) from rfl]
    generalize dftBall rate f w p = a at *
    unfold Ball.mulAdd
    split
    · push_cast; positivity
    · have hre := a.re_le
      have him := a.im_le
      have hrad : (a.rad : ℝ) ≤ 2 ^ p * (windowBound w + 1) := by
        refine ih.trans ?_
        rw [← mul_assoc]
        exact mul_le_mul_of_nonneg_right hnR (by linarith)
      have hmid : ‖a.mid‖ ≤ 2 ^ p * (2 * windowBound w + 1) := by
        have := mul_le_mul_of_nonneg_left hd hP.le
        linarith
      have hdiv : (((cis p (mkRat f rate)).rad * (a.re.natAbs + a.im.natAbs) / 2 ^ p : Nat) : ℝ)
          ≤ 8 * p * (2 * (2 * windowBound w + 1)) := by
        refine Nat.cast_div_le.trans ?_
        push_cast
        rw [div_le_iff₀ hP]
        have h1 : ((a.re.natAbs : ℝ) + a.im.natAbs) ≤ 2 * (2 ^ p * (2 * windowBound w + 1)) := by linarith
        have := mul_le_mul hc' h1 (by positivity) (by positivity)
        linarith
      have hl : ((x :: w).length : ℝ) = w.length + 1 := by push_cast [List.length_cons]; ring
      rw [hl]
      push_cast at *
      have h3 : (w.length : ℝ) * (32 * p * (windowBound w + 1)) ≤ (w.length : ℝ) * (32 * p * (windowBound (x :: w) + 1)) := by
        gcongr
      have h4 : 8 * (p:ℝ) * (2 * (2 * windowBound w + 1)) + 3 ≤ 32 * p * (windowBound (x :: w) + 1) := by nlinarith
      linarith

/-- A window of zeros has an exact enclosure. -/
theorem dftBall_zero (rate f : Nat) (w : List Sample) (p : Nat) (h : windowBound w = 0) : dftBall rate f w p = ⟨0, 0, 0⟩ := by
  induction w with
  | nil => rfl
  | cons x w ih =>
    simp only [windowBound, List.map_cons, List.sum_cons, Nat.add_eq_zero_iff, Int.natAbs_eq_zero] at h ih
    rw [show dftBall rate f (x :: w) p = Ball.mulAdd p (cis p (mkRat f rate)) x.toInt (dftBall rate f w p) from rfl, ih h.2, h.1]
    simp [Ball.mulAdd]

/-- The radius of the power's enclosure. -/
theorem powerBall_rad (rate f : Nat) (w : List Sample) (p : Nat) (hp : 64 ≤ p) (hn : w.length * (32 * p) ≤ 2 ^ p) :
    ((powerBall rate f w p).rad : ℝ) ≤ 2 ^ p * (288 * w.length * p * (windowBound w + 1) ^ 2) := by
  have hP : (0:ℝ) < 2 ^ p := by positivity
  have hr := dftBall_rad rate f w p hp hn
  have he := (dftBall_encloses rate f w p hp).norm_mid_le
  have hd := norm_dftValue_le rate f w
  have hnR : (w.length : ℝ) * (32 * p) ≤ 2 ^ p := by exact_mod_cast hn
  have hW0 : (0:ℝ) ≤ windowBound w := Nat.cast_nonneg _
  simp only [powerBall, Ball.normSq]
  generalize dftBall rate f w p = a at *
  have hre := a.re_le
  have him := a.im_le
  have hrad : (a.rad : ℝ) ≤ 2 ^ p * (windowBound w + 1) := by
    refine hr.trans ?_
    rw [← mul_assoc]
    exact mul_le_mul_of_nonneg_right hnR (by linarith)
  have hmid : ‖a.mid‖ ≤ 2 ^ p * (2 * windowBound w + 1) := by
    have := mul_le_mul_of_nonneg_left hd hP.le
    linarith
  have hra : (0:ℝ) ≤ a.rad := Nat.cast_nonneg _
  push_cast
  have h1 : 2 * ((a.re.natAbs : ℝ) + a.im.natAbs) + a.rad ≤ 9 * (2 ^ p * (windowBound w + 1)) := by nlinarith
  calc 2 * ((a.re.natAbs : ℝ) + a.im.natAbs) * a.rad + a.rad * a.rad
      = (2 * ((a.re.natAbs : ℝ) + a.im.natAbs) + a.rad) * a.rad := by ring
    _ ≤ (9 * (2 ^ p * (windowBound w + 1))) * (w.length * (32 * p * (windowBound w + 1))) :=
        mul_le_mul h1 hr hra (by positivity)
    _ = _ := by ring

/-- A window of zeros has an exact power. -/
theorem powerBall_zero (rate f : Nat) (w : List Sample) (p : Nat) (h : windowBound w = 0) : powerBall rate f w p = ⟨0, 0⟩ := by
  simp [powerBall, dftBall_zero rate f w p h, Ball.normSq]

noncomputable def termsPoly (ts : List (Nat × Int)) : ℤ[X] := (ts.map fun t => C t.2 * X ^ t.1).sum

theorem aeval_termsPoly (ξ : ℂ) (ts : List (Nat × Int)) : aeval ξ (termsPoly ts) = termsValue ξ ts := by
  simp [termsPoly, termsValue, map_list_sum, Function.comp_def]

/-- A sum of terms that is not 0 at the primitive root is at least `B ^ -q` in absolute value. -/
theorem terms_gap (q : Nat) (hq : 0 < q) (ts : List (Nat × Int)) (B : ℝ) (hB1 : 1 ≤ B)
    (hB : ∀ ξ : ℂ, ξ ^ q = 1 → ‖termsValue ξ ts‖ ≤ B) (hne : termsValue (turn (1 / q)) ts ≠ 0) :
    1 ≤ ‖termsValue (turn (1 / q)) ts‖ * B ^ q := by
  rw [← aeval_termsPoly] at *
  exact cyclotomic_lower_bound q hq _ B hB1 (fun ξ hξ => by rw [aeval_termsPoly]; exact hB ξ hξ) _ (turn_prim q hq) hne

/-- At every root of unity a window's value is at most its bound. -/
theorem norm_root_listValue (q e : Nat) (hq : 0 < q) (w : List Sample) (ξ : ℂ) (hξ : ξ ^ q = 1) :
    ‖listValue (ξ ^ e) (w.map BitVec.toInt)‖ ^ 2 ≤ (windowBound w : ℝ) ^ 2 := by
  have hn : ‖ξ‖ = 1 := Complex.norm_eq_one_of_pow_eq_one hξ hq.ne'
  have := norm_listValue (ξ ^ e) (by rw [norm_pow, hn, one_pow]) (w.map BitVec.toInt)
  rw [List.map_map] at this
  exact pow_le_pow_left₀ (norm_nonneg _) this 2

/-- The turn of a frequency as a power of the primitive root of the reduced order. -/
theorem turn_ratio (rate f g : Nat) (hr : 0 < rate) (hg : 0 < g) (hgr : g ∣ rate) (hgf : g ∣ f) :
    turn (1 / ((rate / g : Nat) : ℝ)) ^ (f / g) = turn ((f:ℝ) / rate) := by
  rw [turn_nat]
  congr 1
  rw [Nat.cast_div hgr (by exact_mod_cast hg.ne'), Nat.cast_div hgf (by exact_mod_cast hg.ne')]
  have : (g:ℝ) ≠ 0 := by exact_mod_cast hg.ne'
  have : (rate:ℝ) ≠ 0 := by exact_mod_cast hr.ne'
  field_simp

/-- No decision stays open at the last precision: the gap and the radii exclude it. -/
theorem undecided_false (q L n r W : Nat) (v M B rad : ℝ) (hq : 0 < q) (X : Nat) (hX : X = q * (L + 1) + n + 16)
    (hr : 128 * X ≤ r) (hM0 : 0 ≤ M) (hM : W ≠ 0 → M ≤ 2 ^ (L + 16)) (hW : (W + 1) ^ 2 ≤ 2 ^ (L + 3)) (hB1 : 1 ≤ B) (hB : B ≤ 2 ^ (L + 3))
    (hgap : 1 ≤ |v| * B ^ q) (hund : |v| * 2 ^ (2 * (2 * r)) ≤ M * rad) (hrad0 : W = 0 → rad = 0)
    (hrad : rad ≤ 2 ^ (2 * r) * (288 * n * ((2 * r : Nat) : ℝ) * ((W:ℝ) + 1) ^ 2)) : False := by
  have hP : (0:ℝ) < 2 ^ (2 * r) := by positivity
  by_cases hW0 : W = 0
  · rw [hrad0 hW0, mul_zero] at hund
    have : |v| ≤ 0 := by
      by_contra h
      push Not at h
      have : 0 < |v| * 2 ^ (2 * (2 * r)) := by positivity
      linarith
    have : |v| = 0 := le_antisymm this (abs_nonneg _)
    rw [this, zero_mul] at hgap
    linarith
  · have hLX : L + 17 ≤ X + 0 := by
      rw [hX]; have : L + 1 ≤ q * (L + 1) := Nat.le_mul_of_pos_left _ hq
      omega
    have pw : ∀ {a b : Nat}, a ≤ b → (2:ℝ) ^ a ≤ 2 ^ b := fun h => pow_le_pow_right₀ (by norm_num) h
    have h1 : M ≤ 2 ^ X := (hM hW0).trans (pw (by omega))
    have h2 : ((W:ℝ) + 1) ^ 2 ≤ 2 ^ X := by
      refine le_trans ?_ (pw (show L + 3 ≤ X by omega))
      exact_mod_cast hW
    have h3 : (n:ℝ) ≤ 2 ^ X := by
      have : n ≤ 2 ^ n := Nat.lt_two_pow_self.le
      have h : (n:ℝ) ≤ 2 ^ n := by exact_mod_cast this
      exact h.trans (pw (by omega))
    have h4 : (288:ℝ) ≤ 2 ^ X := le_trans (by norm_num) (pw (show 9 ≤ X by omega))
    have h5 : B ^ q ≤ 2 ^ (3 * X) := by
      refine (pow_le_pow_left₀ (by linarith) hB q).trans ?_
      rw [← pow_mul]
      exact pw (by rw [hX]; nlinarith)
    have h6 : ((2 * r : Nat) : ℝ) < 2 ^ r := by
      have := forty_bits_mul_lt r (by omega)
      have h : 2 * r < 2 ^ r := by omega
      exact_mod_cast h
    have hXpos : (0:ℝ) < 2 ^ X := by positivity
    have h7 : M * rad * B ^ q ≤ 2 ^ (2 * r) * (2 ^ (7 * X) * 2 ^ r) := by
      have a1 : 288 * (n:ℝ) * ((2 * r : Nat) : ℝ) * ((W:ℝ) + 1) ^ 2 ≤ 2 ^ X * 2 ^ X * 2 ^ r * 2 ^ X := by gcongr
      have a2 : rad ≤ 2 ^ (2 * r) * (2 ^ X * 2 ^ X * 2 ^ r * 2 ^ X) := hrad.trans (by gcongr)
      calc M * rad * B ^ q ≤ 2 ^ X * (2 ^ (2 * r) * (2 ^ X * 2 ^ X * 2 ^ r * 2 ^ X)) * 2 ^ (3 * X) := by
            have hB0 : (0:ℝ) ≤ B ^ q := by positivity
            refine mul_le_mul ?_ h5 hB0 (by positivity)
            exact (mul_le_mul_of_nonneg_left a2 hM0).trans (mul_le_mul_of_nonneg_right h1 (by positivity))
        _ = 2 ^ (2 * r) * (2 ^ (7 * X) * 2 ^ r) := by ring
    have h8 : (2:ℝ) ^ (7 * X) * 2 ^ r < 2 ^ (2 * r) := by
      rw [← pow_add]; exact pow_lt_pow_right₀ (by norm_num) (by omega)
    have h9 : (2:ℝ) ^ (2 * (2 * r)) ≤ M * rad * B ^ q := by
      have : |v| * 2 ^ (2 * (2 * r)) * B ^ q ≤ M * rad * B ^ q := mul_le_mul_of_nonneg_right hund (by positivity)
      have : 1 * (2:ℝ) ^ (2 * (2 * r)) ≤ |v| * B ^ q * 2 ^ (2 * (2 * r)) := mul_le_mul_of_nonneg_right hgap (by positivity)
      linarith
    have h10 : (2:ℝ) ^ (2 * r) * (2 ^ (7 * X) * 2 ^ r) < 2 ^ (2 * r) * 2 ^ (2 * r) := mul_lt_mul_of_pos_left h8 hP
    rw [two_mul (2 * r), pow_add] at h9
    linarith


/-! ### The last precision -/

theorem basePrec_ge (k : Nat) : 64 ≤ 2 ^ k * basePrecision := by
  have := Nat.one_le_two_pow (n := k); unfold basePrecision; omega

/-- At the last precision the window is short against the power of two. -/
theorem small_window (n X r : Nat) (hn : n + 16 ≤ X) (hr : 128 * X ≤ r) : n * (32 * (2 * r)) ≤ 2 ^ (2 * r) := by
  have h1 : 2 * r < 2 ^ r := by have := forty_bits_mul_lt r (by omega); omega
  have h2 : n ≤ 2 ^ n := Nat.lt_two_pow_self.le
  calc n * (32 * (2 * r)) ≤ 2 ^ n * (2 ^ 5 * 2 ^ r) := Nat.mul_le_mul h2 (Nat.mul_le_mul (by norm_num) h1.le)
    _ = 2 ^ (n + (5 + r)) := by rw [pow_add, pow_add]
    _ ≤ _ := Nat.pow_le_pow_right (by norm_num) (by omega)

/-- The last precision is above 256 times the bound's exponent. -/
theorem last_precision (X : Nat) : ∃ r, 2 ^ (Nat.log2 X + 2 + 1) * basePrecision = 2 * r ∧ 128 * X ≤ r := by
  refine ⟨2 ^ (Nat.log2 X + 3) * 32, by unfold basePrecision; ring, ?_⟩
  have : X < 2 ^ (Nat.log2 X + 1) := Nat.lt_log2_self
  rw [show Nat.log2 X + 3 = (Nat.log2 X + 1) + 2 by ring, pow_add]; omega

/-- A number is below the power of two above its logarithm. -/
theorem bound_log (b : Nat) : b < 2 ^ (Nat.log2 b + 1) := Nat.lt_log2_self

/-- The terms of a window's power have its value (R212). -/
theorem power_value (rate f g : Nat) (hr : 0 < rate) (hg : 0 < g) (hgr : g ∣ rate) (hgf : g ∣ f) (s : Int) (w : List Sample) :
    termsValue (turn (1 / ((rate / g : Nat) : ℝ))) (normSqTerms (rate / g) (f / g) s (w.map BitVec.toInt))
      = ((s * (2 ^ 30 * powerReal rate f w) : ℝ) : ℂ) := by
  have hq : 0 < rate / g := Nat.div_pos (Nat.le_of_dvd hr hgr) hg
  rw [normSqTerms_value _ _ hq _ _ _ (turn_prim _ hq).pow_eq_one, turn_ratio rate f g hr hg hgr hgf, ← dftValue_eq, powerReal_eq]
  congr 1; congr 1; field_simp

/-- A power is not negative. -/
theorem power_nonneg (rate f : Nat) (w : List Sample) : 0 ≤ powerReal rate f w := by rw [powerReal_eq]; positivity

/-- A constant term in front. -/
theorem turn_zero_term (ξ : ℂ) (a : Int) (ts : List (Nat × Int)) : termsValue ξ ((0, a) :: ts) = a + termsValue ξ ts := by
  simp [termsValue]


/-! ### The sample value -/

/-- The distance of a sample value from an integer, scaled, is a cyclotomic integer. -/
theorem sample_poly (amp : Nat) (env : Option (Nat × Nat)) (t : Rat) (h : ∀ j tn, env = some (j, tn) → 0 < tn) (k : Int) :
    ∃ (Q : Nat) (C : ℤ[X]), 0 < Q ∧ Q = 8 * t.den * ((env.map Prod.snd).getD 1)
      ∧ (∀ ξ : ℂ, ξ ^ Q = 1 → ‖aeval ξ C‖ ≤ 8 * amp + 8 * |(k:ℝ)|)
      ∧ aeval (turn (1 / Q)) C = 8 * Complex.I * ((sampleReal amp env t - k : ℝ) : ℂ) := by
  have hn : ∀ (Q : Nat), 0 < Q → ∀ ξ : ℂ, ξ ^ Q = 1 → ‖ξ‖ = 1 := fun Q hQ ξ hξ => Complex.norm_eq_one_of_pow_eq_one hξ hQ.ne'
  have hd : 0 < t.den := t.pos
  have hd' : (t.den : ℝ) ≠ 0 := by exact_mod_cast hd.ne'
  have ht : (t : ℝ) = t.num / t.den := Rat.cast_def t
  match env with
  | none =>
    let Q := 8 * t.den * 1
    have hQ : 0 < Q := by positivity
    let b := ((8 * t.num : Int) % Q).toNat
    let b' := ((-(8 * t.num) : Int) % Q).toNat
    refine ⟨Q, C (4 * amp : ℤ) * (X ^ b - X ^ b') - C (8 * k) * X ^ (2 * t.den), hQ, rfl, fun ξ hξ => ?_, ?_⟩
    · have h1 := hn Q hQ ξ hξ
      have h2 : ‖aeval ξ ((X ^ b - X ^ b') : ℤ[X])‖ ≤ 2 := by
        simp only [map_sub, map_pow, aeval_X]
        exact (norm_sub_le _ _).trans (by simp [h1]; norm_num)
      refine (aeval_bound ξ h1 _ _ _ _ _ h2).trans ?_
      push_cast; rw [abs_mul, abs_mul]; simp; linarith
    · simp only [map_sub, map_mul, aeval_C, map_pow, aeval_X, b, b']
      rw [← turn_as_pow Q hQ, ← turn_as_pow Q hQ, turn_nat]
      have e1 : ((8 * t.num : Int) : ℝ) / Q = t := by rw [ht]; simp only [Q]; push_cast; field_simp
      have e2 : ((-(8 * t.num) : Int) : ℝ) / Q = -t := by rw [ht]; simp only [Q]; push_cast; field_simp
      have e3 : ((2 * t.den : Nat) : ℝ) / Q = ((1 : Int) : ℝ) / 4 := by simp only [Q]; push_cast; field_simp; norm_num
      rw [e1, e2, e3, turn_conj_sin, turn_quarter]
      simp [sampleReal, envReal, radians]; ring
  | some (j, tn) =>
    have htn := h j tn rfl
    have htn' : (tn : ℝ) ≠ 0 := by exact_mod_cast htn.ne'
    let Q := 8 * t.den * tn
    have hQ : 0 < Q := by positivity
    let b := ((8 * tn * t.num : Int) % Q).toNat
    let b' := ((-(8 * tn * t.num) : Int) % Q).toNat
    let c := ((4 * t.den * j : Int) % Q).toNat
    let c' := ((-(4 * t.den * j) : Int) % Q).toNat
    refine ⟨Q, C (amp : ℤ) * ((C 2 - X ^ c - X ^ c') * (X ^ b - X ^ b')) - C (8 * k) * X ^ (2 * t.den * tn), hQ, rfl, fun ξ hξ => ?_, ?_⟩
    · have h1 := hn Q hQ ξ hξ
      have h2 : ‖aeval ξ ((C 2 - X ^ c - X ^ c') * (X ^ b - X ^ b') : ℤ[X])‖ ≤ 8 := by
        simp only [map_sub, map_mul, map_pow, aeval_X, eq_intCast, map_intCast]
        rw [norm_mul]
        have h2 : ‖ξ ^ b - ξ ^ b'‖ ≤ 2 := (norm_sub_le _ _).trans (by simp [h1]; norm_num)
        have h5 : ‖((2:ℤ):ℂ) - ξ ^ c - ξ ^ c'‖ ≤ 4 := (norm_sub_le _ _).trans (by
          have := norm_sub_le ((2:ℤ):ℂ) (ξ ^ c)
          simp [h1] at *; linarith)
        have := mul_le_mul h5 h2 (norm_nonneg _) (by positivity)
        linarith
      refine (aeval_bound ξ h1 _ _ _ _ _ h2).trans ?_
      push_cast; rw [abs_mul]; simp; linarith
    · simp only [map_sub, map_mul, aeval_C, map_pow, aeval_X, b, b', c, c']
      rw [← turn_as_pow Q hQ, ← turn_as_pow Q hQ, ← turn_as_pow Q hQ, ← turn_as_pow Q hQ, turn_nat]
      have e1 : ((8 * tn * t.num : Int) : ℝ) / Q = t := by rw [ht]; simp only [Q]; push_cast; field_simp
      have e2 : ((-(8 * tn * t.num) : Int) : ℝ) / Q = -t := by rw [ht]; simp only [Q]; push_cast; field_simp
      have e3 : ((2 * t.den * tn : Nat) : ℝ) / Q = ((1 : Int) : ℝ) / 4 := by simp only [Q]; push_cast; field_simp; norm_num
      have e4 : ((4 * t.den * j : Int) : ℝ) / Q = j / (2 * tn) := by simp only [Q]; push_cast; field_simp; ring
      have e5 : ((-(4 * t.den * j) : Int) : ℝ) / Q = -(j / (2 * tn)) := by simp only [Q]; push_cast; field_simp; ring
      rw [e1, e2, e3, e4, e5, turn_conj_sin, turn_quarter, sub_sub, turn_conj_cos]
      rw [show 2 * Real.pi * ((j:ℝ) / (2 * tn)) = Real.pi * j / tn by field_simp]
      simp [sampleReal, envReal, radians]; ring

/-- A sample value that is not the integer `k` keeps a distance from it. -/
theorem sample_gap (amp : Nat) (env : Option (Nat × Nat)) (t : Rat) (h : ∀ j tn, env = some (j, tn) → 0 < tn) (k : Int)
    (hk : sampleReal amp env t ≠ k) :
    1 ≤ 8 * |sampleReal amp env t - k| * (8 * amp + 8 * |(k:ℝ)| + 1) ^ (8 * t.den * ((env.map Prod.snd).getD 1)) := by
  obtain ⟨Q, C, hQ, hQe, hb, hv⟩ := sample_poly amp env t h k
  have hne : aeval (turn (1 / Q)) C ≠ 0 := by
    rw [hv]
    refine mul_ne_zero (mul_ne_zero (by norm_num) Complex.I_ne_zero) ?_
    rw [Complex.ofReal_ne_zero]; exact sub_ne_zero.2 hk
  have := cyclotomic_lower_bound Q hQ C (8 * amp + 8 * |(k:ℝ)| + 1) (by have := abs_nonneg (k:ℝ); have := Nat.cast_nonneg (α := ℝ) amp; linarith)
    (fun ξ hξ => (hb ξ hξ).trans (by linarith)) _ (turn_prim Q hQ) hne
  rw [hv, norm_mul, norm_mul, Complex.norm_I, Complex.norm_real, Real.norm_eq_abs] at this
  rw [← hQe]
  simpa using this

/-- `quantFuel` without its match. -/
theorem quantFuel_eq (env : Option (Nat × Nat)) (t : Rat) : quantFuel env t = Nat.log2 (8 * t.den * ((env.map Prod.snd).getD 1)) + 3 := by
  cases env <;> rfl

/-- Truncation of a quotient of integers (R15). -/
theorem truncReal_tdiv (n : Int) (D : Nat) (hD : 0 < D) : truncReal ((n:ℝ) / D) = n.tdiv D := by
  have hD' : (0:ℝ) < D := by exact_mod_cast hD
  unfold truncReal
  rcases le_or_gt 0 n with h | h
  · rw [if_pos (div_nonneg (by exact_mod_cast h) hD'.le), Int.tdiv_eq_ediv_of_nonneg h]
    have := Rat.floor_intCast_div_natCast n D
    have h2 : ⌊((n:ℝ) / D)⌋ = ⌊((n:ℚ) / D)⌋ := by
      rw [← Rat.floor_cast (α := ℝ)] ; push_cast; rfl
    rw [h2]; exact this
  · rw [if_neg (by rw [not_le]; exact div_neg_of_neg_of_pos (by exact_mod_cast h) hD')]
    have := Rat.floor_intCast_div_natCast (-n) D
    have h2 : ⌊(((-n : Int):ℝ) / D)⌋ = ⌊(((-n:Int):ℚ) / D)⌋ := by
      rw [← Rat.floor_cast (α := ℝ)] ; push_cast; rfl
    rw [this] at h2
    rw [← neg_neg n, Int.neg_tdiv, Int.tdiv_eq_ediv_of_nonneg (by omega), ← h2, ← Int.ceil_neg]
    congr 1; push_cast; ring

/-- Truncation is monotone. -/
theorem truncReal_mono {a b : ℝ} (h : a ≤ b) : truncReal a ≤ truncReal b := by
  unfold truncReal
  split <;> split
  · exact Int.floor_mono h
  · linarith
  · next h1 h2 => exact (Int.ceil_le.2 (by push_cast; linarith)).trans (Int.floor_nonneg.2 h2)
  · exact Int.ceil_mono h

/-- Between two numbers that truncate differently lies an integer. -/
theorem trunc_between {a b : ℝ} (h : a ≤ b) (hne : truncReal a ≠ truncReal b) : ∃ k : Int, a ≤ k ∧ (k:ℝ) ≤ b := by
  rcases le_or_gt 0 a with ha | ha
  · have hb := ha.trans h
    unfold truncReal at hne
    rw [if_pos ha, if_pos hb] at hne
    have hlt : ⌊a⌋ < ⌊b⌋ := lt_of_le_of_ne (Int.floor_mono h) hne
    exact ⟨⌊b⌋, (Int.floor_lt.1 hlt).le, Int.floor_le b⟩
  · rcases le_or_gt 0 b with hb | hb
    · exact ⟨0, by push_cast; exact ha.le, by push_cast; exact hb⟩
    · unfold truncReal at hne
      rw [if_neg (not_le.2 ha), if_neg (not_le.2 hb)] at hne
      have hlt : ⌈a⌉ < ⌈b⌉ := lt_of_le_of_ne (Int.ceil_mono h) hne
      exact ⟨⌈a⌉, Int.le_ceil a, by
        have := Int.lt_ceil.1 hlt; linarith⟩

/-- An envelope value lies in [0, 1]. -/
theorem envReal_range (env : Option (Nat × Nat)) : 0 ≤ envReal env ∧ envReal env ≤ 1 := by
  match env with
  | none => simp [envReal]
  | some (j, tn) =>
    simp only [envReal]
    have := Real.neg_one_le_cos (Real.pi * j / tn); have := Real.cos_le_one (Real.pi * j / tn)
    constructor <;> linarith

/-- A sample value is at most `AMP` in absolute value. -/
theorem sampleReal_le (amp : Nat) (env : Option (Nat × Nat)) (t : Rat) : |sampleReal amp env t| ≤ amp := by
  have := envReal_range env
  have hs := Real.abs_sin_le_one (radians t)
  unfold sampleReal
  rw [abs_mul, abs_mul, Nat.abs_cast, abs_of_nonneg this.1]
  have h1 : (amp:ℝ) * envReal env ≤ amp * 1 := mul_le_mul_of_nonneg_left this.2 (Nat.cast_nonneg _)
  have h2 := mul_le_mul h1 hs (abs_nonneg _) (by positivity)
  linarith


end Sys2Proof.Machine
end

