-- ==== Sys2Proof/Laws/State.lean ====
section
/-! SUPPORT. One lemma per field per update of the state, so that no proof unfolds a record update. -/

namespace Sys2Proof.Machine

@[simp] theorem Enc.setFault_phase (e : Enc) (x : Option Exc) : (e.setFault x).phase = e.phase := rfl
@[simp] theorem Enc.setFault_fq (e : Enc) (x : Option Exc) : (e.setFault x).fq = e.fq := rfl
@[simp] theorem Enc.setFault_seq (e : Enc) (x : Option Exc) : (e.setFault x).seq = e.seq := rfl
@[simp] theorem Enc.setFault_fault (e : Enc) (x : Option Exc) : (e.setFault x).fault = x := rfl
@[simp] theorem Enc.setFault_pcm (e : Enc) (x : Option Exc) : (e.setFault x).pcm = e.pcm := rfl

@[simp] theorem Enc.appendPcm_phase (e : Enc) (vs : List Sample) : (e.appendPcm vs).phase = e.phase := rfl
@[simp] theorem Enc.appendPcm_fq (e : Enc) (vs : List Sample) : (e.appendPcm vs).fq = e.fq := rfl
@[simp] theorem Enc.appendPcm_seq (e : Enc) (vs : List Sample) : (e.appendPcm vs).seq = e.seq := rfl
@[simp] theorem Enc.appendPcm_fault (e : Enc) (vs : List Sample) : (e.appendPcm vs).fault = e.fault := rfl
@[simp] theorem Enc.appendPcm_pcm (e : Enc) (vs : List Sample) : (e.appendPcm vs).pcm = e.pcm ++ vs := rfl

@[simp] theorem Enc.atStage_phase (e : Enc) (g : Stage) (y : Nat) (k : Fin 3) : (e.atStage g y k).phase = e.phase := rfl
@[simp] theorem Enc.atStage_fq (e : Enc) (g : Stage) (y : Nat) (k : Fin 3) : (e.atStage g y k).fq = e.fq := rfl
@[simp] theorem Enc.atStage_seq (e : Enc) (g : Stage) (y : Nat) (k : Fin 3) : (e.atStage g y k).seq = ⟨g, y, k⟩ := rfl
@[simp] theorem Enc.atStage_fault (e : Enc) (g : Stage) (y : Nat) (k : Fin 3) : (e.atStage g y k).fault = e.fault := rfl
@[simp] theorem Enc.atStage_pcm (e : Enc) (g : Stage) (y : Nat) (k : Fin 3) : (e.atStage g y k).pcm = e.pcm := rfl

@[simp] theorem Dec.setFault_state (d : Dec) (x : Option Exc) : (d.setFault x).state = d.state := rfl
@[simp] theorem Dec.setFault_row (d : Dec) (x : Option Exc) : (d.setFault x).row = d.row := rfl
@[simp] theorem Dec.setFault_acc (d : Dec) (x : Option Exc) : (d.setFault x).acc = d.acc := rfl
@[simp] theorem Dec.setFault_win (d : Dec) (x : Option Exc) : (d.setFault x).win = d.win := rfl
@[simp] theorem Dec.setFault_gp (d : Dec) (x : Option Exc) : (d.setFault x).gp = d.gp := rfl
@[simp] theorem Dec.setFault_gm (d : Dec) (x : Option Exc) : (d.setFault x).gm = d.gm := rfl
@[simp] theorem Dec.setFault_stopped (d : Dec) (x : Option Exc) : (d.setFault x).stopped = d.stopped := rfl
@[simp] theorem Dec.setFault_fault (d : Dec) (x : Option Exc) : (d.setFault x).fault = x := rfl
@[simp] theorem Dec.setFault_sb (d : Dec) (x : Option Exc) : (d.setFault x).sb = d.sb := rfl

@[simp] theorem Dec.setStopped_state (d : Dec) : (d.setStopped).state = d.state := rfl
@[simp] theorem Dec.setStopped_row (d : Dec) : (d.setStopped).row = d.row := rfl
@[simp] theorem Dec.setStopped_acc (d : Dec) : (d.setStopped).acc = d.acc := rfl
@[simp] theorem Dec.setStopped_win (d : Dec) : (d.setStopped).win = d.win := rfl
@[simp] theorem Dec.setStopped_gp (d : Dec) : (d.setStopped).gp = d.gp := rfl
@[simp] theorem Dec.setStopped_gm (d : Dec) : (d.setStopped).gm = d.gm := rfl
@[simp] theorem Dec.setStopped_stopped (d : Dec) : (d.setStopped).stopped = true := rfl
@[simp] theorem Dec.setStopped_fault (d : Dec) : (d.setStopped).fault = d.fault := rfl
@[simp] theorem Dec.setStopped_sb (d : Dec) : (d.setStopped).sb = d.sb := rfl

@[simp] theorem Dec.consume_state (d : Dec) (n : Nat) : (d.consume n).state = d.state := rfl
@[simp] theorem Dec.consume_row (d : Dec) (n : Nat) : (d.consume n).row = d.row := rfl
@[simp] theorem Dec.consume_acc (d : Dec) (n : Nat) : (d.consume n).acc = d.acc := rfl
@[simp] theorem Dec.consume_win (d : Dec) (n : Nat) : (d.consume n).win = d.win := rfl
@[simp] theorem Dec.consume_gp (d : Dec) (n : Nat) : (d.consume n).gp = d.gp := rfl
@[simp] theorem Dec.consume_gm (d : Dec) (n : Nat) : (d.consume n).gm = d.gm := rfl
@[simp] theorem Dec.consume_stopped (d : Dec) (n : Nat) : (d.consume n).stopped = d.stopped := rfl
@[simp] theorem Dec.consume_fault (d : Dec) (n : Nat) : (d.consume n).fault = d.fault := rfl
@[simp] theorem Dec.consume_sb (d : Dec) (n : Nat) : (d.consume n).sb = d.sb.drop n := rfl

@[simp] theorem Dec.appendSb_state (d : Dec) (c : List Sample) : (d.appendSb c).state = d.state := rfl
@[simp] theorem Dec.appendSb_row (d : Dec) (c : List Sample) : (d.appendSb c).row = d.row := rfl
@[simp] theorem Dec.appendSb_acc (d : Dec) (c : List Sample) : (d.appendSb c).acc = d.acc := rfl
@[simp] theorem Dec.appendSb_win (d : Dec) (c : List Sample) : (d.appendSb c).win = d.win := rfl
@[simp] theorem Dec.appendSb_gp (d : Dec) (c : List Sample) : (d.appendSb c).gp = d.gp := rfl
@[simp] theorem Dec.appendSb_gm (d : Dec) (c : List Sample) : (d.appendSb c).gm = d.gm := rfl
@[simp] theorem Dec.appendSb_stopped (d : Dec) (c : List Sample) : (d.appendSb c).stopped = d.stopped := rfl
@[simp] theorem Dec.appendSb_fault (d : Dec) (c : List Sample) : (d.appendSb c).fault = d.fault := rfl
@[simp] theorem Dec.appendSb_sb (d : Dec) (c : List Sample) : (d.appendSb c).sb = d.sb ++ c := rfl

@[simp] theorem HostSide.advancePort_inbox (h : HostSide) (n : Nat) : (h.advancePort n).inbox = h.inbox := rfl
@[simp] theorem HostSide.advancePort_port (h : HostSide) (n : Nat) : (h.advancePort n).port = h.port.drop n := rfl
@[simp] theorem HostSide.advancePort_portCount (h : HostSide) (n : Nat) : (h.advancePort n).portCount = h.portCount + (n - h.port.length) := rfl
@[simp] theorem HostSide.advancePort_img (h : HostSide) (n : Nat) : (h.advancePort n).img = h.img := rfl
@[simp] theorem HostSide.advancePort_raster (h : HostSide) (n : Nat) : (h.advancePort n).raster = h.raster := rfl
@[simp] theorem HostSide.advancePort_handed (h : HostSide) (n : Nat) : (h.advancePort n).handed = h.handed := rfl
@[simp] theorem HostSide.advancePort_result (h : HostSide) (n : Nat) : (h.advancePort n).result = h.result := rfl

@[simp] theorem State.report_cfg (s : State) (r : CmdResult) : (s.report r).cfg = s.cfg := rfl
@[simp] theorem State.report_enc (s : State) (r : CmdResult) : (s.report r).enc = s.enc := rfl
@[simp] theorem State.report_dec (s : State) (r : CmdResult) : (s.report r).dec = s.dec := rfl
@[simp] theorem State.report_inbox (s : State) (r : CmdResult) : (s.report r).host.inbox = s.host.inbox := rfl
@[simp] theorem State.report_port (s : State) (r : CmdResult) : (s.report r).host.port = s.host.port := rfl
@[simp] theorem State.report_portCount (s : State) (r : CmdResult) : (s.report r).host.portCount = s.host.portCount := rfl
@[simp] theorem State.report_img (s : State) (r : CmdResult) : (s.report r).host.img = s.host.img := rfl
@[simp] theorem State.report_raster (s : State) (r : CmdResult) : (s.report r).host.raster = s.host.raster := rfl
@[simp] theorem State.report_handed (s : State) (r : CmdResult) : (s.report r).host.handed = s.host.handed := rfl
@[simp] theorem State.report_result (s : State) (r : CmdResult) : (s.report r).host.result = some r := rfl

@[simp] theorem State.refuse_cfg (s : State) (r : RefuseReason) : (s.refuse r).cfg = s.cfg := rfl
@[simp] theorem State.refuse_enc (s : State) (r : RefuseReason) : (s.refuse r).enc = s.enc := rfl
@[simp] theorem State.refuse_dec (s : State) (r : RefuseReason) : (s.refuse r).dec = s.dec := rfl
@[simp] theorem State.refuse_inbox (s : State) (r : RefuseReason) : (s.refuse r).host.inbox = s.host.inbox := rfl
@[simp] theorem State.refuse_port (s : State) (r : RefuseReason) : (s.refuse r).host.port = s.host.port := rfl
@[simp] theorem State.refuse_portCount (s : State) (r : RefuseReason) : (s.refuse r).host.portCount = s.host.portCount := rfl
@[simp] theorem State.refuse_img (s : State) (r : RefuseReason) : (s.refuse r).host.img = s.host.img := rfl
@[simp] theorem State.refuse_raster (s : State) (r : RefuseReason) : (s.refuse r).host.raster = s.host.raster := rfl
@[simp] theorem State.refuse_handed (s : State) (r : RefuseReason) : (s.refuse r).host.handed = s.host.handed := rfl
@[simp] theorem State.refuse_result (s : State) (r : RefuseReason) : (s.refuse r).host.result = some (.refused r) := rfl

@[simp] theorem State.withEnc_cfg (s : State) (o : EncOut) : (s.withEnc o).cfg = s.cfg := rfl
@[simp] theorem State.withEnc_enc (s : State) (o : EncOut) : (s.withEnc o).enc = o.enc := rfl
@[simp] theorem State.withEnc_dec (s : State) (o : EncOut) : (s.withEnc o).dec = s.dec := rfl
@[simp] theorem State.withEnc_inbox (s : State) (o : EncOut) : (s.withEnc o).host.inbox = s.host.inbox := rfl
@[simp] theorem State.withEnc_port (s : State) (o : EncOut) : (s.withEnc o).host.port = s.host.port := rfl
@[simp] theorem State.withEnc_portCount (s : State) (o : EncOut) : (s.withEnc o).host.portCount = s.host.portCount := rfl
@[simp] theorem State.withEnc_img (s : State) (o : EncOut) : (s.withEnc o).host.img = s.host.img := rfl
@[simp] theorem State.withEnc_raster (s : State) (o : EncOut) : (s.withEnc o).host.raster = s.host.raster := rfl
@[simp] theorem State.withEnc_handed (s : State) (o : EncOut) : (s.withEnc o).host.handed = s.host.handed := rfl
@[simp] theorem State.withEnc_result (s : State) (o : EncOut) : (s.withEnc o).host.result = some o.result := rfl

@[simp] theorem State.withDec_cfg (s : State) (o : DecOut) : (s.withDec o).cfg = s.cfg := rfl
@[simp] theorem State.withDec_enc (s : State) (o : DecOut) : (s.withDec o).enc = s.enc := rfl
@[simp] theorem State.withDec_dec (s : State) (o : DecOut) : (s.withDec o).dec = o.dec := rfl
@[simp] theorem State.withDec_inbox (s : State) (o : DecOut) : (s.withDec o).host.inbox = s.host.inbox := rfl
@[simp] theorem State.withDec_port (s : State) (o : DecOut) : (s.withDec o).host.port = s.host.port := rfl
@[simp] theorem State.withDec_portCount (s : State) (o : DecOut) : (s.withDec o).host.portCount = s.host.portCount := rfl
@[simp] theorem State.withDec_img (s : State) (o : DecOut) : (s.withDec o).host.img = s.host.img := rfl
@[simp] theorem State.withDec_raster (s : State) (o : DecOut) : (s.withDec o).host.raster = o.raster := rfl
@[simp] theorem State.withDec_handed (s : State) (o : DecOut) : (s.withDec o).host.handed = s.host.handed := rfl
@[simp] theorem State.withDec_result (s : State) (o : DecOut) : (s.withDec o).host.result = some o.result := rfl

@[simp] theorem State.withInbox_cfg (s : State) (xs : List HostInput) : (s.withInbox xs).cfg = s.cfg := rfl
@[simp] theorem State.withInbox_enc (s : State) (xs : List HostInput) : (s.withInbox xs).enc = s.enc := rfl
@[simp] theorem State.withInbox_dec (s : State) (xs : List HostInput) : (s.withInbox xs).dec = s.dec := rfl
@[simp] theorem State.withInbox_inbox (s : State) (xs : List HostInput) : (s.withInbox xs).host.inbox = xs := rfl
@[simp] theorem State.withInbox_port (s : State) (xs : List HostInput) : (s.withInbox xs).host.port = s.host.port := rfl
@[simp] theorem State.withInbox_portCount (s : State) (xs : List HostInput) : (s.withInbox xs).host.portCount = s.host.portCount := rfl
@[simp] theorem State.withInbox_img (s : State) (xs : List HostInput) : (s.withInbox xs).host.img = s.host.img := rfl
@[simp] theorem State.withInbox_raster (s : State) (xs : List HostInput) : (s.withInbox xs).host.raster = s.host.raster := rfl
@[simp] theorem State.withInbox_handed (s : State) (xs : List HostInput) : (s.withInbox xs).host.handed = s.host.handed := rfl
@[simp] theorem State.withInbox_result (s : State) (xs : List HostInput) : (s.withInbox xs).host.result = s.host.result := rfl

@[simp] theorem State.bindImage_cfg (s : State) (i : Option Image) : (s.bindImage i).cfg = s.cfg := rfl
@[simp] theorem State.bindImage_enc (s : State) (i : Option Image) : (s.bindImage i).enc = s.enc := rfl
@[simp] theorem State.bindImage_dec (s : State) (i : Option Image) : (s.bindImage i).dec = s.dec := rfl
@[simp] theorem State.bindImage_inbox (s : State) (i : Option Image) : (s.bindImage i).host.inbox = s.host.inbox := rfl
@[simp] theorem State.bindImage_port (s : State) (i : Option Image) : (s.bindImage i).host.port = s.host.port := rfl
@[simp] theorem State.bindImage_portCount (s : State) (i : Option Image) : (s.bindImage i).host.portCount = s.host.portCount := rfl
@[simp] theorem State.bindImage_img (s : State) (i : Option Image) : (s.bindImage i).host.img = i := rfl
@[simp] theorem State.bindImage_raster (s : State) (i : Option Image) : (s.bindImage i).host.raster = s.host.raster := rfl
@[simp] theorem State.bindImage_handed (s : State) (i : Option Image) : (s.bindImage i).host.handed = s.host.handed := rfl
@[simp] theorem State.bindImage_result (s : State) (i : Option Image) : (s.bindImage i).host.result = s.host.result := rfl

@[simp] theorem State.deliver_cfg (s : State) (vs : List Sample) : (s.deliver vs).cfg = s.cfg := rfl
@[simp] theorem State.deliver_enc (s : State) (vs : List Sample) : (s.deliver vs).enc = s.enc := rfl
@[simp] theorem State.deliver_dec (s : State) (vs : List Sample) : (s.deliver vs).dec = s.dec := rfl
@[simp] theorem State.deliver_inbox (s : State) (vs : List Sample) : (s.deliver vs).host.inbox = s.host.inbox := rfl
@[simp] theorem State.deliver_port (s : State) (vs : List Sample) : (s.deliver vs).host.port = s.host.port ++ vs := rfl
@[simp] theorem State.deliver_portCount (s : State) (vs : List Sample) : (s.deliver vs).host.portCount = s.host.portCount := rfl
@[simp] theorem State.deliver_img (s : State) (vs : List Sample) : (s.deliver vs).host.img = s.host.img := rfl
@[simp] theorem State.deliver_raster (s : State) (vs : List Sample) : (s.deliver vs).host.raster = s.host.raster := rfl
@[simp] theorem State.deliver_handed (s : State) (vs : List Sample) : (s.deliver vs).host.handed = s.host.handed := rfl
@[simp] theorem State.deliver_result (s : State) (vs : List Sample) : (s.deliver vs).host.result = s.host.result := rfl

@[simp] theorem State.presentNext_cfg (s : State) (w : CmdWord) : (s.presentNext w).cfg = s.cfg := rfl
@[simp] theorem State.presentNext_enc (s : State) (w : CmdWord) : (s.presentNext w).enc = s.enc := rfl
@[simp] theorem State.presentNext_dec (s : State) (w : CmdWord) : (s.presentNext w).dec = s.dec := rfl
@[simp] theorem State.presentNext_inbox (s : State) (w : CmdWord) : (s.presentNext w).host.inbox = .command w :: s.host.inbox := rfl
@[simp] theorem State.presentNext_port (s : State) (w : CmdWord) : (s.presentNext w).host.port = s.host.port := rfl
@[simp] theorem State.presentNext_portCount (s : State) (w : CmdWord) : (s.presentNext w).host.portCount = s.host.portCount := rfl
@[simp] theorem State.presentNext_img (s : State) (w : CmdWord) : (s.presentNext w).host.img = s.host.img := rfl
@[simp] theorem State.presentNext_raster (s : State) (w : CmdWord) : (s.presentNext w).host.raster = s.host.raster := rfl
@[simp] theorem State.presentNext_handed (s : State) (w : CmdWord) : (s.presentNext w).host.handed = s.host.handed := rfl
@[simp] theorem State.presentNext_result (s : State) (w : CmdWord) : (s.presentNext w).host.result = s.host.result := rfl

@[simp] theorem State.handOver_cfg (s : State) (o : EncOut) : (s.handOver o).cfg = s.cfg := by
  unfold State.handOver; split <;> rfl
@[simp] theorem State.handOver_enc (s : State) (o : EncOut) : (s.handOver o).enc = s.enc := by
  unfold State.handOver; split <;> rfl
@[simp] theorem State.handOver_dec (s : State) (o : EncOut) : (s.handOver o).dec = s.dec := by
  unfold State.handOver; split <;> rfl
@[simp] theorem State.handOver_inbox (s : State) (o : EncOut) : (s.handOver o).host.inbox = s.host.inbox := by
  unfold State.handOver; split <;> rfl
@[simp] theorem State.handOver_port (s : State) (o : EncOut) : (s.handOver o).host.port = s.host.port := by
  unfold State.handOver; split <;> rfl
@[simp] theorem State.handOver_portCount (s : State) (o : EncOut) : (s.handOver o).host.portCount = s.host.portCount := by
  unfold State.handOver; split <;> rfl
@[simp] theorem State.handOver_img (s : State) (o : EncOut) : (s.handOver o).host.img = s.host.img := by
  unfold State.handOver; split <;> rfl
@[simp] theorem State.handOver_raster (s : State) (o : EncOut) : (s.handOver o).host.raster = s.host.raster := by
  unfold State.handOver; split <;> rfl
@[simp] theorem State.handOver_result (s : State) (o : EncOut) : (s.handOver o).host.result = s.host.result := by
  unfold State.handOver; split <;> rfl
@[simp] theorem State.handOver_handed (s : State) (o : EncOut) :
    (s.handOver o).host.handed = if o.raised = none then s.host.handed ++ [o.enc.pcm] else s.host.handed := by
  unfold State.handOver; cases h : o.raised <;> simp

@[simp] theorem State.deviceError_enc_unit (s : State) :
    s.deviceError .enc = { s with enc := s.enc.setFault (some .deviceError) } := rfl
@[simp] theorem State.deviceError_dec_unit (s : State) :
    s.deviceError .dec = { s with dec := s.dec.setFault (some .deviceError) } := rfl
@[simp] theorem State.deviceError_cfg (s : State) (u : UnitId) : (s.deviceError u).cfg = s.cfg := by
  cases u <;> rfl
@[simp] theorem State.deviceError_host (s : State) (u : UnitId) : (s.deviceError u).host = s.host := by
  cases u <;> rfl

@[simp] theorem Acc.setLine_zero (a : Acc) (vs : List ChannelValue) : a.setLine 0 vs = { a with green := vs } := rfl
@[simp] theorem Acc.setLine_one (a : Acc) (vs : List ChannelValue) : a.setLine 1 vs = { a with blue := vs } := rfl
@[simp] theorem Acc.setLine_two (a : Acc) (vs : List ChannelValue) : a.setLine 2 vs = { a with red := vs } := rfl

@[simp] theorem encOk_enc (e : Enc) : (encOk e).enc = e := rfl
@[simp] theorem encOk_raised (e : Enc) : (encOk e).raised = none := rfl
@[simp] theorem encOk_result (e : Enc) : (encOk e).result = .ok := rfl
@[simp] theorem encRaise_enc (e : Enc) (x : Raise) : (encRaise e x).enc = e.setFault (some x.exc) := rfl
@[simp] theorem encRaise_raised (e : Enc) (x : Raise) : (encRaise e x).raised = some x := rfl
@[simp] theorem encRaise_result (e : Enc) (x : Raise) : (encRaise e x).result = .raised x := rfl
@[simp] theorem decRaise_dec (d : Dec) (r : List RasterCall) (x : Raise) : (decRaise d r x).dec = d := rfl
@[simp] theorem decRaise_raster (d : Dec) (r : List RasterCall) (x : Raise) : (decRaise d r x).raster = r := rfl
@[simp] theorem decRaise_result (d : Dec) (r : List RasterCall) (x : Raise) : (decRaise d r x).result = .raised x := rfl
@[simp] theorem decHold_dec (d : Dec) (r : List RasterCall) (h : Hold) : (decHold d r h).dec = d := rfl
@[simp] theorem decHold_raster (d : Dec) (r : List RasterCall) (h : Hold) : (decHold d r h).raster = r := rfl
@[simp] theorem decHold_result (d : Dec) (r : List RasterCall) (h : Hold) : (decHold d r h).result = .held h := rfl
@[simp] theorem EncOut.andThen_encOk (e : Enc) (f : Enc → EncOut) : (encOk e).andThen f = f e := rfl
@[simp] theorem EncOut.andThen_encRaise (e : Enc) (x : Raise) (f : Enc → EncOut) :
    (encRaise e x).andThen f = encRaise e x := rfl

end Sys2Proof.Machine
end

