-- ==== Sys2Proof/Laws/Memory.lean ====
section
/-! SUPPORT. The laws of the pixel store, of the stream buffer and of the wire format. -/

namespace Sys2Proof.Machine

@[simp] theorem Memory.read_nil (a : Nat) : Memory.read [] a = 0 := rfl

theorem Memory.read_cons (b : Nat) (v : PixelWord) (m : Memory) (a : Nat) :
    Memory.read ((b, v) :: m) a = if a = b then v else Memory.read m a := rfl

theorem Memory.wf_iff (m : Memory) :
    Memory.wf m = true ↔ (m.Pairwise fun a b => a.1 < b.1) ∧ ∀ t ∈ m, t.2 ≠ 0 := by
  simp [Memory.wf]

/-- An address below every listed one reads as 0x000000. -/
theorem Memory.read_of_lt (m : Memory) (a : Nat) (h : ∀ t ∈ m, a < t.1) : Memory.read m a = 0 := by
  induction m with
  | nil => rfl
  | cons t m ih =>
    have h1 : a < t.1 := h t (by simp)
    rw [show t = (t.1, t.2) from rfl, Memory.read_cons, if_neg (by omega)]
    exact ih fun u hu => h u (by simp [hu])

/-- Every address listed after a write was listed before it, or is the written one. -/
theorem Memory.mem_write (m : Memory) (a : Nat) (v : PixelWord) (t : Nat × PixelWord)
    (h : t ∈ Memory.write m a v) : t ∈ m ∨ (t = (a, v) ∧ v ≠ 0) := by
  induction m with
  | nil =>
    unfold Memory.write at h
    split at h <;> simp_all
  | cons u m ih =>
    obtain ⟨b, w⟩ := u
    unfold Memory.write at h
    split_ifs at h <;> simp only [List.mem_cons] at h ⊢ <;> grind

/-- Every write keeps the canonical form. -/
theorem Memory.wf_write (m : Memory) (a : Nat) (v : PixelWord) (h : Memory.wf m = true) :
    Memory.wf (Memory.write m a v) = true := by
  rw [Memory.wf_iff] at h ⊢
  obtain ⟨hp, hz⟩ := h
  refine ⟨?_, fun t ht => ?_⟩
  · induction m with
    | nil => unfold Memory.write; split <;> simp
    | cons u m ih =>
      obtain ⟨b, w⟩ := u
      rw [List.pairwise_cons] at hp
      have ih := ih hp.2 fun t ht => hz t (by simp [ht])
      unfold Memory.write
      split_ifs with h1 h2 h3 h4
      · exact List.pairwise_cons.2 hp
      · refine List.pairwise_cons.2 ⟨fun t ht => ?_, List.pairwise_cons.2 hp⟩
        rcases List.mem_cons.1 ht with rfl | ht
        · exact h1
        · exact lt_trans h1 (hp.1 t ht)
      · exact hp.2
      · exact List.pairwise_cons.2 ⟨fun t ht => h3 ▸ hp.1 t ht, hp.2⟩
      · refine List.pairwise_cons.2 ⟨fun t ht => ?_, ih⟩
        rcases Memory.mem_write m a v t ht with ht | ⟨rfl, _⟩
        · exact hp.1 t ht
        · simp only; omega
  · rcases Memory.mem_write m a v t ht with ht | ⟨rfl, h0⟩
    · exact hz t ht
    · exact h0

/-- A read after a write to the same address gives the word written. -/
theorem Memory.read_write_same (m : Memory) (a : Nat) (v : PixelWord) (h : Memory.wf m = true) :
    Memory.read (Memory.write m a v) a = v := by
  have hp := ((Memory.wf_iff m).1 h).1
  clear h
  induction m with
  | nil => unfold Memory.write; split <;> simp_all [Memory.read_cons]
  | cons u m ih =>
    obtain ⟨b, w⟩ := u
    rw [List.pairwise_cons] at hp
    unfold Memory.write
    split_ifs with h1 h2 h3 h4
    · rw [Memory.read_cons, if_neg (by omega), h2]
      exact Memory.read_of_lt m a fun t ht => lt_trans h1 (hp.1 t ht)
    · simp [Memory.read_cons]
    · rw [h4]; exact Memory.read_of_lt m a fun t ht => h3 ▸ hp.1 t ht
    · simp [Memory.read_cons]
    · rw [Memory.read_cons, if_neg h3]; exact ih hp.2

/-- A write leaves every other address alone. -/
theorem Memory.read_write_other (m : Memory) (a c : Nat) (v : PixelWord) (hne : c ≠ a) :
    Memory.read (Memory.write m a v) c = Memory.read m c := by
  induction m with
  | nil => unfold Memory.write; split <;> simp [Memory.read_cons, hne]
  | cons u m ih =>
    obtain ⟨b, w⟩ := u
    unfold Memory.write
    split_ifs with h1 h2 h3 h4 <;> simp only [Memory.read_cons]
    · rw [if_neg hne]
    · rw [if_neg (h3 ▸ hne)]
    · rw [if_neg hne, if_neg (h3 ▸ hne)]
    · rw [ih]

/-- Nothing is bound at reset, so the image side of the invariant holds. -/
theorem reset_images_ok : ImageOk State.reset.host.img ∧ ∀ x ∈ State.reset.host.inbox, InputOk x :=
  ⟨trivial, fun x hx => by simp [State.reset, HostSide.initial] at hx⟩

/-- Building an image pixel by pixel keeps its store in canonical form. -/
theorem Image.write_ok (img : Image) (x y : Nat) (v : PixelWord) (h : Memory.wf img.pixels = true) :
    ImageOk (some (img.write x y v)) := Memory.wf_write _ _ _ h

/-- A peek takes from the head what a consume of the same count removes. -/
theorem sbPeek_append_consume (d : Dec) (n : Nat) : sbPeek d 0 n ++ (d.consume n).sb = d.sb := by
  simp [sbPeek, Dec.consume]

/-- A peek gives as many samples as it asks for when they are there. -/
theorem sbPeek_length (d : Dec) (i n : Nat) (h : i + n ≤ d.sb.length) : (sbPeek d i n).length = n := by
  simp [sbPeek]; omega

/-- Samples appended behind a window do not change a peek of it. -/
theorem sbPeek_appendSb (d : Dec) (c : List Sample) (i n : Nat) (h : i + n ≤ d.sb.length) :
    sbPeek (d.appendSb c) i n = sbPeek d i n := by
  simp only [sbPeek, Dec.appendSb_sb]
  rw [List.drop_append_of_le_length (by omega), List.take_append_of_le_length (by simp; omega)]

/-- The port gives as many samples as are asked for. -/
@[simp] theorem portSamples_length (h : HostSide) (n : Nat) : (portSamples h n).length = n := by
  simp [portSamples]; omega

/-- Delivered samples are taken in order. -/
theorem portSamples_of_le (h : HostSide) (n : Nat) (hn : n ≤ h.port.length) : portSamples h n = h.port.take n := by
  simp [portSamples, Nat.sub_eq_zero_of_le hn]

end Sys2Proof.Machine
end

