-- ==== Sys2Proof/Laws/Ops.lean ====
section
/-! SUPPORT. For each shared operation, once, what it can do. -/

namespace Sys2Proof.Machine

/-! ### Commands and their latches -/

theorem encCommand_of_not_blocked (s : State) (op : Enc → EncOut) (h : encBlocked s.enc = false) :
    encCommand s op = .next (s.withEnc (op s.enc)) := by simp [encCommand, h]

theorem encCommand_of_blocked (s : State) (op : Enc → EncOut) (h : encBlocked s.enc = true) :
    encCommand s op = .next (s.refuse .encFaulted) := by simp [encCommand, h]

/-- A command of `ENC` answers a next state: refused, or the operation's. -/
theorem encCommand_cases (s : State) (op : Enc → EncOut) :
    (encBlocked s.enc = true ∧ encCommand s op = .next (s.refuse .encFaulted))
      ∨ (encBlocked s.enc = false ∧ encCommand s op = .next (s.withEnc (op s.enc))) := by
  cases h : encBlocked s.enc
  · exact .inr ⟨rfl, encCommand_of_not_blocked s op h⟩
  · exact .inl ⟨rfl, encCommand_of_blocked s op h⟩

theorem decCommand_of_not_blocked (s : State) (op : Dec → List RasterCall → DecOut) (h : decBlocked s.dec = false) :
    decCommand s op = .next (s.withDec (op s.dec s.host.raster)) := by simp [decCommand, h]

theorem decCommand_of_blocked (s : State) (op : Dec → List RasterCall → DecOut) (h : decBlocked s.dec = true) :
    decCommand s op = .next (s.refuse .decFaulted) := by simp [decCommand, h]

/-- A command of `DEC` answers a next state: refused, or the operation's. -/
theorem decCommand_cases (s : State) (op : Dec → List RasterCall → DecOut) :
    (decBlocked s.dec = true ∧ decCommand s op = .next (s.refuse .decFaulted))
      ∨ (decBlocked s.dec = false ∧ decCommand s op = .next (s.withDec (op s.dec s.host.raster))) := by
  cases h : decBlocked s.dec
  · exact .inr ⟨rfl, decCommand_of_not_blocked s op h⟩
  · exact .inl ⟨rfl, decCommand_of_blocked s op h⟩

/-- The next operation of a sequence runs, or an exception has ended it. -/
theorem EncOut.andThen_cases (o : EncOut) (f : Enc → EncOut) :
    (o.raised = none ∧ o.andThen f = f o.enc) ∨ (o.raised ≠ none ∧ o.andThen f = o) := by
  unfold EncOut.andThen
  cases o.raised <;> simp

/-! ### Rendering -/

@[simp] theorem renderSamples_zero (c : Config) (f : Nat → Rat) (v : Nat → Option (Nat × Nat)) (i : Nat) (φ : Rat) :
    renderSamples c f v 0 i φ = ([], φ) := rfl

/-- A segment has as many samples as it was asked for. -/
@[simp] theorem renderSamples_length (c : Config) (f : Nat → Rat) (v : Nat → Option (Nat × Nat)) (n i : Nat) (φ : Rat) :
    (renderSamples c f v n i φ).1.length = n := by
  induction n generalizing i φ with
  | zero => rfl
  | succ n ih => simp [renderSamples, ih]

/-- A segment of one frequency advances the phase by `n` increments. -/
theorem renderSamples_phase_const (c : Config) (f : Rat) (v : Nat → Option (Nat × Nat)) (n i : Nat) (φ : Rat) :
    (renderSamples c (fun _ => f) v n i φ).2 = φ + n * (f / c.sampleRate) := by
  induction n generalizing i φ with
  | zero => simp
  | succ n ih => simp only [renderSamples, ih, advancePhase]; push_cast; ring

theorem renderTone_of_neg (c : Config) (f : Nat) (dur : Int) (taper : Bool) (e : Enc) (h : dur < 0) :
    renderTone c f dur taper e = encRaise e (.precondition (.negativeDuration dur)) := by simp [renderTone, h]

/-- A tone writes `N(dur)` samples and advances the phase by as many increments. -/
theorem renderTone_of_nonneg (c : Config) (f : Nat) (dur : Int) (taper : Bool) (e : Enc) (h : 0 ≤ dur) :
    renderTone c f dur taper e =
      encOk (renderSegment c (fun _ => f)
        (fun i => if taper then envelope c i (sampleCount c dur.toNat) else none) (sampleCount c dur.toNat) e) := by
  simp [renderTone, not_lt.2 h]

/-- The samples of a segment in closed form: sample `j` at the phase after `j + 1` advances. -/
theorem renderSamples_map (c : Config) (f : Nat → Rat) (v : Nat → Option (Nat × Nat)) (n i : Nat) (φ : Rat) :
    (renderSamples c f v n i φ).1 = (List.range n).map fun j =>
      renderedSample c (v (i + j)) (φ + ((List.range (j + 1)).map fun k => f (i + k)).sum / c.sampleRate) := by
  induction n generalizing i φ with
  | zero => rfl
  | succ n ih =>
    rw [List.range_succ_eq_map, List.map_cons, List.map_map]
    simp only [renderSamples, ih, advancePhase]
    refine congrArg₂ _ (by simp) (List.map_congr_left fun j _ => ?_)
    simp only [Function.comp]
    rw [List.range_succ_eq_map (n := j + 1), List.map_cons, List.map_map, List.sum_cons]
    rw [show i + 1 + j = i + j.succ from by omega]
    congr 1
    rw [add_assoc, add_div, add_zero]
    congr 3
    refine congrArg _ (List.map_congr_left fun k _ => ?_)
    simp only [Function.comp]
    rw [show i + 1 + k = i + k.succ from by omega]

/-- The phase after a segment in closed form. -/
theorem renderSamples_phase_map (c : Config) (f : Nat → Rat) (v : Nat → Option (Nat × Nat)) (n i : Nat) (φ : Rat) :
    (renderSamples c f v n i φ).2 = φ + ((List.range n).map fun k => f (i + k)).sum / c.sampleRate := by
  induction n generalizing i φ with
  | zero => simp
  | succ n ih =>
    simp only [renderSamples, ih, advancePhase]
    rw [List.range_succ_eq_map, List.map_cons, List.map_map, List.sum_cons, add_assoc, add_div, add_zero]
    congr 3
    refine congrArg _ (List.map_congr_left fun k _ => ?_)
    simp only [Function.comp]
    rw [show i + 1 + k = i + k.succ from by omega]

/-- A tone in closed form. -/
theorem renderTone_eq (c : Config) (f : Nat) (dur : Int) (taper : Bool) (e : Enc) (h : 0 ≤ dur) :
    renderTone c f dur taper e = encOk { e with
      phase := e.phase + sampleCount c dur.toNat * (f : Rat) / c.sampleRate
      pcm := e.pcm ++ toneSamples c f (sampleCount c dur.toNat) taper e.phase } := by
  rw [renderTone_of_nonneg c f dur taper e h]
  unfold renderSegment
  dsimp only [Enc.appendPcm]
  rw [renderSamples_map, renderSamples_phase_map]
  congr 2
  · simp
  · congr 1
    refine List.map_congr_left fun j _ => ?_
    simp

@[simp] theorem renderSegment_seq (c : Config) (f : Nat → Rat) (v : Nat → Option (Nat × Nat)) (n : Nat) (e : Enc) :
    (renderSegment c f v n e).seq = e.seq := rfl

@[simp] theorem renderSegment_fault (c : Config) (f : Nat → Rat) (v : Nat → Option (Nat × Nat)) (n : Nat) (e : Enc) :
    (renderSegment c f v n e).fault = e.fault := rfl

@[simp] theorem renderSegment_fq (c : Config) (f : Nat → Rat) (v : Nat → Option (Nat × Nat)) (n : Nat) (e : Enc) :
    (renderSegment c f v n e).fq = e.fq := rfl

@[simp] theorem renderSegment_pcm (c : Config) (f : Nat → Rat) (v : Nat → Option (Nat × Nat)) (n : Nat) (e : Enc) :
    (renderSegment c f v n e).pcm = e.pcm ++ (renderSamples c f v n 0 e.phase).1 := rfl

@[simp] theorem renderSegment_phase (c : Config) (f : Nat → Rat) (v : Nat → Option (Nat × Nat)) (n : Nat) (e : Enc) :
    (renderSegment c f v n e).phase = (renderSamples c f v n 0 e.phase).2 := rfl

/-- A sweep raises, or renders over a line that is not empty with at least one sample a pixel. -/
theorem renderSweep_cases (c : Config) (dur : Int) (e : Enc) :
    (∃ cause, renderSweep c dur e = encRaise e (.precondition cause))
      ∨ (0 ≤ dur ∧ 0 < e.fq.length ∧ 0 < sampleCount c dur.toNat / e.fq.length ∧
        renderSweep c dur e =
          encOk (renderSegment c (sweepFreq e.fq (sampleCount c dur.toNat / e.fq.length))
            (fun i => envelope c i (sampleCount c dur.toNat)) (sampleCount c dur.toNat) e)) := by
  unfold renderSweep
  dsimp only
  split_ifs with h1 h2 h3
  · exact .inl ⟨_, rfl⟩
  · exact .inl ⟨_, rfl⟩
  · exact .inl ⟨_, rfl⟩
  · exact .inr ⟨by omega, by omega, Nat.pos_of_ne_zero h3, rfl⟩

/-- Silence never raises. -/
@[simp] theorem renderSilence_raised (c : Config) (dur : Int) (e : Enc) : (renderSilence c dur e).raised = none := by
  unfold renderSilence; split <;> rfl

/-- A channel load raises, or fills the line with the frequencies of the row. -/
theorem loadChannel_cases (c : Config) (img : Option Image) (ch : Fin 3) (y : Nat) (e : Enc) :
    (∃ x, (x = .malformedInput ∨ x = .precondition .rowOutOfRange) ∧ loadChannel c img ch y e = encRaise e x)
      ∨ (∃ im, img = some im ∧ 0 < im.width ∧ y < im.height ∧
        loadChannel c img ch y e =
          encOk { e with fq := (List.range im.width).map fun x => fmap c (chx (im.read x y) ch).toNat }) := by
  unfold loadChannel
  split
  · exact .inl ⟨_, .inl rfl, rfl⟩
  · rename_i im
    split_ifs with h1 h2
    · exact .inl ⟨_, .inl rfl, rfl⟩
    · exact .inl ⟨_, .inr rfl, rfl⟩
    · exact .inr ⟨im, rfl, by omega, by omega, rfl⟩

/-! ### The decoder's actions -/

/-- `VISDET` underruns, matches or holds. -/
theorem visdetAction_cases (c : Config) (d : Dec) (r : List RasterCall) :
    (d.sb.length < c.visSlotsRequired * sampleCount c c.bitUs ∧ visdetAction c d r = decRaise d r .bufferUnderrun)
      ∨ (c.visSlotsRequired * sampleCount c c.bitUs ≤ d.sb.length ∧ visByte c d = c.visCode ∧
        visdetAction c d r =
          ⟨{ d.consume (c.visConsumeSlots * sampleCount c c.bitUs) with row := 0, state := .awaitingSync },
            r ++ [.reset c.width c.height], .ok⟩)
      ∨ (c.visSlotsRequired * sampleCount c c.bitUs ≤ d.sb.length ∧ visByte c d ≠ c.visCode ∧
        visdetAction c d r = decHold d r .protocolMismatch) := by
  unfold visdetAction
  dsimp only
  split_ifs with h1 h2
  · exact .inl ⟨h1, rfl⟩
  · exact .inr (.inl ⟨not_lt.1 h1, h2, rfl⟩)
  · exact .inr (.inr ⟨not_lt.1 h1, h2, rfl⟩)

/-- A tone test underruns, detects or holds. -/
theorem toneAction_cases (c : Config) (f n : Nat) (next : DecState) (d : Dec) (r : List RasterCall) :
    (d.sb.length < n ∧ toneAction c f n next d r = decRaise d r .bufferUnderrun)
      ∨ (n ≤ d.sb.length ∧ toneDetected c f (sbPeek d 0 n) = true ∧
        toneAction c f n next d r = ⟨{ d.consume n with state := next }, r, .ok⟩)
      ∨ (n ≤ d.sb.length ∧ toneDetected c f (sbPeek d 0 n) = false ∧
        toneAction c f n next d r = decHold d r .toneAbsent) := by
  unfold toneAction
  split_ifs with h1 h2
  · exact .inl ⟨h1, rfl⟩
  · exact .inr (.inl ⟨not_lt.1 h1, h2, rfl⟩)
  · exact .inr (.inr ⟨not_lt.1 h1, by simpa using h2, rfl⟩)

/-- `ROWOUT` refuses, or emits the row. -/
theorem rowoutAction_cases (c : Config) (d : Dec) (r : List RasterCall) :
    (∃ x, rowoutAction c d r = ⟨d, r, .refused x⟩)
      ∨ (d.row < c.height ∧ d.acc.written c.width = true ∧
        rowoutAction c d r =
          ⟨{ d with row := d.row + 1, state := if d.row + 1 = c.height then .awaitingVIS else .awaitingSync },
            r ++ rowCalls d.acc c.width d.row, .ok⟩) := by
  by_cases h1 : c.height ≤ d.row
  · exact .inl ⟨_, if_pos h1⟩
  by_cases h2 : d.acc.written c.width = false
  · exact .inl ⟨.accUnwritten, by rw [rowoutAction, if_neg h1, if_pos h2]⟩
  · exact .inr ⟨by omega, by simpa using h2, by rw [rowoutAction, if_neg h1, if_neg h2]⟩

@[simp] theorem channelLine_length (c : Config) (d : Dec) (spp : Nat) : (channelLine c d spp).length = c.width := by
  simp [channelLine]

@[simp] theorem rowCalls_length (a : Acc) (w row : Nat) : (rowCalls a w row).length = w := by simp [rowCalls]

/-- An operation of `ENC` ends normally or raises: it never answers a refusal. -/
theorem EncOut.result_ne_refused (o : EncOut) (x : RefuseReason) : o.result ≠ .refused x := by
  unfold EncOut.result
  split <;> simp

/-- A row of width `w` is written when each of the three lines has its entries (R33). -/
theorem Acc.written_iff (a : Acc) (w : Nat) :
    a.written w = true ↔ w ≤ a.green.length ∧ w ≤ a.blue.length ∧ w ≤ a.red.length := by
  simp [Acc.written, and_assoc]

/-- `ROWOUT` at the end of the frame (R256). -/
theorem rowoutAction_of_end (c : Config) (d : Dec) (r : List RasterCall) (h : c.height ≤ d.row) :
    rowoutAction c d r = ⟨d, r, .refused .rowOutOfFrame⟩ := if_pos h

/-- `ROWOUT` over an entry without a value (R33). -/
theorem rowoutAction_of_unwritten (c : Config) (d : Dec) (r : List RasterCall) (h : d.row < c.height)
    (hw : ¬ (c.width ≤ d.acc.green.length ∧ c.width ≤ d.acc.blue.length ∧ c.width ≤ d.acc.red.length)) :
    rowoutAction c d r = ⟨d, r, .refused .accUnwritten⟩ := by
  rw [← Acc.written_iff, Bool.not_eq_true] at hw
  exact (if_neg (not_le.2 h)).trans (if_pos hw)

/-- `CHDEC 2` with a scan's samples buffered: Red, then `ROWOUT` (R252). -/
theorem chdecAction_red (c : Config) (d : Dec) (r : List RasterCall) (h : sampleCount c c.scanUs ≤ d.sb.length) :
    chdecAction c 2 d r =
      rowoutAction c
        { d.consume (c.width * (sampleCount c c.scanUs / c.width)) with
          acc := { d.acc with red := channelLine c d (sampleCount c c.scanUs / c.width) } } r :=
  if_neg (not_lt.2 h)

/-- The steps of a pass end with the outcome `ok` (R262). -/
theorem passLoop_result (c : Config) (n : Nat) (d : Dec) (r : List RasterCall) : (passLoop c n d r).result = .ok := by
  induction n generalizing d r with
  | zero => rfl
  | succ n ih =>
    unfold passLoop
    dsimp only
    split
    · exact ih _ _
    · rfl

/-- A pass ends with the outcome `ok` (R262). -/
theorem passAction_result (c : Config) (d : Dec) (r : List RasterCall) : (passAction c d r).result = .ok := by
  unfold passAction
  split
  · rfl
  · exact passLoop_result _ _ _ _

/-- `CHDEC` underruns on a short buffer. -/
theorem chdecAction_underrun (c : Config) (k : Fin 3) (d : Dec) (r : List RasterCall)
    (h : d.sb.length < sampleCount c c.scanUs) : chdecAction c k d r = decRaise d r .bufferUnderrun := by
  simp [chdecAction, h]

/-- The step of a good configuration takes the next input. -/
theorem step_of_valid (s : State) (h : ConfigValid s.cfg) :
    step s = match fetch s with | .run i s' => exec i s' | .settled o => o := by
  unfold step; exact if_pos h

/-- Tapered tones of one duration in order: the phase runs on, each tone's samples follow the one before (R172). -/
theorem renderTone_fold (c : Config) (dur : Int) (h : 0 ≤ dur) (fs : List Nat) (e : Enc) :
    fs.foldl (fun o f => o.andThen (renderTone c f dur true)) (encOk e) = encOk { e with
      phase := e.phase + ((fs.sum * sampleCount c dur.toNat : Nat) : Rat) / c.sampleRate
      pcm := e.pcm ++ (List.range fs.length).flatMap fun j => toneSamples c (fs.getD j 0) (sampleCount c dur.toNat) true
        (e.phase + (((fs.take j).sum * sampleCount c dur.toNat : Nat) : Rat) / c.sampleRate) } := by
  induction fs generalizing e with
  | nil => simp
  | cons f fs ih =>
    rw [List.foldl_cons, EncOut.andThen_encOk, renderTone_eq _ _ _ _ _ h, ih]
    congr 2
    · simp only [List.sum_cons]; push_cast; ring
    · simp only [List.length_cons]
      rw [List.range_succ_eq_map, List.flatMap_cons, List.flatMap_map, ← List.append_assoc]
      congr 1
      · simp
      · congr 1
        funext j
        simp only [List.getD_cons_succ, List.take_succ_cons, List.sum_cons]
        congr 1
        push_cast; ring

/-- `BITS` as the tones of its bits (R172). -/
theorem renderBits_eq_fold (c : Config) (bits : List Bool) (dur : Int) (e : Enc) :
    renderBits c bits dur e = (bits.map fun b => if b then c.fskF1 else c.fskF0).foldl
      (fun o f => o.andThen (renderTone c f dur true)) (encOk e) := by
  unfold renderBits; rw [List.foldl_map]

/-! ### Trains of tones -/

/-- A train of tones in two parts: the second starts at the first's last phase. -/
theorem toneTrain_append (c : Config) (φ : Rat) (a b : List (Nat × Nat)) :
    toneTrain c φ (a ++ b) = ((toneTrain c φ a).1 ++ (toneTrain c (toneTrain c φ a).2 b).1,
      (toneTrain c (toneTrain c φ a).2 b).2) := by
  induction a generalizing φ with
  | nil => simp [toneTrain]
  | cons p a ih => simp [toneTrain, ih]

/-- Tapered tones in order render their train. -/
theorem renderTone_train (c : Config) (l : List (Nat × Nat)) (e : Enc) :
    l.foldl (fun o p => o.andThen (renderTone c p.1 (p.2 : Nat) true)) (encOk e)
      = encOk { e with
          phase := (toneTrain c e.phase l).2
          pcm := e.pcm ++ (toneTrain c e.phase l).1 } := by
  induction l generalizing e with
  | nil => simp [toneTrain]
  | cons p l ih =>
    rw [List.foldl_cons, EncOut.andThen_encOk, renderTone_eq _ _ _ _ _ (by omega), ih]
    simp [toneTrain]

end Sys2Proof.Machine
end

