-- ==== Sys2Proof/Laws/PerInstr.lean ====
section
/-! SUPPORT. Families of statements made per instruction: the fields of the encoded word (30_encoding.md R90, R92). -/

namespace Sys2Proof

theorem opcField_packWord (o m : BitVec 8) (a : BitVec 16) (d : BitVec 32) : opcField (packWord o m a d) = o := by
  apply BitVec.eq_of_getLsbD_eq
  intro i hi
  simp only [opcField, packWord, BitVec.getLsbD_extractLsb', BitVec.getLsbD_append, hi, decide_true, Bool.true_and]
  rw [if_neg (by omega), if_neg (by omega), if_neg (by omega)]
  congr 1; omega

theorem modField_packWord (o m : BitVec 8) (a : BitVec 16) (d : BitVec 32) : modField (packWord o m a d) = m := by
  apply BitVec.eq_of_getLsbD_eq
  intro i hi
  simp only [modField, packWord, BitVec.getLsbD_extractLsb', BitVec.getLsbD_append, hi, decide_true, Bool.true_and]
  rw [if_neg (by omega), if_neg (by omega), if_pos (by omega)]
  congr 1; omega

theorem aField_packWord (o m : BitVec 8) (a : BitVec 16) (d : BitVec 32) : aField (packWord o m a d) = a := by
  apply BitVec.eq_of_getLsbD_eq
  intro i hi
  simp only [aField, packWord, BitVec.getLsbD_extractLsb', BitVec.getLsbD_append, hi, decide_true, Bool.true_and]
  rw [if_neg (by omega), if_pos (by omega)]
  congr 1; omega

theorem dField_packWord (o m : BitVec 8) (a : BitVec 16) (d : BitVec 32) : dField (packWord o m a d) = d := by
  apply BitVec.eq_of_getLsbD_eq
  intro i hi
  simp only [dField, packWord, BitVec.getLsbD_extractLsb', BitVec.getLsbD_append, hi, decide_true, Bool.true_and]
  rw [if_pos (by omega)]
  congr 1; omega

/-- The four fields of the encoded word are the ones the command's format gives. -/
def Laws.EncodedFields.Statement (i : Instr) : Prop :=
  opcField (encode i) = opcodeOf i ∧ modField (encode i) = modOf i ∧ aField (encode i) = aOf i
    ∧ dField (encode i) = dOf i

theorem encodedFields_holds (i : Instr) : Laws.EncodedFields.Statement i :=
  ⟨opcField_packWord .., modField_packWord .., aField_packWord .., dField_packWord ..⟩

theorem Laws.EncodedFields.padv (x : BitVec 16) : Laws.EncodedFields.Statement (.padv x) := encodedFields_holds _
theorem Laws.EncodedFields.tone (x : BitVec 16) (y : BitVec 32) (z : Bool) : Laws.EncodedFields.Statement (.tone x y z) := encodedFields_holds _
theorem Laws.EncodedFields.sweep (x : BitVec 32) : Laws.EncodedFields.Statement (.sweep x) := encodedFields_holds _
theorem Laws.EncodedFields.bits (x : BitVec 4) (y : BitVec 8) (z : BitVec 32) : Laws.EncodedFields.Statement (.bits x y z) := encodedFields_holds _
theorem Laws.EncodedFields.sil (x : BitVec 32) : Laws.EncodedFields.Statement (.sil x) := encodedFields_holds _
theorem Laws.EncodedFields.ldch (x : BitVec 2) (y : BitVec 16) : Laws.EncodedFields.Statement (.ldch x y) := encodedFields_holds _
theorem Laws.EncodedFields.ereset : Laws.EncodedFields.Statement .ereset := encodedFields_holds _
theorem Laws.EncodedFields.encode (x : BitVec 8) : Laws.EncodedFields.Statement (.encode x) := encodedFields_holds _
theorem Laws.EncodedFields.append (x : BitVec 32) : Laws.EncodedFields.Statement (.append x) := encodedFields_holds _
theorem Laws.EncodedFields.peek (x : BitVec 32) : Laws.EncodedFields.Statement (.peek x) := encodedFields_holds _
theorem Laws.EncodedFields.consume (x : BitVec 32) : Laws.EncodedFields.Statement (.consume x) := encodedFields_holds _
theorem Laws.EncodedFields.goertz (x : BitVec 16) : Laws.EncodedFields.Statement (.goertz x) := encodedFields_holds _
theorem Laws.EncodedFields.visdet : Laws.EncodedFields.Statement .visdet := encodedFields_holds _
theorem Laws.EncodedFields.syncdet : Laws.EncodedFields.Statement .syncdet := encodedFields_holds _
theorem Laws.EncodedFields.porchdet : Laws.EncodedFields.Statement .porchdet := encodedFields_holds _
theorem Laws.EncodedFields.chdec (x : BitVec 2) : Laws.EncodedFields.Statement (.chdec x) := encodedFields_holds _
theorem Laws.EncodedFields.rowout : Laws.EncodedFields.Statement .rowout := encodedFields_holds _
theorem Laws.EncodedFields.step : Laws.EncodedFields.Statement .step := encodedFields_holds _
theorem Laws.EncodedFields.pass : Laws.EncodedFields.Statement .pass := encodedFields_holds _
theorem Laws.EncodedFields.stop : Laws.EncodedFields.Statement .stop := encodedFields_holds _
theorem Laws.EncodedFields.dreset : Laws.EncodedFields.Statement .dreset := encodedFields_holds _

end Sys2Proof
end

