-- ==== Sys2Proof/Tests/Slice0.lean ====
section
/-! SUPPORT. Small tests. Expected values are the spec's own: the words of R112 and of 95_test_vectors.md, its printed
samples, and hand calculation where a small configuration is used. The `witness_` theorems show, for each statement of
Certificates/Slice0/Obligations.lean with hypotheses, a state and operands that meet them. -/

namespace Sys2Proof.Tests

open Sys2Proof Sys2Proof.Machine

-- One proof at a time: many kernel evaluations at once would each hold a thread.
set_option Elab.async false

/-! ### Helpers -/

/-- Whether a step or command answers a next state with a property. -/
def nextHas (o : Host.Outcome State Fault Refusal) (p : State → Bool) : Bool :=
  match o with
  | .next t => p t
  | .fault _ => false
  | .refused _ => false

theorem next_of_nextHas {o : Host.Outcome State Fault Refusal} {p : State → Bool} (h : nextHas o p = true) :
    ∃ t, o = .next t ∧ p t = true := by
  cases o with
  | next t => exact ⟨t, rfl, h⟩
  | fault f => cases f
  | refused r => exact absurd h (by simp [nextHas])

theorem next_of_nextHas_true {o : Host.Outcome State Fault Refusal} (h : nextHas o (fun _ => true) = true) :
    ∃ t, o = .next t := by
  obtain ⟨t, ht, _⟩ := next_of_nextHas h
  exact ⟨t, ht⟩

theorem next_of_nextHas_result {o : Host.Outcome State Fault Refusal} {r : CmdResult}
    (h : nextHas o (fun t => t.host.result = some r) = true) : ∃ t, o = .next t ∧ t.host.result = some r := by
  obtain ⟨t, ht, hr⟩ := next_of_nextHas h
  exact ⟨t, ht, of_decide_eq_true hr⟩

/-- Whether a step is refused. -/
def isRefused (o : Host.Outcome State Fault Refusal) (r : Refusal) : Bool :=
  match o with
  | .next _ => false
  | .fault _ => false
  | .refused r' => r' = r

/-- Whether a word decodes to a command. -/
def decodesTo (w : CmdWord) (i : Instr) : Bool :=
  match decode w with
  | .ok j => j = i
  | .error _ => false

/-- Whether a word is rejected for a reason. -/
def rejectedAs (w : CmdWord) (e : DecodeError) : Bool :=
  match decode w with
  | .ok _ => false
  | .error e' => e' = e

/-- A small valid `CFG`: 1000 samples a second, so a bit is 2 samples, a sync 4, a porch 2, a scan 4 of two pixels of 2. -/
def tiny : Config :=
  { Config.canon with
    sampleRate := 1000, bitUs := 2000, syncUs := 4000, porchUs := 2000, scanUs := 4000, sepUs := 1000
    lineBudgetUs := 40000, taperUs := 1000, width := 2, height := 2, syncFreq := 250, porchFreq := 500
    fskF0 := 100, fskF1 := 200, visRxF0 := 250, visRxF1 := 500, blackFreq := 250, channelMaxFreq := 500, visCode := 0 }

/-- Power-on reset over `tiny`. -/
def base : State := { State.reset with cfg := tiny }

def withSb (s : State) (xs : List Sample) : State := { s with dec := { s.dec with sb := xs } }
def withFq (s : State) (xs : List Rat) : State := { s with enc := { s.enc with fq := xs } }
def withImg (s : State) (im : Image) : State := { s with host := { s.host with img := some im } }
def withIn (s : State) (xs : List HostInput) : State := { s with host := { s.host with inbox := xs } }
def inState (s : State) (x : DecState) : State := { s with dec := { s.dec with state := x } }
def encFaulted (s : State) (x : Exc) : State := { s with enc := { s.enc with fault := some x } }
def decFaulted (s : State) (x : Exc) : State := { s with dec := { s.dec with fault := some x } }

def zeros (n : Nat) : List Sample := List.replicate n 0

/-- Four samples of a tone at a quarter of the sample rate. -/
def quarterTone : List Sample := [16384, 0, -16384, 0]

/-- Two samples of a tone at half the sample rate. -/
def halfTone : List Sample := [16384, -16384]

/-- The image of V-LDCH-1: 2 × 1, `0xFF8000` and `0x0000FF`. -/
def twoByOne : Image := (Image.write ⟨2, 1, []⟩ 0 0 0xFF8000).write 1 0 0x0000FF

/-- Lines of `ACC` that a row of two pixels reads. -/
def fullAcc : Acc := ⟨[0x80, 0x80], [0x00, 0x01], [0xFF, 0xFE]⟩

def withAcc (s : State) (row : Nat) (a : Acc) : State := { s with dec := { s.dec with row := row, acc := a } }

/-! ### WellFormed: an ill-formed term for each check -/

theorem test_wellformed_bits_count : ¬ (Instr.bits 9 0 30000).WellFormed := by decide
theorem test_wellformed_bits_pattern : ¬ (Instr.bits 2 4 30000).WellFormed := by decide
theorem test_wellformed_ldch_channel : ¬ (Instr.ldch 3 0).WellFormed := by decide
theorem test_wellformed_chdec_channel : ¬ (Instr.chdec 3).WellFormed := by decide

/-! ### Decoding: a word of every command, written from R112 and the vectors -/

theorem test_decode_encoder_words :
    decodesTo 0x100004B000000000 (.padv 1200) = true ∧ decodesTo 0x110104B000002328 (.tone 1200 9000 true) = true
      ∧ decodesTo 0x1100076C000000E3 (.tone 1900 227 false) = true
      ∧ decodesTo 0x12000000000001F4 (.sweep 500) = true ∧ decodesTo 0x13020002000001F4 (.bits 2 2 500) = true
      ∧ decodesTo 0x14000000FFFFFFFF (.sil (-1)) = true ∧ decodesTo 0x1502000100000000 (.ldch 2 1) = true
      ∧ decodesTo 0x1E00000000000000 .ereset = true ∧ decodesTo 0x1F00004C00000000 (.encode 0x4C) = true := by
  decide

theorem test_decode_decoder_words :
    decodesTo 0x2000000000000CF8 (.append 3320) = true ∧ decodesTo 0x210000000000018C (.peek 396) = true
      ∧ decodesTo 0x220000000000018C (.consume 396) = true ∧ decodesTo 0x230004B000000000 (.goertz 1200) = true
      ∧ decodesTo 0x2400000000000000 .visdet = true ∧ decodesTo 0x2500000000000000 .syncdet = true
      ∧ decodesTo 0x2600000000000000 .porchdet = true ∧ decodesTo 0x2702000000000000 (.chdec 2) = true
      ∧ decodesTo 0x2800000000000000 .rowout = true ∧ decodesTo 0x2900000000000000 .step = true
      ∧ decodesTo 0x2A00000000000000 .pass = true ∧ decodesTo 0x2B00000000000000 .stop = true
      ∧ decodesTo 0x2E00000000000000 .dreset = true := by
  decide

/-- V-ENCODING-1. -/
theorem test_decode_reserved_words :
    rejectedAs 0x0000000000000000 .unlistedOpcode = true ∧ rejectedAs 0x1600000000000000 .unlistedOpcode = true
      ∧ rejectedAs 0x1E00000000000001 .mustBeZero = true ∧ rejectedAs 0x110204B000002328 .mustBeZero = true
      ∧ rejectedAs 0x1309000000007530 .bitCount = true ∧ rejectedAs 0x1302000400007530 .bitPattern = true
      ∧ rejectedAs 0x1503000000000000 .channel = true ∧ rejectedAs 0x2703000000000000 .channel = true
      ∧ rejectedAs 0x2000000100001000 .mustBeZero = true := by
  decide

theorem test_decode_table_word :
    decodeTableWord 64 0x2B00000000000000 = some .stop ∧ decodeTableWord 32 0x2B = none
      ∧ decodeTableWord 72 0x2B00000000000000 = none := by
  decide

theorem test_syntax :
    Instr.syntaxLine (.tone 1200 (-1) true) = "TONE 1200, -1, T" ∧ Instr.syntaxLine (.chdec 2) = "CHDEC 2" := by
  decide +kernel

/-! ### The encoder's commands -/

/-- V-PADV-1: `PADV 1200` adds 1200/44100 turns. -/
theorem test_padv : nextHas (exec (.padv 1200) .reset) (fun t => t.enc.phase = 4 / 147 && t.enc.pcm = []) = true := by
  decide +kernel

/-- V-TONE-3, both words. -/
theorem test_tone_untapered : nextHas (exec (.tone 1900 227 false) .reset) (fun t =>
    t.enc.pcm = [8762, 16886, 23780, 28942, 31996, 32720, 31060, 27138, 21240, 13795]
      && t.enc.phase = 190 / 441) = true := by
  decide +kernel

theorem test_tone_tapered : nextHas (exec (.tone 1900 227 true) .reset) (fun t =>
    t.enc.pcm = [0, 1612, 8215, 18943, 28941, 29595, 20329, 9376, 2028, 0]) = true := by
  decide +kernel

/-- V-SWEEP-1. -/
theorem test_sweep : nextHas (exec (.sweep 500) (withFq .reset [1500, 2300])) (fun t =>
    t.enc.pcm = [0, 281, 1619, 4488, 8826, 13927, 18524, 21087, 20281, 15462, 7032, -3423, -12700, -18722, -20559,
      -18496, -13838, -8394, -3816, -1044, -56, 0] && t.enc.phase = 458 / 441) = true := by
  decide +kernel

/-- V-SWEEP-3 (c). -/
theorem test_sweep_more_pixels_than_samples :
    nextHas (exec (.sweep 45) (withFq .reset [1500, 1900, 2300])) (fun t =>
      t.enc.fault = some .preconditionError && t.enc.pcm = []
        && t.host.result = some (.raised (.precondition .morePixelsThanSamples))) = true := by
  decide +kernel

/-- V-BITS-2. -/
theorem test_bits : nextHas (exec (.bits 2 2 500) .reset) (fun t =>
    t.enc.pcm = [0, 240, 1371, 3816, 7655, 12594, 18015, 23097, 26987, 28979, 28671, 25521, 20201, 14137, 8240,
      3315, -100, -1830, -2084, -1387, -451, 0, 0, -629, -2564, -5654, -9475, -13412, -16774, -18924, -19408,
      -18042, -14950, -10332, -5132, -386, 3292, 5516, 6186, 5507, 3933, 2078, 586, 0]) = true := by
  decide +kernel

/-- V-BITS-2: `BITS 1, 1, −1` raises; `BITS 0, 0, −1` does not. -/
theorem test_bits_negative_duration :
    nextHas (exec (.bits 1 1 (-1)) .reset) (fun t => t.enc.fault = some .preconditionError && t.enc.phase = 0) = true
      ∧ nextHas (exec (.bits 0 0 (-1)) .reset) (fun t => t.host.result = some .ok && t.enc.pcm = []) = true := by
  decide +kernel

/-- V-SIL-1. -/
theorem test_sil :
    nextHas (exec (.sil 16780) .reset) (fun t => t.enc.pcm.length = 739 && t.enc.phase = 0) = true
      ∧ nextHas (exec (.sil (-1)) .reset) (fun t => t.enc.pcm = [] && t.host.result = some .ok) = true := by
  decide +kernel

/-- V-LDCH-1: Green of row 0 is 1500 + 128 × 800 / 255 = 1901.5686…, then 1500; row 1 is out of range. -/
theorem test_ldch :
    nextHas (exec (.ldch 1 0) (withImg .reset twoByOne)) (fun t => t.enc.fq = [96980 / 51, 1500]) = true
      ∧ nextHas (exec (.ldch 1 1) (withImg .reset twoByOne)) (fun t =>
          t.host.result = some (.raised (.precondition .rowOutOfRange))) = true := by
  decide +kernel

theorem test_ereset_clears_a_device_error :
    nextHas (exec .ereset (encFaulted (withFq .reset [1500]) .deviceError)) (fun t => t.enc = Enc.reset) = true := by
  decide

/-- The sizes of R192 over `tiny`: 16 + 4 + 2 header samples and a line of 4 + 2 + 12 + 2 + 20. -/
theorem test_encode : nextHas (exec (.encode 0x4C) (withImg base ⟨1, 1, [(0, 0x808080)]⟩)) (fun t =>
    t.enc.pcm.length = 62 && t.host.handed = [t.enc.pcm] && t.enc.seq = ⟨.done, 0, 2⟩ && t.enc.fault = none
      && t.enc.fq.length = 1) = true := by
  decide +kernel

/-- V-ENC-3 (a). -/
theorem test_encode_malformed : nextHas (exec (.encode 0x4C) (withImg .reset ⟨0, 5, []⟩)) (fun t =>
    t.enc = { Enc.reset with fault := some .malformedInput } && t.host.handed = []) = true := by
  decide

/-! ### The decoder's commands -/

/-- V-SB-1: too few samples for a header, so the pass holds and the samples stay. -/
theorem test_append : nextHas (exec (.append 3) { base with host := { base.host with port := [7, 8, 9, 10] } }) (fun t =>
    t.dec.sb = [7, 8, 9] && t.host.port = [10] && t.dec.state = .awaitingVIS && t.host.result = some .ok) = true := by
  decide +kernel

theorem test_append_after_stop :
    nextHas (exec (.append 1) { base with dec := { base.dec with stopped := true }, host := { base.host with port := [7] } })
      (fun t => t.dec.sb = [] && t.host.port = [] && t.host.result = some (.refused .stopped)) = true := by
  decide +kernel

/-- V-SB-1. -/
theorem test_peek : nextHas (exec (.peek 2) (withSb base [5, 6, 7])) (fun t => t.dec.win = [5, 6] && t.dec.sb = [5, 6, 7]) = true
      ∧ nextHas (exec (.peek 1) base) (fun t => t.host.result = some (.raised .bufferUnderrun)) = true := by
  decide +kernel

theorem test_consume : nextHas (exec (.consume 2) (withSb base [5, 6, 7])) (fun t => t.dec.sb = [7]) = true
      ∧ nextHas (exec (.consume 4) (withSb base [5, 6, 7])) (fun t => t.dec.sb = [5, 6, 7]) = true := by
  decide +kernel

/-- V-GOE-3: (16384, 0, −16384, 0) at 11025 Hz has the Fourier sum 16384 + 16384, so the power 1. -/
theorem test_goertz :
    nextHas (exec (.goertz 11025) { State.reset with dec := { Dec.reset with win := quarterTone } }) (fun t =>
      t.dec.gp.sum.terms = [(0, 16384), (22050, -16384)] && t.dec.gm.n = 4
        && t.dec.gp.enclosure 8 = ⟨2 ^ 46, 0⟩) = true := by
  decide +kernel

/-- V-VIS-4 over `tiny`: zeros read as 0x00. -/
theorem test_visdet_match : nextHas (exec .visdet (withSb base (zeros 21))) (fun t =>
    t.dec.state = .awaitingSync && t.dec.sb.length = 1 && t.host.raster = [.reset 2 2]) = true := by
  decide +kernel

/-- Slot 3 of the header (data bit 2, so bit 5 of the byte) carries the tone of a 1. -/
theorem test_visdet_hold : nextHas (exec .visdet (withSb base (zeros 6 ++ halfTone ++ zeros 12))) (fun t =>
    t.dec.state = .awaitingVIS && t.dec.sb.length = 20 && t.host.result = some (.held .protocolMismatch)) = true
      ∧ visByte tiny (withSb base (zeros 6 ++ halfTone ++ zeros 12)).dec = 0x20 := by
  decide +kernel

/-- Hand calculation: the window's magnitude is 0.5; V-SYNC-1 (b): zeros hold. -/
theorem test_syncdet :
    nextHas (exec .syncdet (withSb base (quarterTone ++ [3]))) (fun t => t.dec.state = .awaitingPorch && t.dec.sb = [3]) = true
      ∧ nextHas (exec .syncdet (withSb base (zeros 4))) (fun t => t.host.result = some (.held .toneAbsent)) = true := by
  decide +kernel

theorem test_porchdet :
    nextHas (exec .porchdet (withSb base (halfTone ++ [3]))) (fun t => t.dec.state = .decodingLine 0 && t.dec.sb = [3]) = true
      ∧ nextHas (exec .porchdet (withSb base [3])) (fun t => t.host.result = some (.raised .bufferUnderrun)) = true := by
  decide +kernel

/-- A magnitude of exactly the threshold is absent (R248, V-SYNC-1 (d)): one sample of 16384 gives `MAG` = 1. -/
theorem test_threshold_is_strict :
    toneDetected { tiny with toneThreshold := 1 } 250 [16384] = false
      ∧ toneDetected { tiny with toneThreshold := 999 / 1000 } 250 [16384] = true := by
  decide +kernel

/-- Hand calculation: the half-rate tone has `PH` = 1 and `PL` = 1/2, so 255 × 1 / 1.5 = 170 (less a trace of `EPS`);
zeros give 0 (V-PIX-1). -/
theorem test_chdec : nextHas (exec (.chdec 1) (withSb base (halfTone ++ [0, 0, 9]))) (fun t =>
    t.dec.acc.blue = [170, 0] && t.dec.state = .decodingLine 2 && t.dec.sb = [9]) = true := by
  decide +kernel

/-- V-PIX-1, 1500 Hz. -/
theorem test_pix : pix .canon [6949, 13582, 19598, 24721, 28720, 31412, 32675, 32451, 30750, 27651, 23293, 17875, 11644,
    4883, -2099, -8986, -15465, -21240, -26049] = 101 := by
  decide +kernel

/-- R256's example: Red 0xFF, Green 0x80, Blue 0x00 make `0xFF8000`. -/
theorem test_rowout : nextHas (exec .rowout (withAcc base 1 fullAcc)) (fun t =>
    t.host.raster = [.setPixel 0 1 0xFF8000, .setPixel 1 1 0xFE8001] && t.dec.row = 2 && t.dec.state = .awaitingVIS) = true := by
  decide +kernel

/-- V-ROW-1: refused at the end of the frame, and over an unwritten `ACC`. -/
theorem test_rowout_refused :
    nextHas (exec .rowout (withAcc base 2 fullAcc)) (fun t => t.host.result = some (.refused .rowOutOfFrame)) = true
      ∧ nextHas (exec .rowout base) (fun t => t.host.result = some (.refused .accUnwritten) && t.dec = base.dec) = true := by
  decide +kernel

/-- R260's example. -/
theorem test_step : nextHas (exec .step (withSb (inState base .awaitingSync) (zeros 3))) (fun t =>
    t.host.result = some (.raised .bufferUnderrun) && t.dec.sb.length = 3) = true := by
  decide +kernel

/-- R262's example over `tiny`: header, sync, then an underrun that does not surface. -/
theorem test_pass : nextHas (exec .pass (withSb base (zeros 20 ++ quarterTone))) (fun t =>
    t.dec.state = .awaitingPorch && t.dec.sb = [] && t.host.result = some .ok) = true := by
  decide +kernel

/-- V-STOP-1. -/
theorem test_stop : nextHas (exec .stop (withSb base [3])) (fun t => t.dec.stopped && t.dec.sb = [3]) = true := by decide

theorem test_dreset : nextHas (exec .dreset (decFaulted (withSb base [3]) .deviceError)) (fun t =>
    t.dec = Dec.reset && t.host.raster = []) = true := by
  decide

theorem test_latches_refuse :
    nextHas (exec .stop (decFaulted base .deviceError)) (fun t => t.host.result = some (.refused .decFaulted)) = true
      ∧ nextHas (exec (.padv 1) (encFaulted base .deviceError)) (fun t => t.host.result = some (.refused .encFaulted)) = true
      ∧ nextHas (exec (.padv 1) (encFaulted base .malformedInput)) (fun t => t.host.result = some .ok) = true := by
  decide +kernel

/-! ### The step -/

theorem test_step_fetches :
    nextHas (step (State.reset.withFetchWord 64 0x2B00000000000000)) (fun t => t.dec.stopped && t.host.inbox = []) = true := by
  decide +kernel

theorem test_step_reserved :
    nextHas (step (State.reset.withFetchWord 64 0x1600000000000000)) (fun t =>
      t.host.result = some (.refused (.reservedWord .unlistedOpcode)) && t.enc = Enc.reset) = true := by
  decide +kernel

/-- PROG-2's wire bytes: `FC 04` is 1276, `A1 FD` is −607; an odd count is refused. -/
theorem test_step_device_read :
    nextHas (step (withIn base [.deviceRead [0xFC, 0x04, 0xA1, 0xFD]])) (fun t => t.host.port = [1276, -607]) = true
      ∧ isRefused (step (withIn base [.deviceRead [0xFC]])) .oddByteCount = true := by
  decide +kernel

theorem test_step_device_error :
    nextHas (step (withIn base [.deviceError .dec])) (fun t => t.dec.fault = some .deviceError && t.enc.fault = none) = true := by
  decide +kernel

theorem test_step_invalid_config : isRefused (step { base with cfg := { tiny with width := 0 } }) .invalidConfig = true := by
  decide +kernel

/-- R291: failure, stop, chunk. -/
theorem test_presentation_order :
    presentationOrder [.command 0x2000000000001000, .command 0x2B00000000000000, .deviceError .dec]
      = [.deviceError .dec, .command 0x2B00000000000000, .command 0x2000000000001000] := by
  decide +kernel

/-- A reserved word of operation code 0x2B is no STOP (R92, R104): it stays behind STOP, and in its place among the rest. -/
theorem test_presentation_reserved :
    presentationOrder [.command 0x2B00000000000001, .command 0x2000000000001000, .command 0x2B00000000000000]
      = [.command 0x2B00000000000000, .command 0x2B00000000000001, .command 0x2000000000001000] := by
  decide +kernel

/-- A pixel is read back where it was written, and only there. -/
theorem test_image :
    twoByOne.read 0 0 = 0xFF8000 ∧ twoByOne.read 1 0 = 0x0000FF ∧ Memory.wf twoByOne.pixels = true
      ∧ (twoByOne.write 0 0 0).pixels = [(1, 0x0000FF)] := by
  decide

/-! ### Witnesses: states and operands that meet each statement's hypotheses -/

/-- A state with something in every part: a line, samples, an image, a row, the latches clear. -/
def busy : State :=
  let s := withImg (withSb (withFq base [250, 500]) (quarterTone ++ zeros 20)) twoByOne
  { s with
    enc := { s.enc with phase := 3 / 4, pcm := [0, 5, -5], seq := ⟨.done, 0, 2⟩ }
    dec := { s.dec with row := 1, acc := fullAcc, win := quarterTone }
    host := { s.host with port := [1, 2, 3], raster := [.reset 2 2, .setPixel 1 0 0xFF8000] } }

theorem witness_invariant : Inv busy where
  cfg_valid := by decide +kernel
  phase_nonneg := by decide +kernel
  fq_in_band := by decide +kernel
  seq_idle_or_done := fun _ => .inr rfl
  enc_fault_codes := by decide +kernel
  dec_fault_codes := by decide +kernel
  row_le_height := by decide +kernel
  acc_lines := ⟨.inr rfl, .inr rfl, .inr rfl⟩
  gp_gm_agree := rfl
  gp_canonical := ⟨List.Pairwise.nil, fun t ht => absurd ht List.not_mem_nil⟩
  images_ok := ⟨(by decide +kernel : Memory.wf twoByOne.pixels = true), fun x hx => absurd hx List.not_mem_nil⟩
  raster_in_frame := by
    intro call h
    simp only [busy, List.mem_cons, List.not_mem_nil, or_false] at h
    rcases h with rfl | rfl
    · exact ⟨rfl, rfl⟩
    · exact ⟨by decide +kernel, by decide +kernel⟩

/-- A busy state about to take a `STOP`. -/
def busyStop : State := withIn busy [.command 0x2B00000000000000]

theorem witness_every_step_keeps_the_invariant : Inv busyStop ∧ ∃ t, step busyStop = .next t := by
  refine ⟨{ witness_invariant with images_ok := ⟨(by decide +kernel : Memory.wf twoByOne.pixels = true), fun x hx => ?_⟩ }, ?_⟩
  · rw [show x = .command 0x2B00000000000000 from List.mem_singleton.1 hx]; trivial
  · exact next_of_nextHas_true (by decide +kernel)

theorem witness_decode_encode :
    (Instr.bits 8 0xFF (-1)).WellFormed ∧ (Instr.bits 0 0 0).WellFormed ∧ (Instr.ldch 2 0xFFFF).WellFormed
      ∧ (Instr.chdec 2).WellFormed ∧ decode 0x2702000000000000 = .ok (.chdec 2) :=
  ⟨by decide +kernel, by decide +kernel, by decide +kernel, by decide +kernel, rfl⟩

theorem witness_reserved :
    ConfigValid (withIn base [.command 0x1309000000007530]).cfg
      ∧ (withIn base [.command 0x1309000000007530]).host.inbox = [.command 0x1309000000007530]
      ∧ Reserved 0x1309000000007530 ∧ Reserved 0x1302000400007530 ∧ Reserved 0x1503000000000000
      ∧ Reserved 0x110204B000002328 ∧ Reserved 0 ∧ ¬ Reserved 0x2702000000000000 := by
  refine ⟨by decide +kernel, rfl, ?_⟩
  simp [Reserved, formatMask]

theorem witness_step_runs :
    ConfigValid busyStop.cfg ∧ busyStop.host.inbox = [.command 0x2B00000000000000]
      ∧ decode 0x2B00000000000000 = .ok .stop ∧ decodeTableWord 64 0x2B00000000000000 = some .stop :=
  ⟨by decide +kernel, rfl, rfl, rfl⟩

theorem witness_host_events :
    ConfigValid base.cfg ∧ base.host.inbox = []
      ∧ (withIn base [.deviceError .enc]).host.inbox = [.deviceError .enc]
      ∧ (withIn base [.deviceError .dec]).host.inbox = [.deviceError .dec]
      ∧ (withIn base [.bindImage none]).host.inbox = [.bindImage none]
      ∧ (withIn base [.deviceRead [0xFC, 0x04]]).host.inbox = [.deviceRead (wireBytes [1276])]
      ∧ ([0xFC] : List Byte).length % 2 = 1 ∧ ¬ ConfigValid { tiny with eps := 0 }
      ∧ ¬ ConfigValid { tiny with channels := 2 } := by
  decide +kernel

/-- Inputs of one moment over a waiting list that is empty: a failure of each unit first, and a stop with no failure. -/
theorem witness_presentation :
    ConfigValid base.cfg ∧ base.host.inbox = []
      ∧ ([.command 0x2B00000000000000, .deviceError .enc] : List HostInput).filter
          (fun x => x = .deviceError .enc ∨ x = .deviceError .dec) = .deviceError .enc :: []
      ∧ ([.deviceError .dec, .deviceError .enc] : List HostInput).filter
          (fun x => x = .deviceError .enc ∨ x = .deviceError .dec) = .deviceError .dec :: [.deviceError .enc]
      ∧ ([.command 0x2000000000001000, .command 0x2B00000000000000] : List HostInput).filter
          (fun x => x = .command 0x2B00000000000000) = .command 0x2B00000000000000 :: [] := by
  decide +kernel

theorem witness_counts_and_maps :
    (22 : Nat) ≤ 23 ∧ (-10 : Int) < 0 ∧ (255 : Int) < 300 ∧ (0 : Int) ≤ 255 ∧ tiny.blackFreq ≤ tiny.channelMaxFreq
      ∧ (0 : Nat) < 4 ∧ (3 : Nat) < 4 ∧ (1 : Nat) < 4 := by
  decide +kernel

theorem witness_wire : ([1276, (-607 : Sample)] : List Sample)[(1 : Nat)]? = some (-607 : Sample) ∧ ([0xFC, 0x04] : List Byte).length % 2 = 0
    ∧ ([] : List Byte).length % 2 = 0 ∧ ([0xFC] : List Byte).length % 2 = 1 := by
  decide +kernel

theorem witness_rendered_sample : tiny.amp = 32767 ∧ (∀ j tn, some (0, 1) = some (j, tn) → 0 < tn) := by
  refine ⟨rfl, fun j tn h => ?_⟩
  simp only [Option.some.injEq, Prod.mk.injEq] at h
  omega

theorem witness_encoder_not_refused :
    busy.enc.fault ≠ some .deviceError ∧ (encFaulted busy .preconditionError).enc.fault ≠ some .deviceError
      ∧ (0 : Int) ≤ (0 : BitVec 32).toInt ∧ (-1 : BitVec 32).toInt < 0 ∧ 0 < (1 : BitVec 32).toInt
      ∧ (0 : BitVec 32).toInt ≤ 0 := by
  decide +kernel

theorem witness_tapered_tone : 1 ≤ sampleCount tiny tiny.taperUs ∧ (2 : Nat) ≤ 2 := by decide +kernel

/-- `N(2000)` = 2 samples over two frequencies: one sample a pixel. -/
theorem witness_sweep :
    busy.enc.fault ≠ some .deviceError ∧ 0 ≤ (2000 : BitVec 32).toInt ∧ busy.enc.fq ≠ []
      ∧ 1 ≤ sampleCount busy.cfg (2000 : BitVec 32).toInt.toNat / busy.enc.fq.length
      ∧ sampleCount busy.cfg (1999 : BitVec 32).toInt.toNat < busy.enc.fq.length ∧ base.enc.fq = [] := by
  decide +kernel

theorem witness_single_frequency :
    (withFq base [500]).enc.fq = [((500 : BitVec 16).toNat : Rat)]
      ∧ 1 ≤ sampleCount base.cfg (1000 : BitVec 32).toInt.toNat := by
  decide +kernel

theorem witness_bits :
    busy.enc.fault ≠ some .deviceError ∧ (8 : BitVec 4).toNat ≤ 8 ∧ (0xFF : BitVec 8).toNat < 2 ^ (8 : BitVec 4).toNat
      ∧ 0 ≤ (1000 : BitVec 32).toInt ∧ (0 : BitVec 8).toNat < 2 ^ (0 : BitVec 4).toNat ∧ (8 : BitVec 4) ≠ 0
      ∧ busy.cfg.fskF0 < 2 ^ 16 ∧ busy.cfg.fskF1 < 2 ^ 16 ∧ (-1 : BitVec 32).toInt < 0 := by
  decide +kernel

/-- The image has one row, so row 0 is in it and row 1 is not. -/
theorem witness_ldch :
    (2 : BitVec 2).toNat < 3 ∧ busy.enc.fault ≠ some .deviceError ∧ busy.host.img = some twoByOne
      ∧ 0 < twoByOne.width ∧ 0 < twoByOne.height ∧ (0 : BitVec 16).toNat < twoByOne.height
      ∧ twoByOne.height ≤ (1 : BitVec 16).toNat ∧ base.host.img = none
      ∧ (withImg base ⟨0, 5, []⟩).host.img = some ⟨0, 5, []⟩ := by
  decide +kernel

/-- A scan of `tiny` has 4 samples: four columns fit, five do not. -/
theorem witness_encode :
    ConfigValid tiny ∧ (withImg base ⟨4, 1, []⟩).host.img = some ⟨4, 1, []⟩ ∧ 4 ≤ sampleCount tiny tiny.scanUs
      ∧ (withImg base ⟨5, 1, []⟩).host.img = some ⟨5, 1, []⟩ ∧ sampleCount tiny tiny.scanUs < 5 ∧ 1 ≤ 2 ^ 16 := by
  decide +kernel

theorem witness_operands_fit : OperandsFit tiny ∧ OperandsFit .canon := by
  constructor <;> constructor <;> decide +kernel

theorem witness_encoder_grows :
    Inv busy ∧ (∃ t, exec (.tone 100 3000 true) busy = .next t) ∧ Instr.tone 100 3000 true ≠ .ereset
      ∧ ∀ vis, Instr.tone 100 3000 true ≠ .encode vis :=
  ⟨witness_invariant, next_of_nextHas_true (by decide +kernel), by decide +kernel, fun _ => by simp⟩

theorem witness_goertz : busy.dec.fault = none ∧ 0 < busy.cfg.sampleRate ∧ (∀ v ∈ base.dec.win, v = 0) :=
  ⟨rfl, by decide +kernel, fun _ hv => absurd hv List.not_mem_nil⟩

theorem witness_exactness : 0 < tiny.sampleRate ∧ 0 < tiny.eps ∧ (7 : Nat) < 8 ∧ (∀ v ∈ zeros 3, v = 0) :=
  ⟨by decide +kernel, by decide +kernel, by decide +kernel, fun _ hv => List.eq_of_mem_replicate hv⟩

/-- No bound is set on `SB`, and one that is just met; the chunk is just delivered. -/
theorem witness_append :
    busy.dec.fault = none ∧ busy.dec.stopped = false
      ∧ (∀ bound, busy.cfg.sbMax = some bound → busy.dec.sb.length + (3 : BitVec 32).toNat ≤ bound)
      ∧ (3 : BitVec 32).toNat ≤ busy.host.port.length ∧ base.dec.state = .awaitingVIS
      ∧ base.dec.sb.length + (19 : BitVec 32).toNat < base.cfg.visSlotsRequired * sampleCount base.cfg base.cfg.bitUs := by
  refine ⟨rfl, rfl, fun bound h => ?_, by decide +kernel, rfl, by decide +kernel⟩
  have hn : busy.cfg.sbMax = none := rfl
  rw [hn] at h
  cases h

theorem witness_peek_consume :
    busy.dec.fault = none ∧ (24 : BitVec 32).toNat ≤ busy.dec.sb.length ∧ busy.dec.sb.length < (25 : BitVec 32).toNat := by
  decide +kernel

theorem witness_order : (∃ t, exec (.append 3) busy = .next t) ∧ Instr.append 3 ≠ .dreset ∧ unitOf (.sil 0) = .enc :=
  ⟨next_of_nextHas_true (by decide +kernel), by decide +kernel, rfl⟩

theorem witness_visdet :
    base.dec.fault = none ∧ (withSb base (zeros 19)).dec.sb.length < tiny.visSlotsRequired * sampleCount tiny tiny.bitUs
      ∧ tiny.visSlotsRequired * sampleCount tiny tiny.bitUs ≤ (withSb base (zeros 20)).dec.sb.length
      ∧ visByte tiny (withSb base (zeros 20)).dec = tiny.visCode
      ∧ visByte tiny (withSb base (zeros 6 ++ halfTone ++ zeros 12)).dec ≠ tiny.visCode := by
  decide +kernel

theorem witness_silence :
    ConfigValid tiny ∧ tiny.visCode = 0 ∧ ({ tiny with visCode := 0x4C } : Config).visCode ≠ 0
      ∧ ConfigValid { tiny with visCode := 0x4C }
      ∧ ∀ v ∈ (withSb base (zeros 20)).dec.sb.take (tiny.visSlotsRequired * sampleCount tiny tiny.bitUs), v = 0 :=
  ⟨by decide +kernel, rfl, by decide +kernel, by decide +kernel,
    fun _ hv => List.eq_of_mem_replicate (List.mem_of_mem_take hv)⟩

theorem witness_tone_tests :
    base.dec.fault = none ∧ (zeros 3).length < sampleCount tiny tiny.syncUs
      ∧ sampleCount tiny tiny.syncUs ≤ quarterTone.length
      ∧ toneDetected tiny tiny.syncFreq (quarterTone.take (sampleCount tiny tiny.syncUs)) = true
      ∧ toneDetected tiny tiny.syncFreq ((zeros 4).take (sampleCount tiny tiny.syncUs)) = false
      ∧ (zeros 1).length < sampleCount tiny tiny.porchUs ∧ sampleCount tiny tiny.porchUs ≤ halfTone.length
      ∧ toneDetected tiny tiny.porchFreq (halfTone.take (sampleCount tiny tiny.porchUs)) = true
      ∧ toneDetected tiny tiny.porchFreq ((zeros 2).take (sampleCount tiny tiny.porchUs)) = false := by
  decide +kernel

theorem witness_chdec :
    (withSb base (zeros 3)).dec.sb.length < sampleCount tiny tiny.scanUs
      ∧ sampleCount tiny tiny.scanUs ≤ (withSb base (zeros 4)).dec.sb.length
      ∧ (withAcc base 1 fullAcc).dec.row < tiny.height ∧ tiny.width ≤ fullAcc.green.length
      ∧ tiny.width ≤ fullAcc.blue.length ∧ tiny.width ≤ fullAcc.red.length
      ∧ tiny.height ≤ (withAcc base 2 fullAcc).dec.row ∧ base.dec.row < tiny.height
      ∧ base.dec.acc.green.length < tiny.width := by
  decide +kernel

/-- A scan just buffered: at the end of the frame, and with a row left but one of Green and Blue not written. -/
theorem witness_chdec_refused :
    (withSb (withAcc base 2 fullAcc) (zeros 4)).dec.fault = none
      ∧ sampleCount tiny tiny.scanUs ≤ (withSb (withAcc base 2 fullAcc) (zeros 4)).dec.sb.length
      ∧ tiny.height ≤ (withSb (withAcc base 2 fullAcc) (zeros 4)).dec.row
      ∧ (withSb (withAcc base 1 { fullAcc with blue := [] }) (zeros 4)).dec.row < tiny.height
      ∧ (withSb (withAcc base 1 { fullAcc with blue := [] }) (zeros 4)).dec.acc.blue.length < tiny.width := by
  decide +kernel

theorem witness_step : base.dec.fault = none ∧ ∃ t, exec .step (withSb base (zeros 20)) = .next t := ⟨rfl, next_of_nextHas_true (by decide +kernel)⟩

theorem witness_pass :
    ConfigValid busy.cfg ∧ busy.dec.fault = none ∧ busy.dec.stopped = false ∧ 1 ≤ busy.cfg.visConsumeSlots
      ∧ ({ busy.dec with stopped := true } : Dec).stopped = true := by
  decide +kernel

theorem witness_latches :
    ((decFaulted busy .deviceError).dec.fault ≠ none ∧ unitOf .pass = .dec ∧ Instr.pass ≠ .dreset ∧ Instr.pass.WellFormed
        ∧ (encFaulted busy .deviceError).enc.fault = some .deviceError ∧ unitOf (.ldch 2 0) = .enc
        ∧ Instr.ldch 2 0 ≠ .ereset ∧ (Instr.ldch 2 0).WellFormed)
      ∧ (∀ n, Instr.pass ≠ .append n) ∧ (∀ vis, Instr.ldch 2 0 ≠ .encode vis)
      ∧ (∃ t, exec .stop (decFaulted busy .deviceError) = .next t ∧ t.host.result = some (.refused .decFaulted))
      ∧ ∃ t, exec (.ldch 2 0) (encFaulted busy .deviceError) = .next t ∧ t.host.result = some (.refused .encFaulted) :=
  ⟨by decide +kernel, fun _ => by simp, fun _ => by simp, next_of_nextHas_result (by decide +kernel),
    next_of_nextHas_result (by decide +kernel)⟩

theorem witness_exceptions :
    (∃ t, exec (.tone 100 (-1) true) busy = .next t
        ∧ t.host.result = some (.raised (.precondition (.negativeDuration (-1)))))
      ∧ (∃ t, exec (.peek 25) busy = .next t ∧ t.host.result = some (.raised .bufferUnderrun))
      ∧ ∃ t, exec .porchdet (withSb base (zeros 2)) = .next t ∧ t.host.result = some (.held .toneAbsent) :=
  ⟨next_of_nextHas_result (by decide +kernel), next_of_nextHas_result (by decide +kernel), next_of_nextHas_result (by decide +kernel)⟩

/-- Two states that differ only in what the unit may not read. -/
theorem witness_units :
    (∃ t, exec (.sil 1000) busy = .next t) ∧ (∃ t, exec (.sil 1000) (decFaulted busy .deviceError) = .next t)
      ∧ busy ≠ decFaulted busy .deviceError ∧ busy.enc = (decFaulted busy .deviceError).enc
      ∧ (∃ t, exec .rowout busy = .next t) ∧ (∃ t, exec .rowout (encFaulted busy .deviceError) = .next t)
      ∧ busy ≠ encFaulted busy .deviceError ∧ busy.dec = (encFaulted busy .deviceError).dec :=
  ⟨next_of_nextHas_true (by decide +kernel), next_of_nextHas_true (by decide +kernel), by decide +kernel, rfl, next_of_nextHas_true (by decide +kernel), next_of_nextHas_true (by decide +kernel), by decide +kernel, rfl⟩

/-- A decoder stuck in each of the three waiting states, and a list of loop commands. -/
theorem witness_stuck :
    ConfigValid tiny ∧ Stuck tiny (withSb base (zeros 6 ++ halfTone ++ zeros 12)).dec
      ∧ Stuck tiny (withSb (inState base .awaitingSync) (zeros 4)).dec
      ∧ Stuck tiny (withSb (inState base .awaitingPorch) (zeros 2)).dec
      ∧ (∀ i ∈ [Instr.append 3, .pass, .stop], LoopCommand i) ∧ tiny.sbMax = none := by
  refine ⟨by decide +kernel, ⟨by decide +kernel, by decide +kernel⟩, ⟨by decide +kernel, by decide +kernel⟩,
    ⟨by decide +kernel, by decide +kernel⟩, ?_, rfl⟩
  intro i hi
  simp only [List.mem_cons, List.not_mem_nil, or_false] at hi
  rcases hi with rfl | rfl | rfl <;> trivial

end Sys2Proof.Tests
end

/-! ### The rendered sample (O19) -/

namespace Sys2Proof.Machine

/-- Truncating the two ends of an interval around `x / D` the same way truncates `x / D` that way. -/
theorem tdiv_eq_truncReal {lo hi : Int} {D : Nat} {x : ℝ} (hD : 0 < D) (hlo : (lo : ℝ) ≤ D * x) (hhi : D * x ≤ hi)
    (h : lo.tdiv D = hi.tdiv D) : lo.tdiv D = truncReal x := by
  have hD' : (0 : ℝ) < D := by exact_mod_cast hD
  rw [← truncReal_tdiv lo D hD, ← truncReal_tdiv hi D hD] at h
  rw [← truncReal_tdiv lo D hD]
  refine le_antisymm (truncReal_mono ((div_le_iff₀' hD').2 hlo)) (h ▸ truncReal_mono ((le_div_iff₀' hD').2 hhi))

/-- Two ends that truncate differently leave `x / D` within their distance of a whole number. -/
theorem exists_int_near_of_tdiv_ne {lo hi : Int} {D : Nat} {x : ℝ} (hD : 0 < D) (hlo : (lo : ℝ) ≤ D * x) (hhi : D * x ≤ hi)
    (h : lo.tdiv D ≠ hi.tdiv D) : ∃ k : Int, D * |x - k| ≤ hi - lo := by
  have hD' : (0 : ℝ) < D := by exact_mod_cast hD
  rw [← truncReal_tdiv lo D hD, ← truncReal_tdiv hi D hD] at h
  obtain ⟨k, hk1, hk2⟩ := trunc_between (div_le_div_of_nonneg_right (hlo.trans hhi) hD'.le) h
  rw [div_le_iff₀' hD'] at hk1
  rw [le_div_iff₀' hD'] at hk2
  refine ⟨k, ?_⟩
  calc (D : ℝ) * |x - k| = |D * (x - k)| := by rw [abs_mul, Nat.abs_cast]
    _ ≤ hi - lo := by rw [abs_le]; constructor <;> linarith

/-- A whole number that truncates is itself. -/
theorem truncReal_intCast (k : Int) : truncReal k = k := by simp [truncReal]

/-- The scale of a sample's enclosure, as a natural number. -/
theorem two_pow_cast (n : Nat) : ((2 : Int) ^ n) = ((2 ^ n : Nat) : Int) := by push_cast; rfl

section
variable (amp : Nat) (env : Option (Nat × Nat)) (t : Rat) (p : Nat)

/-- `sampleBall_encloses` as two bounds, with the scale a natural number. -/
theorem sampleBall_bounds (hp : 64 ≤ p) (henv : ∀ j tn, env = some (j, tn) → 0 < tn) :
    ((sampleBall amp env t p).lo : ℝ) ≤ (2 ^ (2 * p + 1) : Nat) * sampleReal amp env t
      ∧ (2 ^ (2 * p + 1) : Nat) * sampleReal amp env t ≤ (sampleBall amp env t p).hi := by
  have h := sampleBall_encloses amp env t p hp henv
  push_cast
  exact ⟨h.lo_le, h.le_hi⟩

/-- A settled test is right (R128). -/
theorem quantTest_sound (hp : 64 ≤ p) (henv : ∀ j tn, env = some (j, tn) → 0 < tn) (a : Int)
    (h : quantTest amp env t p = some a) : a = truncReal (sampleReal amp env t) := by
  obtain ⟨hlo, hhi⟩ := sampleBall_bounds amp env t p hp henv
  simp only [quantTest, two_pow_cast, Option.ite_none_right_eq_some, Option.some.injEq] at h
  obtain ⟨heq, rfl⟩ := h
  exact tdiv_eq_truncReal (by positivity) hlo hhi heq

/-- An open test leaves the sample value near a whole number. -/
theorem exists_int_near_of_quantTest_eq_none (hp : 64 ≤ p) (henv : ∀ j tn, env = some (j, tn) → 0 < tn)
    (h : quantTest amp env t p = none) :
    ∃ k : Int, (2 : ℝ) ^ (2 * p + 1) * |sampleReal amp env t - k| ≤ 2 * (amp * (2 ^ p * (64 * p))) := by
  obtain ⟨hlo, hhi⟩ := sampleBall_bounds amp env t p hp henv
  have hrad := sampleBall_rad amp env t p hp
  simp only [quantTest, two_pow_cast, ite_eq_right_iff, reduceCtorEq, imp_false] at h
  obtain ⟨k, hk⟩ := exists_int_near_of_tdiv_ne (by positivity) hlo hhi h
  refine ⟨k, ?_⟩
  simp only [RealBall.hi, RealBall.lo] at hk
  push_cast at hk
  linarith

/-- At a fine precision a whole sample value is the nearest one (the tie of R128). -/
theorem nearestSample_of_int (hp : 64 ≤ p) (henv : ∀ j tn, env = some (j, tn) → 0 < tn) (k : Int)
    (hk : sampleReal amp env t = k) (hsmall : (amp * (2 ^ p * (64 * p)) : ℝ) < 2 ^ (2 * p)) :
    nearestSample amp env t p = k := by
  have h := sampleBall_encloses amp env t p hp henv
  have hrad := (sampleBall_rad amp env t p hp).trans_lt hsmall
  rw [hk] at h
  obtain ⟨h1, h2⟩ := abs_le.1 h
  rw [pow_succ] at h1 h2
  have e1 : -(2 : Int) ^ (2 * p) < k * (2 ^ (2 * p) * 2) - (sampleBall amp env t p).mid := by
    have : -(2 : ℝ) ^ (2 * p) < k * (2 ^ (2 * p) * 2) - (sampleBall amp env t p).mid := by linarith
    exact_mod_cast this
  have e2 : k * (2 ^ (2 * p) * 2) - (sampleBall amp env t p).mid < (2 : Int) ^ (2 * p) := by
    have : k * (2 ^ (2 * p) * 2) - (sampleBall amp env t p).mid < (2 : ℝ) ^ (2 * p) := by linarith
    exact_mod_cast this
  unfold nearestSample
  rw [pow_succ, Int.ediv_eq_iff_of_pos (by positivity)]
  constructor <;> linarith

end

/-- At the amplitude of R324 every precision from the first on leaves less than half a unit of doubt. -/
theorem sample_radius_lt (p : Nat) (hp : 64 ≤ p) : (((32767 : Nat) : ℝ) * (2 ^ p * (64 * p))) < 2 ^ (2 * p) := by
  have h : (2 : ℝ) ^ 40 * p < 2 ^ p := by exact_mod_cast forty_bits_mul_lt p hp
  have hP : (0 : ℝ) < 2 ^ p := by positivity
  rw [two_mul, pow_add]
  push_cast
  nlinarith

/-- A precision linear in `Q` outgrows an exponential in `Q`. -/
theorem two_pow_mul_lt_two_pow (Q p : Nat) (hQ : 1 ≤ Q) (hp : 128 * Q ≤ p) : 2 ^ (19 * Q + 24) * p < 2 ^ p := by
  have hhalf : p / 2 < 2 ^ (p / 2) := Nat.lt_two_pow_self
  calc 2 ^ (19 * Q + 24) * p ≤ 2 ^ (19 * Q + 24) * (2 ^ 2 * (p / 2)) := Nat.mul_le_mul_left _ (by omega)
    _ = 2 ^ (19 * Q + 26) * (p / 2) := by ring
    _ ≤ 2 ^ (p / 2) * (p / 2) := Nat.mul_le_mul_right _ (Nat.pow_le_pow_right two_pos (by omega))
    _ < 2 ^ (p / 2) * 2 ^ (p / 2) := Nat.mul_lt_mul_of_pos_left hhalf (by positivity)
    _ ≤ 2 ^ p := by rw [← pow_add]; exact Nat.pow_le_pow_right two_pos (by omega)

/-- At a precision `128 Q`, `Q` the order of the cyclotomic field of the sample value, the enclosure settles a value that
is no whole number: it is too near none of them (`sample_gap`). -/
theorem quantTest_settles (env : Option (Nat × Nat)) (t : Rat) (henv : ∀ j tn, env = some (j, tn) → 0 < tn)
    (hne : ∀ k : Int, sampleReal 32767 env t ≠ k) (p : Nat)
    (hp : 128 * (8 * t.den * ((env.map Prod.snd).getD 1)) ≤ p) : quantTest 32767 env t p ≠ none := by
  have hQ : 1 ≤ 8 * t.den * ((env.map Prod.snd).getD 1) := by
    have hn : 0 < (env.map Prod.snd).getD 1 := by
      match env with
      | none => exact one_pos
      | some (j, tn) => exact henv j tn rfl
    exact Nat.mul_pos (Nat.mul_pos (by norm_num) t.pos) hn
  intro hnone
  obtain ⟨k, hk⟩ := exists_int_near_of_quantTest_eq_none 32767 env t p (by omega) henv hnone
  have hgap := sample_gap 32767 env t henv k (hne k)
  have hsmall := sample_radius_lt p (by omega)
  have hv := sampleReal_le 32767 env t
  generalize 8 * t.den * ((env.map Prod.snd).getD 1) = Q at *
  generalize sampleReal 32767 env t = v at *
  rw [pow_succ, mul_assoc, mul_left_comm, mul_le_mul_iff_right₀ two_pos] at hk
  have hP : (0 : ℝ) < 2 ^ (2 * p) := by positivity
  have hnear : |v - k| < 1 := by
    by_contra h
    have := mul_le_mul_of_nonneg_left (not_lt.1 h) hP.le
    linarith
  have hkle : |(k : ℝ)| ≤ 32768 := by
    have h1 := abs_sub_abs_le_abs_sub (k : ℝ) v
    rw [abs_sub_comm] at h1
    push_cast at hv
    linarith
  have hB : (8 * ((32767 : Nat) : ℝ) + 8 * |(k : ℝ)| + 1) ^ Q ≤ 2 ^ (19 * Q) := by
    rw [pow_mul]
    exact pow_le_pow_left₀ (by positivity) (by push_cast; linarith) Q
  have hpow : (2 : ℝ) ^ (19 * Q + 24) * p < 2 ^ p := by exact_mod_cast two_pow_mul_lt_two_pow Q p hQ hp
  have hlow : (2 : ℝ) ^ (2 * p) ≤ 8 * (2 ^ (2 * p) * |v - k|) * 2 ^ (19 * Q) := by
    have h1 := mul_le_mul_of_nonneg_left (hgap.trans (mul_le_mul_of_nonneg_left hB (by positivity))) hP.le
    linarith
  have hhigh : 8 * (2 ^ (2 * p) * |v - k|) * 2 ^ (19 * Q) ≤ 2 ^ p * (2 ^ (19 * Q + 24) * p) := by
    calc 8 * (2 ^ (2 * p) * |v - k|) * 2 ^ (19 * Q)
        ≤ 8 * (2 ^ 15 * (2 ^ p * (64 * p))) * 2 ^ (19 * Q) := by
          have h1 := hk.trans (mul_le_mul_of_nonneg_right (show ((32767 : Nat) : ℝ) ≤ 2 ^ 15 by norm_num) (by positivity))
          gcongr
      _ = 2 ^ p * (2 ^ (19 * Q + 24) * p) := by ring
  have htop : (2 : ℝ) ^ p * (2 ^ (19 * Q + 24) * p) < 2 ^ (2 * p) := by
    rw [show (2 : ℝ) ^ (2 * p) = 2 ^ p * 2 ^ p by ring]
    exact mul_lt_mul_of_pos_left hpow (by positivity)
  linarith

/-- The computed sample is the exact one, truncated (R128, R140). -/
theorem quantSine_eq (env : Option (Nat × Nat)) (t : Rat) (henv : ∀ j tn, env = some (j, tn) → 0 < tn) :
    quantSine 32767 env t = truncReal (sampleReal 32767 env t) := by
  refine refine_eq _ _ _ _ _ (fun k a => quantTest_sound 32767 env t _ (basePrec_ge k) henv a) ?_
  rw [quantFuel_eq]
  by_cases hint : ∃ k : Int, sampleReal 32767 env t = k
  · obtain ⟨k, hk⟩ := hint
    rw [hk, truncReal_intCast]
    exact .inr (nearestSample_of_int _ _ _ _ (basePrec_ge _) henv k hk (sample_radius_lt _ (basePrec_ge _)))
  · push Not at hint
    obtain ⟨r, hr, hle⟩ := last_precision (8 * t.den * ((env.map Prod.snd).getD 1))
    refine .inl ⟨_, Nat.lt_succ_self _, quantTest_settles env t henv hint _ ?_⟩
    rw [show 2 ^ (Nat.log2 (8 * t.den * ((env.map Prod.snd).getD 1)) + 2) * basePrecision = r by
      rw [pow_succ, mul_right_comm] at hr; omega]
    exact hle

/-- A truncated number of absolute value at most a whole number keeps that bound. -/
theorem abs_truncReal_le {x : ℝ} {n : Nat} (h : |x| ≤ n) : -(n : Int) ≤ truncReal x ∧ truncReal x ≤ n := by
  obtain ⟨h1, h2⟩ := abs_le.1 h
  have hlo := truncReal_mono h1
  have hhi := truncReal_mono h2
  rw [show (-(n : ℝ)) = ((-(n : Int) : Int) : ℝ) by push_cast; rfl, truncReal_intCast] at hlo
  rw [show (n : ℝ) = ((n : Int) : ℝ) by push_cast; rfl, truncReal_intCast] at hhi
  exact ⟨hlo, hhi⟩

/-- Settles O19: the enclosures settle every sample value, which `AMP` bounds to the range of a sample. -/
theorem renderedSampleIsExact : Obligations.RenderedSampleIsExact := by
  unfold Obligations.RenderedSampleIsExact
  intro c env turns hamp henv
  obtain ⟨hlo, hhi⟩ := abs_truncReal_le (sampleReal_le 32767 env turns)
  have hsample : (renderedSample c env turns).toInt = truncReal (sampleReal 32767 env turns) := by
    rw [renderedSample, hamp, quantSine_eq env turns henv, BitVec.toInt_ofInt_eq_self (by omega) (by omega) (by omega)]
  rw [hsample]
  exact ⟨by simp [sampleReal], hlo, hhi⟩

end Sys2Proof.Machine

/-! ### The two units (O59) -/

namespace Sys2Proof.Machine

/-- What `ENC` reads, besides its own state: `CFG` and `IMG`; and what it leaves: all but its state, the buffers handed
over and the outcome (R10, R20, R91). The command `f` is the function `F` of what `ENC` reads. -/
def ActsOnEnc (f : State → Host.Outcome State Fault Refusal) : Prop :=
  ∃ F : Config → Enc → Option Image → Enc × CmdResult, ∀ s t, f s = .next t →
    (t.enc = (F s.cfg s.enc s.host.img).1 ∧ t.host.result = some (F s.cfg s.enc s.host.img).2)
      ∧ t.cfg = s.cfg ∧ t.dec = s.dec ∧ t.host.port = s.host.port ∧ t.host.portCount = s.host.portCount
      ∧ t.host.raster = s.host.raster ∧ t.host.img = s.host.img ∧ t.host.inbox = s.host.inbox

/-- What `DEC` reads, besides its own state: `CFG`, the port and the raster's calls; and what it leaves: all but its
state, the port, the raster and the outcome (R10, R20, R91). The command `f` is the function `F` of what `DEC` reads. -/
def ActsOnDec (f : State → Host.Outcome State Fault Refusal) : Prop :=
  ∃ F : Config → Dec → List Sample → Nat → List RasterCall → DecOut, ∀ s t, f s = .next t →
    (t.dec = (F s.cfg s.dec s.host.port s.host.portCount s.host.raster).dec
        ∧ t.host.raster = (F s.cfg s.dec s.host.port s.host.portCount s.host.raster).raster
        ∧ t.host.result = some (F s.cfg s.dec s.host.port s.host.portCount s.host.raster).result)
      ∧ t.cfg = s.cfg ∧ t.enc = s.enc ∧ t.host.handed = s.host.handed ∧ t.host.img = s.host.img
      ∧ t.host.inbox = s.host.inbox

/-- A refusal, whatever the state, is an act of `ENC`. -/
theorem actsOnEnc_refuse (r : RefuseReason) : ActsOnEnc fun s => .next (s.refuse r) := by
  refine ⟨fun _ e _ => (e, .refused r), fun s t h => ?_⟩
  cases h
  simp

/-- A command of `ENC` over an operation that reads `CFG` and `IMG` only. -/
theorem actsOnEnc_encCommand (op : Config → Option Image → Enc → EncOut) :
    ActsOnEnc fun s => encCommand s (op s.cfg s.host.img) := by
  refine ⟨fun c e img => if encBlocked e then (e, .refused .encFaulted) else ((op c img e).enc, (op c img e).result),
    fun s t h => ?_⟩
  rcases encCommand_cases s (op s.cfg s.host.img) with ⟨hb, heq⟩ | ⟨hb, heq⟩
  all_goals
    simp only [heq, Host.Outcome.next.injEq] at h
    subst h
    simp [hb]

/-- `ENCODE` answers what `ENC` answers to the image, malformed or not (R186, R283). -/
theorem actsOnEnc_encode (vis : BitVec 8) : ActsOnEnc (execEncode vis) := by
  refine ⟨fun c _ img => match img with
    | none => ((encRaise .reset .malformedInput).enc, (encRaise .reset .malformedInput).result)
    | some im =>
      if im.width = 0 ∨ im.height = 0 then ((encRaise .reset .malformedInput).enc, (encRaise .reset .malformedInput).result)
      else ((encodeImage c im vis).enc, (encodeImage c im vis).result), fun s t h => ?_⟩
  unfold execEncode at h
  cases himg : s.host.img with
  | none =>
    simp only [himg, Host.Outcome.next.injEq] at h
    subst h
    simp [himg]
  | some im =>
    simp only [himg] at h
    split at h
    all_goals
      next hsize =>
        simp only [Host.Outcome.next.injEq] at h
        subst h
        simp [himg, hsize]

/-- A refusal, whatever the state, is an act of `DEC`. -/
theorem actsOnDec_refuse (r : RefuseReason) : ActsOnDec fun s => .next (s.refuse r) := by
  refine ⟨fun _ d _ _ calls => ⟨d, calls, .refused r⟩, fun s t h => ?_⟩
  cases h
  simp

/-- A command of `DEC` over an operation that reads `CFG` only. -/
theorem actsOnDec_decCommand (op : Config → Dec → List RasterCall → DecOut) :
    ActsOnDec fun s => decCommand s (op s.cfg) := by
  refine ⟨fun c d _ _ calls => if decBlocked d then ⟨d, calls, .refused .decFaulted⟩ else op c d calls, fun s t h => ?_⟩
  rcases decCommand_cases s (op s.cfg) with ⟨hb, heq⟩ | ⟨hb, heq⟩
  all_goals
    simp only [heq, Host.Outcome.next.injEq] at h
    subst h
    simp [hb]

/-- The samples that `APPEND` takes depend on the port and its counter only. -/
theorem portSamples_congr (h : HostSide) (n : Nat) :
    portSamples h n = portSamples { HostSide.initial with port := h.port, portCount := h.portCount } n := rfl

/-- `APPEND` answers what `DEC` answers to the port's samples (R220). -/
theorem actsOnDec_append (n : BitVec 32) : ActsOnDec (execAppend n) := by
  refine ⟨fun c d port count calls =>
    if decBlocked d then ⟨d, calls, .refused .decFaulted⟩
    else if d.stopped then ⟨d, calls, .refused .stopped⟩
    else passAction c (d.appendSb (portSamples { HostSide.initial with port := port, portCount := count } (countOperand n)))
      calls, fun s t h => ?_⟩
  unfold execAppend at h
  dsimp only at h
  split at h
  case isTrue hb =>
    cases h
    simp [hb]
  case isFalse hb =>
    split at h
    case isTrue hstop =>
      cases h
      simp [hb, hstop]
    case isFalse hstop =>
      split at h
      case isTrue => cases h
      case isFalse =>
        cases h
        simp [hb, hstop, ← portSamples_congr]

/-- `DRESET` answers the reset state of `DEC` (R268). -/
theorem actsOnDec_dreset : ActsOnDec execDreset := by
  refine ⟨fun _ _ _ _ calls => ⟨.reset, calls, .ok⟩, fun s t h => ?_⟩
  cases h
  simp

/-- Every command of `ENC` reads and writes what `ENC` may (R20, R91). -/
theorem exec_actsOnEnc (i : Instr) (hu : unitOf i = .enc) : ActsOnEnc (exec i) := by
  cases i with
  | padv freq => exact actsOnEnc_encCommand fun c _ e => encOk { e with phase := advancePhase c (freqOperand freq) e.phase }
  | tone freq dur taper => exact actsOnEnc_encCommand fun c _ => renderTone c (freqOperand freq) (durOperand dur) taper
  | sweep dur => exact actsOnEnc_encCommand fun c _ => renderSweep c (durOperand dur)
  | bits n pat dur =>
    by_cases hn : 8 < n.toNat
    · rw [show exec (.bits n pat dur) = fun s => .next (s.refuse (.reservedWord .bitCount)) from funext fun _ => if_pos hn]
      exact actsOnEnc_refuse _
    by_cases hp : 2 ^ n.toNat ≤ pat.toNat
    · rw [show exec (.bits n pat dur) = fun s => .next (s.refuse (.reservedWord .bitPattern)) from
        funext fun _ => (if_neg hn).trans (if_pos hp)]
      exact actsOnEnc_refuse _
    · rw [show exec (.bits n pat dur) = fun s => encCommand s (renderBits s.cfg (bitsOperand n.toNat pat) (durOperand dur)) from
        funext fun _ => (if_neg hn).trans (if_neg hp)]
      exact actsOnEnc_encCommand fun c _ => renderBits c (bitsOperand n.toNat pat) (durOperand dur)
  | sil dur => exact actsOnEnc_encCommand fun c _ => renderSilence c (durOperand dur)
  | ldch k y =>
    change ActsOnEnc (execLdch k y)
    unfold execLdch
    cases channelOperand k with
    | none => exact actsOnEnc_refuse _
    | some ch => exact actsOnEnc_encCommand fun c img => loadChannel c img ch (rowOperand y)
  | ereset =>
    refine ⟨fun _ _ _ => (.reset, .ok), fun s t h => ?_⟩
    cases h
    simp
  | encode vis => exact actsOnEnc_encode vis
  | _ => cases hu

/-- Every command of `DEC` reads and writes what `DEC` may (R20, R91). -/
theorem exec_actsOnDec (i : Instr) (hu : unitOf i = .dec) : ActsOnDec (exec i) := by
  cases i with
  | append n => exact actsOnDec_append n
  | peek n => exact actsOnDec_decCommand fun _ => peekAction (countOperand n)
  | consume n => exact actsOnDec_decCommand fun _ => consumeAction (countOperand n)
  | goertz freq =>
    exact actsOnDec_decCommand fun c d r =>
      ⟨{ d with
          gp := power c.sampleRate (freqOperand freq) d.win
          gm := magnitude c.sampleRate (freqOperand freq) d.win }, r, .ok⟩
  | visdet => exact actsOnDec_decCommand visdetAction
  | syncdet => exact actsOnDec_decCommand syncdetAction
  | porchdet => exact actsOnDec_decCommand porchdetAction
  | chdec k =>
    change ActsOnDec (execChdec k)
    unfold execChdec
    cases channelOperand k with
    | none => exact actsOnDec_refuse _
    | some ch => exact actsOnDec_decCommand fun c => chdecAction c ch
  | rowout => exact actsOnDec_decCommand rowoutAction
  | step => exact actsOnDec_decCommand stepAction
  | pass => exact actsOnDec_decCommand passAction
  | stop => exact actsOnDec_decCommand fun _ d r => ⟨d.setStopped, r, .ok⟩
  | dreset => exact actsOnDec_dreset
  | _ => cases hu

/-- Settles O59: each command is a function of what its unit reads, and keeps the rest. -/
theorem unitsDoNotInterfere : Obligations.UnitsDoNotInterfere := by
  unfold Obligations.UnitsDoNotInterfere
  refine ⟨fun i s t h hu => ?_, fun i s t h hu => ?_, fun i s₁ s₂ t₁ t₂ h₁ h₂ hu hcfg henc himg => ?_,
    fun i s₁ s₂ t₁ t₂ h₁ h₂ hu hcfg hdec hport hcount hraster => ?_⟩
  · obtain ⟨F, hF⟩ := exec_actsOnEnc i hu
    exact (hF s t h).2
  · obtain ⟨F, hF⟩ := exec_actsOnDec i hu
    exact (hF s t h).2
  · obtain ⟨F, hF⟩ := exec_actsOnEnc i hu
    obtain ⟨⟨e₁, r₁⟩, -⟩ := hF s₁ t₁ h₁
    obtain ⟨⟨e₂, r₂⟩, -⟩ := hF s₂ t₂ h₂
    rw [e₁, r₁, e₂, r₂, hcfg, henc, himg]
    exact ⟨rfl, rfl⟩
  · obtain ⟨F, hF⟩ := exec_actsOnDec i hu
    obtain ⟨⟨d₁, c₁, r₁⟩, -⟩ := hF s₁ t₁ h₁
    obtain ⟨⟨d₂, c₂, r₂⟩, -⟩ := hF s₂ t₂ h₂
    rw [d₁, c₁, r₁, d₂, c₂, r₂, hcfg, hdec, hport, hcount, hraster]
    exact ⟨rfl, rfl, rfl⟩

end Sys2Proof.Machine

/-! ### Decisions over the powers of a window (O38, O39, O40) -/

namespace Sys2Proof.Machine

/-! An integer combination of two powers, and why a late enough precision separates it from 0. -/

/-- A bound of the radius of every power's enclosure of a window: 0 for a window of zeros, which has an exact one. -/
noncomputable def powerRadius (w : List Sample) (p : Nat) : ℝ :=
  if windowBound w = 0 then 0 else 2 ^ p * (288 * w.length * p * ((windowBound w : ℝ) + 1) ^ 2)

theorem powerBall_rad_le_powerRadius (rate f : Nat) (w : List Sample) (p : Nat) (hp : 64 ≤ p)
    (hn : w.length * (32 * p) ≤ 2 ^ p) : ((powerBall rate f w p).rad : ℝ) ≤ powerRadius w p := by
  unfold powerRadius
  split
  · next hw => simp [powerBall_zero rate f w p hw]
  · exact powerBall_rad rate f w p hp hn

/-- The power's enclosure as two bounds. -/
theorem powerBall_bounds (rate f : Nat) (w : List Sample) (p : Nat) (hp : 64 ≤ p) :
    ((powerBall rate f w p).lo : ℝ) ≤ 2 ^ (2 * p) * (2 ^ 30 * powerReal rate f w)
      ∧ 2 ^ (2 * p) * (2 ^ 30 * powerReal rate f w) ≤ (powerBall rate f w p).hi := by
  have h := powerBall_encloses rate f w p hp
  rw [pow_add, mul_assoc] at h
  exact ⟨h.lo_le, h.le_hi⟩

/-- How far apart the two bounds are. -/
theorem powerBall_width (rate f : Nat) (w : List Sample) (p : Nat) (hp : 64 ≤ p) (hn : w.length * (32 * p) ≤ 2 ^ p) :
    ((powerBall rate f w p).hi : ℝ) - (powerBall rate f w p).lo ≤ 2 * powerRadius w p := by
  have h := powerBall_rad_le_powerRadius rate f w p hp hn
  simp only [RealBall.hi, RealBall.lo]
  push_cast
  linarith

/-- A scaled distance is the distance of the scaled numbers. -/
theorem abs_mul_two_pow (x : ℝ) (n : Nat) : |x| * 2 ^ n = |x * 2 ^ n| := by
  rw [abs_mul, abs_of_pos (show (0 : ℝ) < 2 ^ n by positivity)]

/-- The exact test (`vanishesAt_iff`) over terms of a real value. -/
theorem vanishesAt_iff_eq_zero {q : Nat} {ts : List (Nat × Int)} {v : ℝ} (hq : 0 < q) (hlt : ∀ t ∈ ts, t.1 < q)
    (hv : termsValue (turn (1 / q)) ts = v) : vanishesAt q ts = true ↔ v = 0 := by
  rw [vanishesAt_iff q hq ts hlt _ (turn_prim q hq), hv, Complex.ofReal_eq_zero]

/-- The combination `α P₁ + β P₀ + γ` of the powers at `f1` and `f0`, each scaled by `2 ^ 30` to a cyclotomic integer. -/
noncomputable def powerCombination (rate f1 f0 : Nat) (w : List Sample) (α β γ : Int) : ℝ :=
  α * (2 ^ 30 * powerReal rate f1 w) + β * (2 ^ 30 * powerReal rate f0 w) + γ

/-- The terms of that combination in powers of a root of unity of order `q`. -/
def combinationTerms (q e1 e0 : Nat) (w : List Sample) (α β γ : Int) : List (Nat × Int) :=
  (0, γ) :: (normSqTerms q e1 α (w.map BitVec.toInt) ++ normSqTerms q e0 β (w.map BitVec.toInt))

theorem combinationTerms_lt (q e1 e0 : Nat) (hq : 0 < q) (w : List Sample) (α β γ : Int) :
    ∀ t ∈ combinationTerms q e1 e0 w α β γ, t.1 < q := by
  intro t ht
  simp only [combinationTerms, List.mem_cons, List.mem_append] at ht
  rcases ht with rfl | ht | ht
  · exact hq
  · exact normSqTerms_lt q e1 hq α _ t ht
  · exact normSqTerms_lt q e0 hq β _ t ht

/-- At every root of unity the combination is at most its coefficients times the window's bound. -/
theorem norm_combinationTerms_le (q e1 e0 : Nat) (hq : 0 < q) (w : List Sample) (α β γ : Int) (ξ : ℂ) (hξ : ξ ^ q = 1) :
    ‖termsValue ξ (combinationTerms q e1 e0 w α β γ)‖
      ≤ (|(α : ℝ)| + |(β : ℝ)|) * (windowBound w : ℝ) ^ 2 + |(γ : ℝ)| := by
  have norm_le : ∀ (e : Nat) (s : Int),
      ‖termsValue ξ (normSqTerms q e s (w.map BitVec.toInt))‖ ≤ |(s : ℝ)| * (windowBound w : ℝ) ^ 2 := fun e s => by
    rw [normSqTerms_value q e hq s _ ξ hξ, Complex.norm_real, Real.norm_eq_abs, abs_mul, abs_of_nonneg (sq_nonneg ‖_‖)]
    exact mul_le_mul_of_nonneg_left (norm_root_listValue q e hq w ξ hξ) (abs_nonneg _)
  rw [combinationTerms, turn_zero_term, termsValue_append]
  have h1 := norm_add_le (γ : ℂ)
    (termsValue ξ (normSqTerms q e1 α (w.map BitVec.toInt)) + termsValue ξ (normSqTerms q e0 β (w.map BitVec.toInt)))
  have h2 := norm_add_le (termsValue ξ (normSqTerms q e1 α (w.map BitVec.toInt)))
    (termsValue ξ (normSqTerms q e0 β (w.map BitVec.toInt)))
  rw [Complex.norm_intCast] at h1
  linarith [norm_le e1 α, norm_le e0 β]

section
variable {rate f1 f0 g : Nat} (hr : 0 < rate) (hgr : g ∣ rate) (hg1 : g ∣ f1) (hg0 : g ∣ f0) (w : List Sample)
  (α β γ : Int)

include hr hgr hg1 hg0 in
/-- The terms have the combination's value. -/
theorem combinationTerms_value :
    termsValue (turn (1 / ((rate / g : Nat) : ℝ))) (combinationTerms (rate / g) (f1 / g) (f0 / g) w α β γ)
      = (powerCombination rate f1 f0 w α β γ : ℂ) := by
  have hg : 0 < g := Nat.pos_of_dvd_of_pos hgr hr
  rw [combinationTerms, turn_zero_term, termsValue_append, power_value rate f1 g hr hg hgr hg1,
    power_value rate f0 g hr hg hgr hg0, powerCombination]
  push_cast
  ring

include hr hgr hg1 hg0 in
/-- A combination that is not 0 outgrows the enclosures' radii at a precision linear in the order of its field, the
logarithm of `bound` and the window's length: it is a cyclotomic integer, so it keeps a distance from 0 (`terms_gap`). -/
theorem mul_powerRadius_lt_of_ne_zero {bound r : Nat} {M : ℝ}
    (hB : (|(α : ℝ)| + |(β : ℝ)|) * (windowBound w : ℝ) ^ 2 + |(γ : ℝ)| ≤ 2 * bound) (hW : windowBound w ^ 2 ≤ bound)
    (hM0 : 0 ≤ M) (hM : windowBound w ≠ 0 → M ≤ 8 * bound)
    (hprec : 128 * (rate / g * (Nat.log2 bound + 1) + w.length + 16) ≤ r)
    (hne : powerCombination rate f1 f0 w α β γ ≠ 0) :
    M * powerRadius w (2 * r) < |powerCombination rate f1 f0 w α β γ| * 2 ^ (2 * (2 * r)) := by
  have hq : 0 < rate / g := Nat.div_pos (Nat.le_of_dvd hr hgr) (Nat.pos_of_dvd_of_pos hgr hr)
  have hval := combinationTerms_value hr hgr hg1 hg0 w α β γ
  have hgap := terms_gap (rate / g) hq (combinationTerms (rate / g) (f1 / g) (f0 / g) w α β γ) (2 * bound + 1)
    (le_add_of_nonneg_left (by positivity))
    (fun ξ hξ => (norm_combinationTerms_le _ _ _ hq w α β γ ξ hξ).trans (hB.trans (le_add_of_nonneg_right zero_le_one)))
    (by rw [hval]; exact_mod_cast hne)
  rw [hval, Complex.norm_real, Real.norm_eq_abs] at hgap
  have hlog : bound + 1 ≤ 2 ^ (Nat.log2 bound + 1) := bound_log bound
  have hlog' : (bound : ℝ) + 1 ≤ 2 ^ (Nat.log2 bound + 1) := by exact_mod_cast hlog
  by_contra hopen
  refine undecided_false (rate / g) (Nat.log2 bound) w.length r (windowBound w) _ M (2 * bound + 1) (powerRadius w (2 * r))
    hq _ rfl hprec hM0 (fun hw0 => (hM hw0).trans ?_) ?_ (le_add_of_nonneg_left (by positivity)) ?_ hgap (not_lt.1 hopen)
    (fun hw0 => if_pos hw0) ?_
  · rw [show Nat.log2 bound + 16 = (Nat.log2 bound + 1) + 3 + 12 by ring, pow_add _ _ 12, pow_add _ _ 3]
    linarith
  · rw [show Nat.log2 bound + 3 = (Nat.log2 bound + 1) + 2 by ring, pow_add]
    nlinarith [Nat.zero_le (windowBound w)]
  · rw [show Nat.log2 bound + 3 = (Nat.log2 bound + 1) + 2 by ring, pow_add]
    linarith
  · unfold powerRadius
    split
    · positivity
    · exact le_rfl

end

/-- The precisions that `signFuel` reaches: the last one tried, and the one after, are fine enough for
`mul_powerRadius_lt_of_ne_zero` and short windows against the power of two. -/
theorem signFuel_precision (q bound n j : Nat) :
    ∃ r, 2 ^ (signFuel q bound n + j) * basePrecision = 2 * r ∧ 128 * (q * (Nat.log2 bound + 1) + n + 16) ≤ r
      ∧ n * (32 * (2 * r)) ≤ 2 ^ (2 * r) := by
  obtain ⟨r, hr, hle⟩ := last_precision (q * (Nat.log2 bound + 1) + n + 16)
  refine ⟨2 ^ j * r, ?_, hle.trans (Nat.le_mul_of_pos_left r (by positivity)), ?_⟩
  · rw [signFuel, pow_add, mul_right_comm, show Nat.log2 (q * (Nat.log2 bound + 1) + n + 16) + 3
      = Nat.log2 (q * (Nat.log2 bound + 1) + n + 16) + 2 + 1 from rfl, hr]
    ring
  · exact small_window n _ _ (by omega) (hle.trans (Nat.le_mul_of_pos_left r (by positivity)))

/-- The last precision settles a test of the sign of a combination that is not 0, if an open test leaves the combination
within `M` radii. -/
theorem exists_precision_settles {rate f1 f0 g : Nat} (hr : 0 < rate) (hgr : g ∣ rate) (hg1 : g ∣ f1) (hg0 : g ∣ f0)
    {w : List Sample} {α β γ : Int} {bound : Nat} {M : ℝ} {test : Nat → Option Bool}
    (hB : (|(α : ℝ)| + |(β : ℝ)|) * (windowBound w : ℝ) ^ 2 + |(γ : ℝ)| ≤ 2 * bound) (hW : windowBound w ^ 2 ≤ bound)
    (hM0 : 0 ≤ M) (hM : windowBound w ≠ 0 → M ≤ 8 * bound)
    (hopen : ∀ p, 64 ≤ p → w.length * (32 * p) ≤ 2 ^ p → test p = none →
      |powerCombination rate f1 f0 w α β γ| * 2 ^ (2 * p) ≤ M * powerRadius w p)
    (hne : powerCombination rate f1 f0 w α β γ ≠ 0) :
    ∃ k, k < signFuel (rate / g) bound w.length ∧ test (2 ^ (k + 1) * basePrecision) ≠ none := by
  obtain ⟨r, hfuel, hprec, hn⟩ := signFuel_precision (rate / g) bound w.length 0
  refine ⟨signFuel (rate / g) bound w.length - 1, Nat.sub_one_lt (by simp [signFuel]), fun hnone => ?_⟩
  rw [Nat.sub_add_cancel (by simp [signFuel]), ← Nat.add_zero (signFuel _ _ _), hfuel] at hnone
  exact absurd (hopen (2 * r) (by omega) hn hnone)
    (not_le.2 (mul_powerRadius_lt_of_ne_zero hr hgr hg1 hg0 w α β γ hB hW hM0 hM hprec hne))

/-! The two comparisons of R133 decide a sign. -/

/-- A decision between two numbers answers the sign of `v`, if its tests and its tie do, and one of its precisions
settles every `v` but 0. -/
theorem decideReal_eq_decide_pos {test : Nat → Option Bool} {tie : Unit → Bool} {fuel : Nat} {v : ℝ}
    (htest : ∀ p, 64 ≤ p → ∀ a, test p = some a → (a = true ↔ 0 < v)) (htie : tie () = true ↔ v = 0)
    (hsettles : v ≠ 0 → ∃ k, k < fuel ∧ test (2 ^ (k + 1) * basePrecision) ≠ none) :
    decideReal test tie (fun _ => false) fuel = true ↔ 0 < v := by
  rw [← decide_eq_true_iff (p := 0 < v), Bool.coe_iff_coe]
  refine decideReal_eq _ _ _ _ _ (fun k a ha => ?_) (fun _ ht => ?_) fun ht => .inl (hsettles ?_)
  · rw [← Bool.coe_iff_coe, decide_eq_true_iff]
    exact htest _ (basePrec_ge k) a ha
  · simp [htie.1 ht]
  · intro hv
    rw [htie.2 hv] at ht
    cases ht

/-- The test of `powerGreater` at the precision `p`. -/
def powerTest (rate f1 f0 : Nat) (w : List Sample) (p : Nat) : Option Bool :=
  if (powerBall rate f0 w p).hi < (powerBall rate f1 w p).lo then some true
  else if (powerBall rate f1 w p).hi ≤ (powerBall rate f0 w p).lo then some false
  else none

theorem powerGreater_eq (rate f1 f0 : Nat) (w : List Sample) :
    powerGreater rate f1 f0 w =
      decideReal (powerTest rate f1 f0 w)
        (fun _ => vanishesAt (rate / (f1.gcd f0).gcd rate)
          (normSqTerms (rate / (f1.gcd f0).gcd rate) (f1 / (f1.gcd f0).gcd rate) 1 (w.map BitVec.toInt)
            ++ normSqTerms (rate / (f1.gcd f0).gcd rate) (f0 / (f1.gcd f0).gcd rate) (-1) (w.map BitVec.toInt)))
        (fun _ => false) (signFuel (rate / (f1.gcd f0).gcd rate) (windowBound w ^ 2) w.length) := rfl

/-- A settled test compares the powers. -/
theorem powerTest_sound (rate f1 f0 : Nat) (w : List Sample) (p : Nat) (hp : 64 ≤ p) (a : Bool)
    (h : powerTest rate f1 f0 w p = some a) : a = true ↔ 0 < powerCombination rate f1 f0 w 1 (-1) 0 := by
  obtain ⟨hlo1, hhi1⟩ := powerBall_bounds rate f1 w p hp
  obtain ⟨hlo0, hhi0⟩ := powerBall_bounds rate f0 w p hp
  have hP : (0 : ℝ) < 2 ^ (2 * p) := by positivity
  have hscale : 0 < powerCombination rate f1 f0 w 1 (-1) 0
      ↔ 2 ^ (2 * p) * (2 ^ 30 * powerReal rate f0 w) < 2 ^ (2 * p) * (2 ^ 30 * powerReal rate f1 w) := by
    rw [mul_lt_mul_iff_right₀ hP, powerCombination]
    push_cast
    constructor <;> intro h <;> linarith
  rw [hscale]
  unfold powerTest at h
  split_ifs at h with hgt hle
  all_goals obtain rfl := Option.some.inj h
  · have hgt' : ((powerBall rate f0 w p).hi : ℝ) < (powerBall rate f1 w p).lo := by exact_mod_cast hgt
    simp only [true_iff]
    linarith
  · have hle' : ((powerBall rate f1 w p).hi : ℝ) ≤ (powerBall rate f0 w p).lo := by exact_mod_cast hle
    simp only [Bool.false_eq_true, false_iff, not_lt]
    linarith

/-- An open test leaves the powers within four radii. -/
theorem powerTest_open (rate f1 f0 : Nat) (w : List Sample) (p : Nat) (hp : 64 ≤ p) (hn : w.length * (32 * p) ≤ 2 ^ p)
    (h : powerTest rate f1 f0 w p = none) :
    |powerCombination rate f1 f0 w 1 (-1) 0| * 2 ^ (2 * p) ≤ 4 * powerRadius w p := by
  obtain ⟨hlo1, hhi1⟩ := powerBall_bounds rate f1 w p hp
  obtain ⟨hlo0, hhi0⟩ := powerBall_bounds rate f0 w p hp
  have hw1 := powerBall_width rate f1 w p hp hn
  have hw0 := powerBall_width rate f0 w p hp hn
  unfold powerTest at h
  split_ifs at h with hgt hle
  have hgt' : ((powerBall rate f1 w p).lo : ℝ) ≤ (powerBall rate f0 w p).hi := by exact_mod_cast not_lt.1 hgt
  have hle' : ((powerBall rate f0 w p).lo : ℝ) < (powerBall rate f1 w p).hi := by exact_mod_cast not_le.1 hle
  have hdiff : powerCombination rate f1 f0 w 1 (-1) 0 * 2 ^ (2 * p)
      = 2 ^ (2 * p) * (2 ^ 30 * powerReal rate f1 w) - 2 ^ (2 * p) * (2 ^ 30 * powerReal rate f0 w) := by
    rw [powerCombination]
    push_cast
    ring
  rw [abs_mul_two_pow, hdiff, abs_le]
  constructor <;> linarith

/-- The computed comparison of two powers is the exact one, strict (R246). -/
theorem powerGreater_iff (rate f1 f0 : Nat) (w : List Sample) (hr : 0 < rate) :
    powerGreater rate f1 f0 w = true ↔ powerReal rate f0 w < powerReal rate f1 w := by
  have hgr : (f1.gcd f0).gcd rate ∣ rate := Nat.gcd_dvd_right _ _
  have hg1 : (f1.gcd f0).gcd rate ∣ f1 := (Nat.gcd_dvd_left _ _).trans (Nat.gcd_dvd_left _ _)
  have hg0 : (f1.gcd f0).gcd rate ∣ f0 := (Nat.gcd_dvd_left _ _).trans (Nat.gcd_dvd_right _ _)
  rw [powerGreater_eq]
  generalize (f1.gcd f0).gcd rate = g at *
  have hg : 0 < g := Nat.pos_of_dvd_of_pos hgr hr
  have hq : 0 < rate / g := Nat.div_pos (Nat.le_of_dvd hr hgr) hg
  rw [show powerReal rate f0 w < powerReal rate f1 w ↔ 0 < powerCombination rate f1 f0 w 1 (-1) 0 by
    rw [powerCombination]; push_cast; constructor <;> intro h <;> linarith]
  refine decideReal_eq_decide_pos (powerTest_sound rate f1 f0 w) (vanishesAt_iff_eq_zero hq ?_ ?_) fun hne => ?_
  · intro t ht
    rcases List.mem_append.1 ht with h | h <;> exact normSqTerms_lt _ _ hq _ _ t h
  · rw [← combinationTerms_value hr hgr hg1 hg0, combinationTerms, turn_zero_term, Int.cast_zero, zero_add]
  · refine exists_precision_settles hr hgr hg1 hg0 ?_ le_rfl (by norm_num) (fun hw0 => ?_) (powerTest_open rate f1 f0 w) hne
    · norm_num
    · have : (1 : ℝ) ≤ ((windowBound w ^ 2 : Nat) : ℝ) := by exact_mod_cast Nat.one_le_iff_ne_zero.2 (pow_ne_zero 2 hw0)
      linarith

end Sys2Proof.Machine

/-! ### The tone decision (O38) -/

namespace Sys2Proof.Machine

/-- The threshold of `magnitudeAbove`, squared and scaled as the power is. -/
def scaledThreshold (threshold : Rat) (w : List Sample) : Nat := threshold.num.natAbs ^ 2 * w.length ^ 2 * 2 ^ 30

/-- The test of `magnitudeAbove` at the precision `p`. -/
def magnitudeTest (rate f : Nat) (threshold : Rat) (w : List Sample) (p : Nat) : Option Bool :=
  if (scaledThreshold threshold w * 2 ^ (2 * p) : Int) < (4 * threshold.den ^ 2 : Nat) * (powerBall rate f w p).lo then
    some true
  else if (4 * threshold.den ^ 2 : Nat) * (powerBall rate f w p).hi ≤ (scaledThreshold threshold w * 2 ^ (2 * p) : Int) then
    some false
  else none

theorem magnitudeAbove_of_neg (rate f : Nat) (threshold : Rat) (w : List Sample) (h : threshold.num < 0) :
    magnitudeAbove rate f threshold w = true := if_pos h

theorem magnitudeAbove_of_nonneg (rate f : Nat) (threshold : Rat) (w : List Sample) (h : 0 ≤ threshold.num) :
    magnitudeAbove rate f threshold w =
      decideReal (magnitudeTest rate f threshold w)
        (fun _ => vanishesAt (rate / f.gcd rate) ((0, -(scaledThreshold threshold w : Int))
          :: normSqTerms (rate / f.gcd rate) (f / f.gcd rate) (4 * threshold.den ^ 2 : Nat) (w.map BitVec.toInt)))
        (fun _ => false)
        (signFuel (rate / f.gcd rate) (4 * threshold.den ^ 2 * windowBound w ^ 2 + scaledThreshold threshold w)
          w.length) := if_neg (not_lt.2 h)

/-- How far the scaled square of `MAG` lies above the scaled square of the threshold. -/
noncomputable def magnitudeExcess (rate f : Nat) (threshold : Rat) (w : List Sample) : ℝ :=
  powerCombination rate f f w (4 * threshold.den ^ 2 : Nat) 0 (-(scaledThreshold threshold w : Int))

theorem magnitudeExcess_eq (rate f : Nat) (threshold : Rat) (w : List Sample) :
    magnitudeExcess rate f threshold w
      = 4 * (threshold.den : ℝ) ^ 2 * (2 ^ 30 * powerReal rate f w) - scaledThreshold threshold w := by
  rw [magnitudeExcess, powerCombination]
  push_cast
  ring

/-- A threshold that is not negative lies below `MAG` exactly when the excess is positive (R214). -/
theorem lt_magReal_iff (rate f : Nat) (threshold : Rat) (w : List Sample) (h : 0 ≤ threshold.num) :
    (threshold : ℝ) < magReal rate f w ↔ 0 < magnitudeExcess rate f threshold w := by
  have hb : (0 : ℝ) < threshold.den := by exact_mod_cast threshold.pos
  have ha : (0 : ℝ) ≤ threshold.num := by exact_mod_cast h
  have habs : ((threshold.num.natAbs : Nat) : ℝ) = threshold.num := by
    rw [Nat.cast_natAbs, abs_of_nonneg h]
  have ht : (threshold : ℝ) = threshold.num / threshold.den := Rat.cast_def threshold
  rw [magnitudeExcess_eq, scaledThreshold]
  push_cast
  rw [habs, ht]
  rcases Nat.eq_zero_or_pos w.length with hw | hw
  · rw [List.length_eq_zero_iff] at hw
    subst hw
    simp [magReal, powerReal, windowSum, div_nonneg ha hb.le]
  · have hn : (0 : ℝ) < w.length := by exact_mod_cast hw
    rw [magReal, if_neg hw.ne', div_lt_div_iff₀ hb hn, ← sub_pos, sub_pos,
      show 2 * Real.sqrt (powerReal rate f w) * threshold.den = Real.sqrt ((2 * threshold.den) ^ 2 * powerReal rate f w) by
        rw [Real.sqrt_mul (sq_nonneg _), Real.sqrt_sq (by positivity)]; ring,
      Real.lt_sqrt (by positivity)]
    constructor <;> intro hlt <;> nlinarith

/-- A settled test tells the sign of the excess. -/
theorem magnitudeTest_sound (rate f : Nat) (threshold : Rat) (w : List Sample) (p : Nat) (hp : 64 ≤ p) (a : Bool)
    (h : magnitudeTest rate f threshold w p = some a) : a = true ↔ 0 < magnitudeExcess rate f threshold w := by
  obtain ⟨hlo, hhi⟩ := powerBall_bounds rate f w p hp
  have hP : (0 : ℝ) < 2 ^ (2 * p) := by positivity
  have hb : (0 : ℝ) ≤ 4 * (threshold.den : ℝ) ^ 2 := by positivity
  have hlo' := mul_le_mul_of_nonneg_left hlo hb
  have hhi' := mul_le_mul_of_nonneg_left hhi hb
  rw [← mul_pos_iff_of_pos_left hP, magnitudeExcess_eq]
  unfold magnitudeTest at h
  split_ifs at h with hgt hle
  all_goals obtain rfl := Option.some.inj h
  · have hgt' : (scaledThreshold threshold w * 2 ^ (2 * p) : ℝ)
        < 4 * (threshold.den : ℝ) ^ 2 * (powerBall rate f w p).lo := by exact_mod_cast hgt
    simp only [true_iff]
    linarith
  · have hle' : 4 * (threshold.den : ℝ) ^ 2 * (powerBall rate f w p).hi
        ≤ (scaledThreshold threshold w * 2 ^ (2 * p) : ℝ) := by exact_mod_cast hle
    simp only [Bool.false_eq_true, false_iff, not_lt]
    linarith

/-- An open test leaves the excess within the radius, scaled. -/
theorem magnitudeTest_open (rate f : Nat) (threshold : Rat) (w : List Sample) (p : Nat) (hp : 64 ≤ p)
    (hn : w.length * (32 * p) ≤ 2 ^ p) (h : magnitudeTest rate f threshold w p = none) :
    |magnitudeExcess rate f threshold w| * 2 ^ (2 * p) ≤ 8 * (threshold.den : ℝ) ^ 2 * powerRadius w p := by
  obtain ⟨hlo, hhi⟩ := powerBall_bounds rate f w p hp
  have hb : (0 : ℝ) ≤ 4 * (threshold.den : ℝ) ^ 2 := by positivity
  have hlo' := mul_le_mul_of_nonneg_left hlo hb
  have hhi' := mul_le_mul_of_nonneg_left hhi hb
  have hwidth := mul_le_mul_of_nonneg_left (powerBall_width rate f w p hp hn) hb
  unfold magnitudeTest at h
  split_ifs at h with hgt hle
  have hgt' : 4 * (threshold.den : ℝ) ^ 2 * (powerBall rate f w p).lo
      ≤ (scaledThreshold threshold w * 2 ^ (2 * p) : ℝ) := by exact_mod_cast not_lt.1 hgt
  have hle' : (scaledThreshold threshold w * 2 ^ (2 * p) : ℝ)
      < 4 * (threshold.den : ℝ) ^ 2 * (powerBall rate f w p).hi := by exact_mod_cast not_le.1 hle
  rw [abs_mul_two_pow, magnitudeExcess_eq, abs_le]
  constructor <;> linarith

/-- The computed test of a magnitude is the exact one, strict (R214, R248). -/
theorem magnitudeAbove_iff (rate f : Nat) (threshold : Rat) (w : List Sample) (hr : 0 < rate) :
    magnitudeAbove rate f threshold w = true ↔ (threshold : ℝ) < magReal rate f w := by
  rcases lt_or_ge threshold.num 0 with hneg | hnonneg
  · have hmag : 0 ≤ magReal rate f w := by unfold magReal; split <;> positivity
    have ht : (threshold : ℝ) < 0 := by exact_mod_cast Rat.num_neg.1 hneg
    exact iff_of_true (magnitudeAbove_of_neg rate f threshold w hneg) (ht.trans_le hmag)
  rw [magnitudeAbove_of_nonneg rate f threshold w hnonneg, lt_magReal_iff rate f threshold w hnonneg]
  have hgr : f.gcd rate ∣ rate := Nat.gcd_dvd_right _ _
  have hgf : f.gcd rate ∣ f := Nat.gcd_dvd_left _ _
  generalize f.gcd rate = g at *
  have hq : 0 < rate / g := Nat.div_pos (Nat.le_of_dvd hr hgr) (Nat.pos_of_dvd_of_pos hgr hr)
  have hg : 0 < g := Nat.pos_of_dvd_of_pos hgr hr
  refine decideReal_eq_decide_pos (magnitudeTest_sound rate f threshold w) (vanishesAt_iff_eq_zero hq ?_ ?_) fun hne => ?_
  · intro t ht
    rcases List.mem_cons.1 ht with rfl | ht
    · exact hq
    · exact normSqTerms_lt _ _ hq _ _ t ht
  · rw [turn_zero_term, power_value rate f g hr hg hgr hgf, magnitudeExcess_eq]
    push_cast
    ring
  · have hden : 1 ≤ threshold.den ^ 2 := Nat.one_le_pow _ _ threshold.pos
    refine exists_precision_settles hr hgr hgf hgf ?_ ?_ (by positivity) (fun hw0 => ?_)
      (magnitudeTest_open rate f threshold w) hne
    · push_cast
      rw [abs_neg, abs_of_nonneg (by positivity), Nat.abs_cast]
      have : (0 : ℝ) ≤ 4 * (threshold.den : ℝ) ^ 2 * (windowBound w : ℝ) ^ 2 := by positivity
      have : (0 : ℝ) ≤ scaledThreshold threshold w := Nat.cast_nonneg _
      simp only [abs_zero, add_zero]
      linarith
    · nlinarith [Nat.zero_le (windowBound w ^ 2)]
    · have hW : 1 ≤ windowBound w ^ 2 := Nat.one_le_iff_ne_zero.2 (pow_ne_zero 2 hw0)
      have hle : 8 * threshold.den ^ 2 ≤ 8 * (4 * threshold.den ^ 2 * windowBound w ^ 2 + scaledThreshold threshold w) := by
        nlinarith
      exact_mod_cast hle

/-- Settles O38: the decision of a tone is the exact test of its magnitude. -/
theorem toneDecisionIsExact : Obligations.ToneDecisionIsExact := by
  unfold Obligations.ToneDecisionIsExact
  exact fun c f w hr => magnitudeAbove_iff c.sampleRate f c.toneThreshold w hr

end Sys2Proof.Machine

/-! ### The VIS byte (O39) -/

namespace Sys2Proof.Machine

/-- Shifting bits into a byte from the right puts the last one lowest. -/
theorem getLsbD_shiftIn (bits : List Bool) (acc : BitVec 8) (i : Nat) (hi : i < 8) (hlen : i < bits.length) :
    (bits.foldl (fun (byte : BitVec 8) b => byte <<< 1 ||| (BitVec.ofBool b).setWidth 8) acc).getLsbD i
      = bits.getD (bits.length - 1 - i) false := by
  induction bits using List.reverseRecOn generalizing i with
  | nil => simp at hlen
  | append_singleton bits b ih =>
    rw [List.foldl_append, List.foldl_cons, List.foldl_nil, BitVec.getLsbD_or, BitVec.getLsbD_shiftLeft,
      BitVec.getLsbD_setWidth, List.length_append, List.length_singleton]
    cases i with
    | zero => simp
    | succ i =>
      simp only [List.length_append, List.length_singleton] at hlen
      have hcut : bits.length + 1 - 1 - (i + 1) = bits.length - 1 - i := by omega
      rw [hcut, List.getD_append _ _ _ _ (by omega), Nat.add_sub_cancel, ih i (by omega) (by omega)]
      simp [hi, BitVec.getLsbD_of_ge]

/-- Most significant bit first: bit `j` of eight stands at place `7 - j` (R246). -/
theorem getLsbD_assembleVis_msbFirst (bits : List Bool) (hlen : bits.length = 8) (j : Nat) (hj : j < 8) :
    (assembleVis .msbFirst bits).getLsbD (7 - j) = bits.getD j false := by
  have h := getLsbD_shiftIn bits 0 (7 - j) (by omega) (by omega)
  rwa [hlen, show 8 - 1 - (7 - j) = j by omega] at h

/-- Least significant bit first: bit `j` of eight stands at place `j` (R246). -/
theorem getLsbD_assembleVis_lsbFirst (bits : List Bool) (hlen : bits.length = 8) (j : Nat) (hj : j < 8) :
    (assembleVis .lsbFirst bits).getLsbD j = bits.getD j false := by
  have h := getLsbD_shiftIn bits.reverse 0 j hj (by simpa [hlen] using hj)
  rwa [List.length_reverse, List.getD_reverse _ (by omega), hlen, show 8 - 1 - (8 - 1 - j) = j by omega] at h

/-- Settles O39: the byte's bit for slot `j` is the comparison of that slot's powers, which is exact. -/
theorem visByteIsExact : Obligations.VisByteIsExact := by
  unfold Obligations.VisByteIsExact
  intro c d j hr hj spb w
  rw [← powerGreater_iff c.sampleRate c.visRxF1 c.visRxF0 w hr]
  have hbit : ((List.range 8).map fun j => visBit c (sbPeek d ((c.visSkipSlots + j) * spb) spb)).getD j false
      = powerGreater c.sampleRate c.visRxF1 c.visRxF0 w := by
    rw [List.getD_eq_getElem _ _ (by simpa using hj), List.getElem_map, List.getElem_range]
    rfl
  rw [← hbit]
  cases ho : c.visBitOrder with
  | msbFirst =>
    change (visByte c d).getLsbD (7 - j) = true ↔ _
    rw [visByte, ho, getLsbD_assembleVis_msbFirst _ (by simp) j hj]
  | lsbFirst =>
    change (visByte c d).getLsbD j = true ↔ _
    rw [visByte, ho, getLsbD_assembleVis_lsbFirst _ (by simp) j hj]

end Sys2Proof.Machine

/-! ### The pixel (O40) -/

namespace Sys2Proof.Machine

/-- What `round_half_up` takes the floor of, at the powers `h` and `l` (R253). -/
noncomputable def pixelRatio (ε h l : ℝ) : ℝ := 255 * h / (l + h + ε) + 1 / 2

/-- `pixelRatio` less `k`, with its divisor multiplied out. -/
noncomputable def pixelExcess (k : Int) (ε h l : ℝ) : ℝ := (511 - 2 * k) * h - (2 * k - 1) * l - (2 * k - 1) * ε

theorem pixelExcess_eq (k : Int) {ε h l : ℝ} (hd : 0 < l + h + ε) :
    pixelExcess k ε h l = 2 * (l + h + ε) * (pixelRatio ε h l - k) := by
  unfold pixelExcess pixelRatio
  field_simp
  ring

/-- A whole number is at most the ratio exactly when the excess over it is not negative. -/
theorem le_pixelRatio_iff (k : Int) {ε h l : ℝ} (hd : 0 < l + h + ε) : (k : ℝ) ≤ pixelRatio ε h l ↔ 0 ≤ pixelExcess k ε h l := by
  rw [pixelExcess_eq k hd, mul_nonneg_iff_of_pos_left (by linarith), sub_nonneg]

/-- The ratio is a whole number exactly when the excess over it vanishes. -/
theorem pixelRatio_eq_iff (k : Int) {ε h l : ℝ} (hd : 0 < l + h + ε) : pixelRatio ε h l = k ↔ pixelExcess k ε h l = 0 := by
  rw [pixelExcess_eq k hd, mul_eq_zero_iff_left (by linarith), sub_eq_zero]

/-- The excess is linear in a common scale. -/
theorem pixelExcess_scale (k : Int) (S ε h l : ℝ) : pixelExcess k (S * ε) (S * h) (S * l) = S * pixelExcess k ε h l := by
  unfold pixelExcess
  ring

/-- An excess below 0 that powers within `δ` lift to 0 is small. -/
theorem abs_pixelExcess_le {k : Int} (h1 : 1 ≤ k) (h255 : k ≤ 255) {ε h h' l l' δ : ℝ} (hneg : pixelExcess k ε h l < 0)
    (hlift : 0 ≤ pixelExcess k ε h' l') (hh : h' - h ≤ δ) (hl : l - l' ≤ δ) : |pixelExcess k ε h l| ≤ 510 * δ := by
  have h1R : (1 : ℝ) ≤ k := by exact_mod_cast h1
  have h255R : (k : ℝ) ≤ 255 := by exact_mod_cast h255
  have hHigh := mul_le_mul_of_nonneg_left hh (show (0 : ℝ) ≤ 511 - 2 * k by linarith)
  have hLow := mul_le_mul_of_nonneg_left hl (show (0 : ℝ) ≤ 2 * k - 1 by linarith)
  rw [abs_of_neg hneg]
  unfold pixelExcess at *
  linarith

/-- A common scale cancels. -/
theorem pixelRatio_scale {S : ℝ} (hS : 0 < S) (ε h l : ℝ) : pixelRatio (S * ε) (S * h) (S * l) = pixelRatio ε h l := by
  unfold pixelRatio
  rw [show 255 * (S * h) / (S * l + S * h + S * ε) = S * (255 * h) / (S * (l + h + ε)) by ring,
    mul_div_mul_left _ _ hS.ne']

/-- The ratio rises with the high power and falls with the low one. -/
theorem pixelRatio_mono {ε h h' l l' : ℝ} (hε : 0 < ε) (hh : 0 ≤ h) (hhh : h ≤ h') (hl' : 0 ≤ l') (hll : l' ≤ l) :
    pixelRatio ε h l ≤ pixelRatio ε h' l' := by
  unfold pixelRatio
  rw [add_le_add_iff_right, div_le_div_iff₀ (by linarith) (by linarith)]
  have h1 : h * l' ≤ h' * l := mul_le_mul hhh hll hl' (hh.trans hhh)
  have h2 : h * ε ≤ h' * ε := mul_le_mul_of_nonneg_right hhh hε.le
  linarith

/-- The ratio lies between 1/2 and 255.5. -/
theorem pixelRatio_range {ε h l : ℝ} (hε : 0 < ε) (hh : 0 ≤ h) (hl : 0 ≤ l) :
    0 ≤ ⌊pixelRatio ε h l⌋ ∧ ⌊pixelRatio ε h l⌋ ≤ 255 := by
  have hd : 0 < l + h + ε := by linarith
  have h0 : 0 ≤ 255 * h / (l + h + ε) := by positivity
  have h1 : 255 * h / (l + h + ε) ≤ 255 := by rw [div_le_iff₀ hd]; linarith
  unfold pixelRatio
  refine ⟨Int.floor_nonneg.2 (by linarith), Int.lt_add_one_iff.1 (Int.floor_lt.2 ?_)⟩
  push_cast
  linarith

/-- The integer computation of `pixelFloor` is the floor of the ratio. -/
theorem pixelFloor_eq (eps : Rat) (heps : 0 < eps) (p : Nat) {h l : Int} (hh : 0 ≤ h) (hl : 0 ≤ l) :
    pixelFloor eps p h l = ⌊pixelRatio (2 ^ (2 * p) * (2 ^ 30 * (eps : ℝ))) h l⌋ := by
  have hnum : 0 < eps.num := Rat.num_pos.2 heps
  have hden : 0 < (eps.den : Int) := by exact_mod_cast eps.pos
  have hhR : (0 : ℝ) ≤ h := by exact_mod_cast hh
  have hlR : (0 : ℝ) ≤ l := by exact_mod_cast hl
  have hepsR : (0 : ℝ) < eps := by exact_mod_cast heps
  have hdenR : (0 : ℝ) < eps.den := by exact_mod_cast eps.pos
  have hd : 0 < (l + h) * (eps.den : Int) + eps.num * 2 ^ (2 * p + 30) := by positivity
  refine eq_of_forall_le_iff fun k => ?_
  have hscaled : (((510 * h * eps.den + ((l + h) * eps.den + eps.num * 2 ^ (2 * p + 30))
        - k * (2 * ((l + h) * eps.den + eps.num * 2 ^ (2 * p + 30))) : Int)) : ℝ)
      = eps.den * pixelExcess k (2 ^ (2 * p) * (2 ^ 30 * (eps : ℝ))) h l := by
    rw [pixelExcess, Rat.cast_def eps, pow_add]
    push_cast
    field_simp
    ring
  rw [Int.le_floor, le_pixelRatio_iff k (by positivity), pixelFloor, Int.le_ediv_iff_mul_le (by positivity), ← sub_nonneg,
    ← mul_nonneg_iff_of_pos_left hdenR, ← hscaled, Int.cast_nonneg_iff]

section
variable (rate fHigh fLow : Nat) (eps : Rat) (w : List Sample) (p : Nat)

/-- The ratio at the exact powers of a window. -/
noncomputable def pixelExact : ℝ := pixelRatio eps (powerReal rate fHigh w) (powerReal rate fLow w)

/-- The least value `round_half_up` can have within the enclosures at `p`. -/
def pixelLow : Int := pixelFloor eps p (max 0 (powerBall rate fHigh w p).lo) (powerBall rate fLow w p).hi

/-- The exact ratio at the scale of the enclosures. -/
theorem pixelExact_eq_scaled : pixelExact rate fHigh fLow eps w
    = pixelRatio (2 ^ (2 * p) * (2 ^ 30 * (eps : ℝ))) (2 ^ (2 * p) * (2 ^ 30 * powerReal rate fHigh w))
        (2 ^ (2 * p) * (2 ^ 30 * powerReal rate fLow w)) := by
  rw [pixelRatio_scale (by positivity), pixelRatio_scale (by positivity), pixelExact]

/-- The ends of a power's enclosure that are not negative. -/
theorem powerBall_nonneg_bounds (f : Nat) (hp : 64 ≤ p) :
    (0 : ℝ) ≤ (max 0 (powerBall rate f w p).lo : Int)
      ∧ ((max 0 (powerBall rate f w p).lo : Int) : ℝ) ≤ 2 ^ (2 * p) * (2 ^ 30 * powerReal rate f w)
      ∧ 0 ≤ (powerBall rate f w p).hi := by
  obtain ⟨hlo, hhi⟩ := powerBall_bounds rate f w p hp
  have hpow : 0 ≤ 2 ^ (2 * p) * (2 ^ 30 * powerReal rate f w) := by have := power_nonneg rate f w; positivity
  refine ⟨by exact_mod_cast le_max_left _ _, ?_, by exact_mod_cast hpow.trans hhi⟩
  push_cast
  exact max_le hpow hlo

variable (heps : 0 < eps) (hp : 64 ≤ p)
include heps hp

/-- `pixelHigh` is the floor of the ratio at the greatest high power and the least low power. -/
theorem pixelHigh_eq : pixelHigh rate fHigh fLow eps w p = ⌊pixelRatio (2 ^ (2 * p) * (2 ^ 30 * (eps : ℝ)))
    (powerBall rate fHigh w p).hi (max 0 (powerBall rate fLow w p).lo : Int)⌋ :=
  pixelFloor_eq eps heps p (powerBall_nonneg_bounds rate w p fHigh hp).2.2 (le_max_left _ _)

/-- The exact value is at most `pixelHigh`. -/
theorem floor_pixelExact_le_pixelHigh : ⌊pixelExact rate fHigh fLow eps w⌋ ≤ pixelHigh rate fHigh fLow eps w p := by
  have hepsR : (0 : ℝ) < eps := by exact_mod_cast heps
  obtain ⟨hL0, hL, -⟩ := powerBall_nonneg_bounds rate w p fLow hp
  have hH := power_nonneg rate fHigh w
  rw [pixelHigh_eq rate fHigh fLow eps w p heps hp, pixelExact_eq_scaled rate fHigh fLow eps w p]
  exact Int.floor_mono
    (pixelRatio_mono (by positivity) (by positivity) (powerBall_bounds rate fHigh w p hp).2 hL0 hL)

/-- The exact value is at least `pixelLow`. -/
theorem pixelLow_le_floor_pixelExact : pixelLow rate fHigh fLow eps w p ≤ ⌊pixelExact rate fHigh fLow eps w⌋ := by
  have hepsR : (0 : ℝ) < eps := by exact_mod_cast heps
  obtain ⟨hH0, hH, -⟩ := powerBall_nonneg_bounds rate w p fHigh hp
  obtain ⟨-, -, hLhi⟩ := powerBall_nonneg_bounds rate w p fLow hp
  have hL := power_nonneg rate fLow w
  rw [pixelLow, pixelFloor_eq eps heps p (le_max_left _ _) hLhi, pixelExact_eq_scaled rate fHigh fLow eps w p]
  exact Int.floor_mono
    (pixelRatio_mono (by positivity) hH0 hH (by positivity) (powerBall_bounds rate fLow w p hp).2)

/-- `pixelHigh` is a channel value. -/
theorem pixelHigh_range : 0 ≤ pixelHigh rate fHigh fLow eps w p ∧ pixelHigh rate fHigh fLow eps w p ≤ 255 := by
  have hepsR : (0 : ℝ) < eps := by exact_mod_cast heps
  obtain ⟨-, -, hhi⟩ := powerBall_nonneg_bounds rate w p fHigh hp
  rw [pixelHigh_eq rate fHigh fLow eps w p heps hp]
  exact pixelRatio_range (by positivity) (by exact_mod_cast hhi) (powerBall_nonneg_bounds rate w p fLow hp).1

end

/-- The excess of the exact ratio over `k`, scaled to a cyclotomic integer. -/
noncomputable def pixelCombination (rate fHigh fLow : Nat) (eps : Rat) (w : List Sample) (k : Int) : ℝ :=
  powerCombination rate fHigh fLow w (510 * eps.den - (2 * k - 1) * eps.den) (-(2 * k - 1) * eps.den)
    (-(2 * k - 1) * eps.num * 2 ^ 30)

theorem pixelCombination_eq (rate fHigh fLow : Nat) (eps : Rat) (w : List Sample) (k : Int) :
    pixelCombination rate fHigh fLow eps w k
      = eps.den * (2 ^ 30 * pixelExcess k eps (powerReal rate fHigh w) (powerReal rate fLow w)) := by
  have hden : (eps.den : ℝ) ≠ 0 := by exact_mod_cast eps.pos.ne'
  rw [pixelCombination, powerCombination, pixelExcess, Rat.cast_def eps]
  push_cast
  field_simp
  ring

/-- The combination at the scale of the enclosures. -/
theorem pixelCombination_scaled (rate fHigh fLow : Nat) (eps : Rat) (w : List Sample) (k : Int) (p : Nat) :
    pixelCombination rate fHigh fLow eps w k * 2 ^ (2 * p)
      = eps.den * pixelExcess k (2 ^ (2 * p) * (2 ^ 30 * (eps : ℝ))) (2 ^ (2 * p) * (2 ^ 30 * powerReal rate fHigh w))
          (2 ^ (2 * p) * (2 ^ 30 * powerReal rate fLow w)) := by
  rw [pixelExcess_scale, pixelExcess_scale, pixelCombination_eq]
  ring

/-- What the precisions of `pixelEstimate` are chosen by. -/
def pixelBound (eps : Rat) (w : List Sample) : Nat := 2000 * eps.den * windowBound w ^ 2 + 512 * eps.num.natAbs * 2 ^ 30

/-- The coefficients of `pixelCombination` against that bound, for a channel value `k`. -/
theorem pixel_coefficients_le (eps : Rat) (w : List Sample) {k : Int} (h0 : 0 ≤ k) (h255 : k ≤ 255) :
    (|((510 * eps.den - (2 * k - 1) * eps.den : Int) : ℝ)| + |((-(2 * k - 1) * eps.den : Int) : ℝ)|)
        * (windowBound w : ℝ) ^ 2 + |((-(2 * k - 1) * eps.num * 2 ^ 30 : Int) : ℝ)| ≤ 2 * pixelBound eps w := by
  have h0R : (0 : ℝ) ≤ k := by exact_mod_cast h0
  have h255R : (k : ℝ) ≤ 255 := by exact_mod_cast h255
  have hα : |((510 * eps.den - (2 * k - 1) * eps.den : Int) : ℝ)| ≤ 511 * eps.den := by
    rw [show ((510 * eps.den - (2 * k - 1) * eps.den : Int) : ℝ) = (511 - 2 * k) * eps.den by push_cast; ring,
      abs_mul, Nat.abs_cast]
    exact mul_le_mul_of_nonneg_right (abs_le.2 ⟨by linarith, by linarith⟩) (Nat.cast_nonneg _)
  have hk : |(-(2 * k - 1) : ℝ)| ≤ 509 := abs_le.2 ⟨by linarith, by linarith⟩
  have hβ : |((-(2 * k - 1) * eps.den : Int) : ℝ)| ≤ 509 * eps.den := by
    push_cast
    rw [abs_mul, Nat.abs_cast]
    exact mul_le_mul_of_nonneg_right hk (Nat.cast_nonneg _)
  have hγ : |((-(2 * k - 1) * eps.num * 2 ^ 30 : Int) : ℝ)| ≤ 509 * |(eps.num : ℝ)| * 2 ^ 30 := by
    rw [show ((-(2 * k - 1) * eps.num * 2 ^ 30 : Int) : ℝ) = -(2 * (k : ℝ) - 1) * eps.num * 2 ^ 30 by push_cast; ring,
      ← abs_mul_two_pow, abs_mul]
    gcongr
  have hW := mul_le_mul_of_nonneg_right (add_le_add hα hβ) (sq_nonneg (windowBound w : ℝ))
  have hden : (0 : ℝ) ≤ eps.den * (windowBound w : ℝ) ^ 2 := by positivity
  have hnum := abs_nonneg (eps.num : ℝ)
  have hbound : (pixelBound eps w : ℝ) = 2000 * eps.den * (windowBound w : ℝ) ^ 2 + 512 * |(eps.num : ℝ)| * 2 ^ 30 := by
    unfold pixelBound
    push_cast [Nat.cast_natAbs]
    ring
  linarith

/-- The test of `pixelEstimate` at the precision `p`. -/
def pixelTest (rate fHigh fLow : Nat) (eps : Rat) (w : List Sample) (p : Nat) : Option Int :=
  if pixelLow rate fHigh fLow eps w p = pixelHigh rate fHigh fLow eps w p then some (pixelLow rate fHigh fLow eps w p)
  else none

theorem pixelEstimate_eq_decideReal (rate fHigh fLow : Nat) (eps : Rat) (w : List Sample) :
    pixelEstimate rate fHigh fLow eps w =
      decideReal (pixelTest rate fHigh fLow eps w)
        (fun _ => vanishesAt (rate / (fHigh.gcd fLow).gcd rate)
          (combinationTerms (rate / (fHigh.gcd fLow).gcd rate) (fHigh / (fHigh.gcd fLow).gcd rate)
            (fLow / (fHigh.gcd fLow).gcd rate) w
            (510 * eps.den - (2 * pixelHigh rate fHigh fLow eps w basePrecision - 1) * eps.den)
            (-(2 * pixelHigh rate fHigh fLow eps w basePrecision - 1) * eps.den)
            (-(2 * pixelHigh rate fHigh fLow eps w basePrecision - 1) * eps.num * 2 ^ 30)))
        (pixelHigh rate fHigh fLow eps w)
        (signFuel (rate / (fHigh.gcd fLow).gcd rate) (pixelBound eps w) w.length) := rfl

/-- A settled test is right. -/
theorem pixelTest_sound (rate fHigh fLow : Nat) (eps : Rat) (w : List Sample) (heps : 0 < eps) (p : Nat) (hp : 64 ≤ p)
    (a : Int) (h : pixelTest rate fHigh fLow eps w p = some a) : a = ⌊pixelExact rate fHigh fLow eps w⌋ := by
  simp only [pixelTest, Option.ite_none_right_eq_some, Option.some.injEq] at h
  obtain ⟨heq, rfl⟩ := h
  exact le_antisymm (pixelLow_le_floor_pixelExact rate fHigh fLow eps w p heps hp)
    (heq ▸ floor_pixelExact_le_pixelHigh rate fHigh fLow eps w p heps hp)

/-- Where `pixelHigh` is above the exact value, the exact ratio lies below it by no more than the radii. -/
theorem pixelCombination_of_lt_pixelHigh (rate fHigh fLow : Nat) (eps : Rat) (w : List Sample) (heps : 0 < eps) (p : Nat)
    (hp : 64 ≤ p) (hn : w.length * (32 * p) ≤ 2 ^ p)
    (hlt : ⌊pixelExact rate fHigh fLow eps w⌋ < pixelHigh rate fHigh fLow eps w p) :
    pixelCombination rate fHigh fLow eps w (pixelHigh rate fHigh fLow eps w p) < 0
      ∧ |pixelCombination rate fHigh fLow eps w (pixelHigh rate fHigh fLow eps w p)| * 2 ^ (2 * p)
        ≤ 1020 * eps.den * powerRadius w p := by
  have hepsR : (0 : ℝ) < eps := by exact_mod_cast heps
  have hden : (0 : ℝ) < eps.den := by exact_mod_cast eps.pos
  have hPH := power_nonneg rate fHigh w
  have hPL := power_nonneg rate fLow w
  obtain ⟨hL0, -, -⟩ := powerBall_nonneg_bounds rate w p fLow hp
  obtain ⟨-, -, hHhi⟩ := powerBall_nonneg_bounds rate w p fHigh hp
  have hHhiR : (0 : ℝ) ≤ (powerBall rate fHigh w p).hi := by exact_mod_cast hHhi
  have hloL : ((powerBall rate fLow w p).lo : ℝ) ≤ (max 0 (powerBall rate fLow w p).lo : Int) := by
    exact_mod_cast le_max_right _ _
  have hK := (pixelHigh_range rate fHigh fLow eps w p heps hp).2
  have hK1 : 1 ≤ pixelHigh rate fHigh fLow eps w p := (pixelRatio_range hepsR hPH hPL).1.trans_lt hlt
  have hlift := (pixelHigh_eq rate fHigh fLow eps w p heps hp).le
  rw [Int.le_floor, le_pixelRatio_iff _ (by positivity)] at hlift
  rw [Int.floor_lt, pixelExact_eq_scaled rate fHigh fLow eps w p, ← not_le, le_pixelRatio_iff _ (by positivity), not_le] at hlt
  have hnear := abs_pixelExcess_le hK1 hK hlt hlift (δ := 2 * powerRadius w p)
    (by linarith [powerBall_bounds rate fHigh w p hp, powerBall_width rate fHigh w p hp hn])
    (by linarith [powerBall_bounds rate fLow w p hp, powerBall_width rate fLow w p hp hn])
  constructor
  · refine neg_of_mul_neg_left (b := (2 : ℝ) ^ (2 * p)) ?_ (by positivity)
    rw [pixelCombination_scaled]
    exact mul_neg_of_pos_of_neg hden hlt
  · rw [abs_mul_two_pow, pixelCombination_scaled, abs_mul, abs_of_pos hden, mul_comm (1020 : ℝ), mul_assoc]
    exact mul_le_mul_of_nonneg_left (by linarith) hden.le

/-- At the last precision `pixelHigh` is the exact value. -/
theorem pixelHigh_last (rate fHigh fLow g : Nat) (eps : Rat) (w : List Sample) (heps : 0 < eps) (hr : 0 < rate)
    (hgr : g ∣ rate) (hgH : g ∣ fHigh) (hgL : g ∣ fLow) :
    pixelHigh rate fHigh fLow eps w (2 ^ (signFuel (rate / g) (pixelBound eps w) w.length + 1) * basePrecision)
      = ⌊pixelExact rate fHigh fLow eps w⌋ := by
  obtain ⟨r, hfuel, hprec, hn⟩ := signFuel_precision (rate / g) (pixelBound eps w) w.length 1
  rw [hfuel]
  have hp : 64 ≤ 2 * r := by omega
  by_contra hne
  have hlt := lt_of_le_of_ne (floor_pixelExact_le_pixelHigh rate fHigh fLow eps w (2 * r) heps hp) (Ne.symm hne)
  obtain ⟨hneg, hsmall⟩ := pixelCombination_of_lt_pixelHigh rate fHigh fLow eps w heps (2 * r) hp hn hlt
  obtain ⟨hK0, hK⟩ := pixelHigh_range rate fHigh fLow eps w (2 * r) heps hp
  generalize pixelHigh rate fHigh fLow eps w (2 * r) = K at *
  have hden : 1 ≤ eps.den := eps.pos
  refine absurd hsmall (not_le.2 (mul_powerRadius_lt_of_ne_zero hr hgr hgH hgL w _ _ _ ?_ ?_ (by positivity)
    (fun hw0 => ?_) hprec hneg.ne))
  · exact pixel_coefficients_le eps w hK0 hK
  · exact Nat.le_add_right_of_le (Nat.le_mul_of_pos_left _ (by omega))
  · have hW : 1 ≤ windowBound w ^ 2 := Nat.one_le_iff_ne_zero.2 (pow_ne_zero 2 hw0)
    have hle : 1020 * eps.den ≤ 8 * pixelBound eps w := by
      have := Nat.le_mul_of_pos_right eps.den hW
      rw [pixelBound, mul_assoc 2000]
      omega
    exact_mod_cast hle

/-- The computed pixel is the exact one (R253). -/
theorem pixelEstimate_eq (rate fHigh fLow : Nat) (eps : Rat) (w : List Sample) (hr : 0 < rate) (heps : 0 < eps) :
    pixelEstimate rate fHigh fLow eps w = ⌊pixelExact rate fHigh fLow eps w⌋ := by
  have hgr : (fHigh.gcd fLow).gcd rate ∣ rate := Nat.gcd_dvd_right _ _
  have hgH : (fHigh.gcd fLow).gcd rate ∣ fHigh := (Nat.gcd_dvd_left _ _).trans (Nat.gcd_dvd_left _ _)
  have hgL : (fHigh.gcd fLow).gcd rate ∣ fLow := (Nat.gcd_dvd_left _ _).trans (Nat.gcd_dvd_right _ _)
  rw [pixelEstimate_eq_decideReal]
  generalize (fHigh.gcd fLow).gcd rate = g at *
  have hq : 0 < rate / g := Nat.div_pos (Nat.le_of_dvd hr hgr) (Nat.pos_of_dvd_of_pos hgr hr)
  refine decideReal_eq _ _ _ _ _ (fun k a ha => pixelTest_sound rate fHigh fLow eps w heps _ (basePrec_ge k) a ha)
    (fun _ htie => ?_) fun _ => .inr (pixelHigh_last rate fHigh fLow g eps w heps hr hgr hgH hgL)
  have hepsR : (0 : ℝ) < eps := by exact_mod_cast heps
  have hPH := power_nonneg rate fHigh w
  have hPL := power_nonneg rate fLow w
  have hden : (eps.den : ℝ) ≠ 0 := by exact_mod_cast eps.pos.ne'
  have hzero := (vanishesAt_iff_eq_zero hq (combinationTerms_lt _ _ _ hq w _ _ _)
    (combinationTerms_value hr hgr hgH hgL w _ _ _)).1 htie
  change pixelCombination rate fHigh fLow eps w _ = 0 at hzero
  rw [pixelCombination_eq, mul_eq_zero_iff_left hden, mul_eq_zero_iff_left (by positivity),
    ← pixelRatio_eq_iff _ (by positivity)] at hzero
  rw [pixelExact, hzero, Int.floor_intCast]

/-- A clamped number fits a channel value. -/
theorem toNat_ofInt_clamp (v : Int) : ((BitVec.ofInt 8 (clamp v)).toNat : Int) = clamp v := by
  have hrange : 0 ≤ clamp v ∧ clamp v ≤ 255 := by
    unfold clamp
    split_ifs <;> omega
  rw [BitVec.toNat_ofInt]
  omega

/-- A window of zeros has no power. -/
theorem powerReal_of_zeros (rate f : Nat) (w : List Sample) (h : ∀ v ∈ w, v = 0) : powerReal rate f w = 0 := by
  have hbound : windowBound w = 0 := by
    refine List.sum_eq_zero fun n hn => ?_
    obtain ⟨v, hv, rfl⟩ := List.mem_map.1 hn
    simp [h v hv]
  have hnorm := norm_dftValue_le rate f w
  rw [hbound, Nat.cast_zero] at hnorm
  simp [powerReal_eq, le_antisymm hnorm (norm_nonneg _)]

/-- Settles O40: the estimate is the exact value, which a clamp keeps; no power gives 0. -/
theorem pixelValueIsExact : Obligations.PixelValueIsExact := by
  unfold Obligations.PixelValueIsExact
  intro c w hr heps
  have hpix : pix c w = BitVec.ofInt 8 (clamp (pixReal c w)) := by
    rw [pix, pixelEstimate_eq _ _ _ _ _ hr heps]
    rfl
  refine ⟨hpix ▸ toNat_ofInt_clamp _, fun hzeros => ?_⟩
  have hzero : pixReal c w = 0 := by
    rw [pixReal, powerReal_of_zeros _ _ _ hzeros, roundHalfUp]
    norm_num
  rw [hpix, hzero]
  rfl

end Sys2Proof.Machine

/-! ### What an operation of `ENC` can do (O10, O35, O57) -/

namespace Sys2Proof.Machine

/-- Every frequency of a line lies in the band (R124, R125). -/
def InBand (c : Config) (fs : List Rat) : Prop := ∀ f ∈ fs, (c.blackFreq : Rat) ≤ f ∧ f ≤ c.channelMaxFreq

/-- What an operation of `ENC` may do to the unit: the phase and `PCM` only grow (R23, R62), the line stays in the band,
and the latch takes the code of what the operation raises, or stays (R281, R282). -/
structure Advances (c : Config) (e : Enc) (o : EncOut) : Prop where
  phase_le : e.phase ≤ o.enc.phase
  pcm_grows : e.pcm <+: o.enc.pcm
  fq_in_band : InBand c o.enc.fq
  raised_codes : ∀ x, o.raised = some x → x.exc ∈ [.preconditionError, .malformedInput]
  fault_eq : o.enc.fault = (o.raised.map Raise.exc).or e.fault

/-- An operation that does no more than that from any state with its line in the band. -/
def EncOperation (c : Config) (f : Enc → EncOut) : Prop := ∀ e, InBand c e.fq → Advances c e (f e)

theorem mem_band_nonneg {c : Config} {fs : List Rat} (h : InBand c fs) : ∀ f ∈ fs, 0 ≤ f := fun f hf =>
  (Nat.cast_nonneg c.blackFreq).trans (h f hf).1

/-- Every channel value has its frequency in the band (R124). -/
theorem fmap_mem_band (c : Config) (hband : c.blackFreq ≤ c.channelMaxFreq) (v : Nat) (hv : v ≤ 255) :
    (c.blackFreq : Rat) ≤ fmap c v ∧ fmap c v ≤ c.channelMaxFreq := by
  have hspan : (0 : Rat) ≤ (c.channelMaxFreq : Rat) - c.blackFreq := sub_nonneg.2 (by exact_mod_cast hband)
  have hv0 : (0 : Rat) ≤ (v : Rat) / 255 := by positivity
  have hv1 : (v : Rat) / 255 ≤ 1 := (div_le_one (by norm_num)).2 (by exact_mod_cast hv)
  have hlow := mul_nonneg hv0 hspan
  have hhigh := mul_le_mul_of_nonneg_right hv1 hspan
  unfold fmap
  constructor <;> linarith

/-- A sweep over frequencies that are not negative interpolates to none that is (R150). -/
theorem sweepFreq_nonneg (fs : List Rat) (spp i : Nat) (hspp : 0 < spp) (hfs : ∀ f ∈ fs, 0 ≤ f) :
    0 ≤ sweepFreq fs spp i := by
  have getD_nonneg (j : Nat) : 0 ≤ fs.getD j 0 := by
    rw [List.getD_eq_getElem?_getD]
    cases h : fs[j]? with
    | none => exact le_rfl
    | some f => exact hfs f (List.mem_of_getElem? h)
  have interpolate_nonneg {a b α : Rat} (ha : 0 ≤ a) (hb : 0 ≤ b) (h0 : 0 ≤ α) (h1 : α ≤ 1) : 0 ≤ a + α * (b - a) := by
    have hrest := mul_nonneg (sub_nonneg.2 h1) ha
    have hpart := mul_nonneg h0 hb
    linarith
  have hα : ((i % spp : Nat) : Rat) / spp ≤ 1 :=
    (div_le_one (by exact_mod_cast hspp)).2 (by exact_mod_cast (Nat.mod_lt i hspp).le)
  exact interpolate_nonneg (getD_nonneg _) (getD_nonneg _) (by positivity) hα

/-- A segment of frequencies that are not negative does not set the phase back (R130). -/
theorem phase_le_renderSegment (c : Config) (f : Nat → Rat) (v : Nat → Option (Nat × Nat)) (n : Nat) (e : Enc)
    (hf : ∀ i, 0 ≤ f i) : e.phase ≤ (renderSegment c f v n e).phase := by
  rw [renderSegment_phase, renderSamples_phase_map]
  refine le_add_of_nonneg_right (div_nonneg (List.sum_nonneg fun x hx => ?_) (Nat.cast_nonneg _))
  obtain ⟨k, -, rfl⟩ := List.mem_map.1 hx
  exact hf _

section
variable {c : Config} {e : Enc}

/-- An operation that raises latches the code and writes nothing else. -/
theorem advances_encRaise (hfq : InBand c e.fq) (x : Raise) (hx : x.exc ∈ [.preconditionError, .malformedInput]) :
    Advances c e (encRaise e x) where
  phase_le := le_rfl
  pcm_grows := List.prefix_rfl
  fq_in_band := hfq
  raised_codes := by rintro _ ⟨⟩; exact hx
  fault_eq := rfl

theorem advances_encOk (hfq : InBand c e.fq) : Advances c e (encOk e) where
  phase_le := le_rfl
  pcm_grows := List.prefix_rfl
  fq_in_band := hfq
  raised_codes := by simp
  fault_eq := rfl

/-- A segment of frequencies that are not negative. -/
theorem advances_renderSegment (hfq : InBand c e.fq) (f : Nat → Rat) (v : Nat → Option (Nat × Nat)) (n : Nat)
    (hf : ∀ i, 0 ≤ f i) : Advances c e (encOk (renderSegment c f v n e)) where
  phase_le := phase_le_renderSegment c f v n e hf
  pcm_grows := List.prefix_append _ _
  fq_in_band := hfq
  raised_codes := by simp
  fault_eq := rfl

/-- A sequence of two operations. -/
theorem Advances.andThen {o : EncOut} {f : Enc → EncOut} (h : Advances c e o) (hf : EncOperation c f) :
    Advances c e (o.andThen f) := by
  rcases EncOut.andThen_cases o f with ⟨hnone, heq⟩ | ⟨-, heq⟩
  · have hnext := hf o.enc h.fq_in_band
    rw [heq]
    refine ⟨h.phase_le.trans hnext.phase_le, h.pcm_grows.trans hnext.pcm_grows, hnext.fq_in_band, hnext.raised_codes, ?_⟩
    rw [hnext.fault_eq, h.fault_eq, hnone]
    rfl
  · rwa [heq]

/-- `SEQ` is none of the registers that `Advances` speaks of. -/
theorem EncOperation.atStage {f : Enc → EncOut} (hf : EncOperation c f) (g : Stage) (y : Nat) (k : Fin 3) :
    EncOperation c fun e => f (e.atStage g y k) := fun e hfq =>
  let h := hf (e.atStage g y k) hfq
  ⟨h.phase_le, h.pcm_grows, h.fq_in_band, h.raised_codes, h.fault_eq⟩

end

section
variable (c : Config)

/-- `PADV` (R130). -/
theorem encOperation_advancePhase (freq : Nat) :
    EncOperation c fun e => encOk { e with phase := advancePhase c freq e.phase } := fun e hfq =>
  { advances_encOk hfq with phase_le := le_add_of_nonneg_right (by positivity) }

/-- `TONE` (R146). -/
theorem encOperation_renderTone (freq : Nat) (dur : Int) (taper : Bool) : EncOperation c (renderTone c freq dur taper) := by
  intro e hfq
  rcases lt_or_ge dur 0 with h | h
  · rw [renderTone_of_neg c freq dur taper e h]
    exact advances_encRaise hfq _ (by simp [Raise.exc])
  · rw [renderTone_of_nonneg c freq dur taper e h]
    exact advances_renderSegment hfq _ _ _ fun _ => Nat.cast_nonneg _

/-- `SWEEP` (R150). -/
theorem encOperation_renderSweep (dur : Int) : EncOperation c (renderSweep c dur) := by
  intro e hfq
  rcases renderSweep_cases c dur e with ⟨cause, heq⟩ | ⟨-, -, hspp, heq⟩
  · rw [heq]
    exact advances_encRaise hfq _ (by simp [Raise.exc])
  · rw [heq]
    exact advances_renderSegment hfq _ _ _ fun i => sweepFreq_nonneg _ _ i hspp (mem_band_nonneg hfq)

/-- Silence appends zeros, or nothing (R160). -/
theorem renderSilence_eq_appendPcm (dur : Int) (e : Enc) :
    ∃ vs, renderSilence c dur e = encOk (e.appendPcm vs) ∧ vs.length = sampleCount c dur.toNat := by
  rcases le_or_gt dur 0 with h | h
  · refine ⟨[], ?_, ?_⟩
    · rw [renderSilence, if_pos h, Enc.appendPcm, List.append_nil]
    · simp [sampleCount, Int.toNat_of_nonpos h]
  · exact ⟨_, if_neg (not_le.2 h), List.length_replicate⟩

/-- `SIL` (R160). -/
theorem encOperation_renderSilence (dur : Int) : EncOperation c (renderSilence c dur) := by
  intro e hfq
  obtain ⟨vs, heq, -⟩ := renderSilence_eq_appendPcm c dur e
  rw [heq]
  exact { advances_encOk hfq with pcm_grows := List.prefix_append _ _ }

/-- `BITS` (R172). -/
theorem encOperation_renderBits (bits : List Bool) (dur : Int) : EncOperation c (renderBits c bits dur) := fun _ hfq =>
  List.foldlRecOn bits _ (advances_encOk hfq) fun _ ho _ _ => ho.andThen (encOperation_renderTone c _ dur true)

/-- `LDCH` (R182). -/
theorem encOperation_loadChannel (hband : c.blackFreq ≤ c.channelMaxFreq) (img : Option Image) (ch : Fin 3) (y : Nat) :
    EncOperation c (loadChannel c img ch y) := by
  intro e hfq
  rcases loadChannel_cases c img ch y e with ⟨x, hx, heq⟩ | ⟨im, -, -, -, heq⟩
  · rw [heq]
    refine advances_encRaise hfq x ?_
    rcases hx with rfl | rfl <;> simp [Raise.exc]
  · rw [heq]
    refine { advances_encOk hfq with fq_in_band := fun f hf => ?_ }
    obtain ⟨x, -, rfl⟩ := List.mem_map.1 hf
    exact fmap_mem_band c hband _ (Nat.le_of_lt_succ (BitVec.isLt _))

end

/-! The stages of `ENCODE` (R188). -/

section
variable {c : Config} {e : Enc} {o : EncOut}

theorem Advances.toneStage (h : Advances c e o) (g : Stage) (y : Nat) (k : Fin 3) (freq dur : Nat) :
    Advances c e (toneStage c g y k freq dur o) :=
  h.andThen ((encOperation_renderTone c freq dur true).atStage g y k)

theorem Advances.scanStage (h : Advances c e o) (hband : c.blackFreq ≤ c.channelMaxFreq) (img : Image) (y : Nat)
    (k : Fin 3) : Advances c e (scanStage c img y k o) :=
  (h.andThen ((encOperation_loadChannel c hband (some img) (txc c k) y).atStage .scan y k)).andThen
    (encOperation_renderSweep c c.scanUs)

theorem Advances.encodeLine (h : Advances c e o) (hband : c.blackFreq ≤ c.channelMaxFreq) (img : Image) (y : Nat) :
    Advances c e (encodeLine c img y o) := by
  have hsync := (h.toneStage .hsync y 0 c.syncFreq c.syncUs).toneStage .hporch y 0 c.porchFreq c.porchUs
  have hgreen := (hsync.scanStage hband img y 0).toneStage .sep y 0 c.porchFreq c.sepUs
  have hblue := (hgreen.scanStage hband img y 1).toneStage .sep y 1 c.porchFreq c.sepUs
  exact (hblue.scanStage hband img y 2).andThen ((encOperation_renderSilence c (padUs c)).atStage .pad y 2)

/-- The header and the lines of a transmission (R188). -/
theorem advances_encodeSequence (hband : c.blackFreq ≤ c.channelMaxFreq) (hfq : InBand c e.fq) (img : Image)
    (vis : BitVec 8) : Advances c e (encodeSequence c img vis e) := by
  have hbits := (encOperation_renderBits c (vbits c.visBitOrder vis) c.bitUs).atStage .vis 0 0 e hfq
  have hheader := (hbits.toneStage .vsync 0 0 c.syncFreq c.syncUs).toneStage .vporch 0 0 c.porchFreq c.porchUs
  exact List.foldlRecOn (List.range img.height) _ hheader fun _ ho y _ => ho.encodeLine hband img y

/-- `ENCODE` after its reset (R186). -/
theorem advances_encodeImage (hband : c.blackFreq ≤ c.channelMaxFreq) (img : Image) (vis : BitVec 8) :
    Advances c .reset (encodeImage c img vis) := by
  have hreset : InBand c Enc.reset.fq := fun f hf => absurd hf List.not_mem_nil
  exact (advances_encodeSequence hband hreset img vis).andThen
    (EncOperation.atStage (fun _ hfq => advances_encOk hfq) .done _ 2)

end

/-- A transmission that ends without an exception leaves `SEQ` at `DONE` (R186). -/
theorem encodeImage_stage (c : Config) (img : Image) (vis : BitVec 8) (h : (encodeImage c img vis).raised = none) :
    (encodeImage c img vis).enc.seq.stage = .done := by
  unfold encodeImage at h ⊢
  rcases EncOut.andThen_cases (encodeSequence c img vis .reset) (fun e => encOk (e.atStage .done (img.height - 1) 2)) with
    ⟨-, heq⟩ | ⟨hraised, heq⟩
  · rw [heq]
    rfl
  · rw [heq] at h
    exact absurd h hraised

/-! ### The commands of `ENC` -/

/-- The operation of a command of `ENC` other than `ERESET` and `ENCODE`: it never moves `SEQ`. -/
structure EncCommandOp (c : Config) (op : Enc → EncOut) : Prop where
  operation : c.blackFreq ≤ c.channelMaxFreq → EncOperation c op
  seq_eq : ∀ e, (op e).enc.seq = e.seq

@[simp] theorem renderTone_seq (c : Config) (freq : Nat) (dur : Int) (taper : Bool) (e : Enc) :
    (renderTone c freq dur taper e).enc.seq = e.seq := by
  unfold renderTone
  split <;> rfl

@[simp] theorem renderSweep_seq (c : Config) (dur : Int) (e : Enc) : (renderSweep c dur e).enc.seq = e.seq := by
  rcases renderSweep_cases c dur e with ⟨cause, heq⟩ | ⟨-, -, -, heq⟩ <;> simp [heq]

@[simp] theorem renderSilence_seq (c : Config) (dur : Int) (e : Enc) : (renderSilence c dur e).enc.seq = e.seq := by
  obtain ⟨vs, heq, -⟩ := renderSilence_eq_appendPcm c dur e
  simp [heq]

@[simp] theorem renderBits_seq (c : Config) (bits : List Bool) (dur : Int) (e : Enc) :
    (renderBits c bits dur e).enc.seq = e.seq := by
  refine List.foldlRecOn (motive := fun o : EncOut => o.enc.seq = e.seq) bits _ rfl fun o ho b _ => ?_
  rcases EncOut.andThen_cases o (renderTone c (if b then c.fskF1 else c.fskF0) dur true) with ⟨-, heq⟩ | ⟨-, heq⟩ <;>
    simp [heq, ho]

@[simp] theorem loadChannel_seq (c : Config) (img : Option Image) (ch : Fin 3) (y : Nat) (e : Enc) :
    (loadChannel c img ch y e).enc.seq = e.seq := by
  rcases loadChannel_cases c img ch y e with ⟨x, -, heq⟩ | ⟨im, -, -, -, heq⟩ <;> simp [heq]

theorem channelOperand_eq_none {k : BitVec 2} (h : channelOperand k = none) : ¬ ChannelOperandOk k := by
  unfold channelOperand at h
  split at h
  · cases h
  · unfold ChannelOperandOk
    omega

/-- A command of `ENC` other than `ERESET` and `ENCODE` is ill formed and refused, or runs its operation behind the
latch. -/
theorem exec_enc_cases (i : Instr) (s : State) (hu : unitOf i = .enc) (hreset : i ≠ .ereset)
    (hencode : ∀ vis, i ≠ .encode vis) :
    (¬ i.WellFormed ∧ ∃ x, exec i s = .next (s.refuse (.reservedWord x)))
      ∨ ∃ op, EncCommandOp s.cfg op ∧ exec i s = encCommand s op := by
  cases i with
  | padv freq => exact .inr ⟨_, ⟨fun _ => encOperation_advancePhase s.cfg (freqOperand freq), fun _ => rfl⟩, rfl⟩
  | tone freq dur taper =>
    exact .inr ⟨_, ⟨fun _ => encOperation_renderTone s.cfg (freqOperand freq) (durOperand dur) taper, by simp⟩, rfl⟩
  | sweep dur => exact .inr ⟨_, ⟨fun _ => encOperation_renderSweep s.cfg (durOperand dur), by simp⟩, rfl⟩
  | bits n pat dur =>
    by_cases hn : 8 < n.toNat
    · exact .inl ⟨fun hwf => absurd hwf.1 (not_le.2 hn), _, if_pos hn⟩
    by_cases hp : 2 ^ n.toNat ≤ pat.toNat
    · exact .inl ⟨fun hwf => absurd hwf.2 (not_lt.2 hp), _, (if_neg hn).trans (if_pos hp)⟩
    · exact .inr ⟨_, ⟨fun _ => encOperation_renderBits s.cfg (bitsOperand n.toNat pat) (durOperand dur), by simp⟩,
        (if_neg hn).trans (if_neg hp)⟩
  | sil dur => exact .inr ⟨_, ⟨fun _ => encOperation_renderSilence s.cfg (durOperand dur), by simp⟩, rfl⟩
  | ldch k y =>
    change (_ ∧ ∃ x, execLdch k y s = _) ∨ ∃ op, _ ∧ execLdch k y s = _
    unfold execLdch
    cases hk : channelOperand k with
    | none => exact .inl ⟨channelOperand_eq_none hk, _, rfl⟩
    | some ch =>
      exact .inr ⟨_, ⟨fun hband => encOperation_loadChannel s.cfg hband s.host.img ch (rowOperand y), by simp⟩, rfl⟩
  | ereset => exact absurd rfl hreset
  | encode vis => exact absurd rfl (hencode vis)
  | _ => cases hu

/-- `ENCODE` raises over a malformed image, or renders it; a buffer is handed over unless an exception ended it (R186,
R283). -/
theorem exec_encode_cases (vis : BitVec 8) (s : State) :
    ∃ o, (o = encRaise .reset .malformedInput
        ∨ ∃ im, s.host.img = some im ∧ 0 < im.width ∧ 0 < im.height ∧ o = encodeImage s.cfg im vis)
      ∧ exec (.encode vis) s = .next ((s.handOver o).withEnc o) := by
  change ∃ o, _ ∧ execEncode vis s = _
  unfold execEncode
  cases himg : s.host.img with
  | none => exact ⟨_, .inl rfl, rfl⟩
  | some im =>
    dsimp only
    split
    · exact ⟨_, .inl rfl, rfl⟩
    · exact ⟨_, .inr ⟨im, rfl, by omega, by omega, rfl⟩, rfl⟩

end Sys2Proof.Machine

/-! ### The Fourier sum that `GP` and `GM` hold (O10, O36) -/

namespace Sys2Proof.Machine

/-- Every term that an addition leaves was there, or stands at the added place. -/
theorem mem_addTerm {k : Nat} {a : Int} {ts : List (Nat × Int)} {t : Nat × Int} (h : t ∈ addTerm k a ts) :
    t ∈ ts ∨ (t.1 = k ∧ t.2 ≠ 0) := by
  induction ts with
  | nil =>
    unfold addTerm at h
    split at h <;> simp_all
  | cons u ts ih =>
    obtain ⟨j, b⟩ := u
    unfold addTerm at h
    split_ifs at h <;> simp only [List.mem_cons] at h ⊢ <;> grind

/-- An addition keeps the terms rising. -/
theorem pairwise_addTerm (k : Nat) (a : Int) (ts : List (Nat × Int)) (h : ts.Pairwise fun t u => t.1 < u.1) :
    (addTerm k a ts).Pairwise fun t u => t.1 < u.1 := by
  induction ts with
  | nil => unfold addTerm; split <;> simp
  | cons u ts ih =>
    obtain ⟨j, b⟩ := u
    obtain ⟨hj, hts⟩ := List.pairwise_cons.1 h
    unfold addTerm
    split_ifs with hlt _ heq
    · exact h
    · refine List.pairwise_cons.2 ⟨fun t ht => ?_, h⟩
      rcases List.mem_cons.1 ht with rfl | ht
      · exact hlt
      · exact hlt.trans (hj t ht)
    · exact hts
    · exact List.pairwise_cons.2 ⟨fun t ht => heq ▸ hj t ht, hts⟩
    · refine List.pairwise_cons.2 ⟨fun t ht => ?_, ih hts⟩
      rcases mem_addTerm ht with ht | ⟨ht, -⟩
      · exact hj t ht
      · change j < t.1
        omega

/-- Adding a term below the order keeps a sum canonical. -/
theorem DftSum.Canonical.addTerm {order k : Nat} {ts : List (Nat × Int)} (h : DftSum.Canonical ⟨order, ts⟩)
    (hk : k < order) (a : Int) : DftSum.Canonical ⟨order, addTerm k a ts⟩ := by
  refine ⟨pairwise_addTerm k a ts h.1, fun t ht => ?_⟩
  rcases mem_addTerm ht with ht | ⟨hplace, hne⟩
  · exact h.2 t ht
  · exact ⟨hplace ▸ hk, hne⟩

/-- The Fourier sum of a window is canonical. -/
theorem dftSum_canonical {rate : Nat} (hr : 0 < rate) (f : Nat) (w : List Sample) : (dftSum rate f w).Canonical := by
  have key (m : Nat) : DftSum.Canonical ⟨rate, dftTerms rate f m w⟩ := by
    induction w generalizing m with
    | nil => exact ⟨List.Pairwise.nil, fun t ht => absurd ht List.not_mem_nil⟩
    | cons x w ih => exact (ih (m + 1)).addTerm (Nat.mod_lt _ hr) x.toInt
  exact key 0

/-- What a list of terms adds up to, a term at `k` weighed by `g k`. -/
noncomputable def termSum (g : Nat → ℝ) (ts : List (Nat × Int)) : ℝ := (ts.map fun t => (t.2 : ℝ) * g t.1).sum

/-- An added term adds its own weight. -/
theorem termSum_addTerm (g : Nat → ℝ) (k : Nat) (a : Int) (ts : List (Nat × Int)) :
    termSum g (addTerm k a ts) = a * g k + termSum g ts := by
  induction ts with
  | nil => unfold addTerm; split <;> simp_all [termSum]
  | cons u ts ih =>
    obtain ⟨j, b⟩ := u
    have hcons (t : Nat × Int) (l : List (Nat × Int)) : termSum g (t :: l) = t.2 * g t.1 + termSum g l := rfl
    unfold addTerm
    split_ifs with hlt ha heq hab
    · simp [ha]
    · exact hcons (k, a) _
    · have hzero : (a : ℝ) + b = 0 := by exact_mod_cast hab
      rw [hcons, ← heq, ← add_assoc, ← add_mul, hzero, zero_mul, zero_add]
    · rw [hcons, hcons, ← heq]
      push_cast
      ring
    · rw [hcons, hcons, ih]
      ring

/-- The terms of a window add up to the window's sum, for weights that repeat with the rate. -/
theorem termSum_dftTerms (g : Nat → ℝ) (rate f : Nat) (hg : ∀ k, g (k % rate) = g k) (w : List Sample) (m : Nat) :
    termSum g (dftTerms rate f m w) = 32768 * windowSum (fun j => g (f * j)) m w := by
  induction w generalizing m with
  | nil => simp [dftTerms, termSum, windowSum]
  | cons x w ih =>
    rw [dftTerms, termSum_addTerm, ih, hg, windowSum, xn]
    ring

/-- A whole number of turns leaves an angle's place on the circle. -/
theorem angle_mod (rate k : Nat) (hr : 0 < rate) :
    2 * Real.pi * k / rate = 2 * Real.pi * (k % rate : Nat) / rate + (k / rate : Nat) * (2 * Real.pi) := by
  have hrate : (rate : ℝ) ≠ 0 := by exact_mod_cast hr.ne'
  have hk : (k : ℝ) = (k % rate : Nat) + rate * (k / rate : Nat) := by exact_mod_cast (Nat.mod_add_div k rate).symm
  rw [hk]
  field_simp

section
variable {rate : Nat} (hr : 0 < rate) (f : Nat) (w : List Sample)
include hr

/-- A part of the Fourier sum of a window, scaled to the samples' own range (R211, R212): `trig` is the cosine or the
sine. -/
theorem termSum_of_periodic {trig : ℝ → ℝ} (htrig : Function.Periodic trig (2 * Real.pi)) :
    termSum (fun k => trig (2 * Real.pi * k / rate)) (dftTerms rate f 0 w)
      = 32768 * windowSum (fun m => trig (2 * Real.pi * f / rate * m)) 0 w := by
  rw [termSum_dftTerms _ rate f fun k => by rw [angle_mod rate k hr, htrig.nat_mul]]
  congr 3
  funext m
  congr 1
  push_cast
  ring

theorem dftSum_reValue : (dftSum rate f w).reValue
    = 32768 * windowSum (fun m => Real.cos (2 * Real.pi * f / rate * m)) 0 w :=
  termSum_of_periodic hr f w Real.cos_periodic

theorem dftSum_imValue : (dftSum rate f w).imValue
    = 32768 * windowSum (fun m => Real.sin (2 * Real.pi * f / rate * m)) 0 w :=
  termSum_of_periodic hr f w Real.sin_periodic

/-- `GP` holds the power (R212). -/
theorem power_value_eq : (power rate f w).value = powerReal rate f w := by
  change ((dftSum rate f w).reValue ^ 2 + (dftSum rate f w).imValue ^ 2) / 32768 ^ 2 = _
  rw [dftSum_reValue hr, dftSum_imValue hr, powerReal]
  ring

/-- `GM` holds the magnitude (R214). -/
theorem magnitude_value_eq : (magnitude rate f w).value = magReal rate f w := by
  rw [magReal, ← power_value_eq hr f w]
  rfl

end

/-- A window of zeros has no magnitude. -/
theorem magReal_of_zeros (rate f : Nat) (w : List Sample) (h : ∀ v ∈ w, v = 0) : magReal rate f w = 0 := by
  simp [magReal, powerReal_of_zeros rate f w h]

end Sys2Proof.Machine

/-! ### What an operation of `DEC` can do (O10, O53, O57) -/

namespace Sys2Proof.Machine

/-- The invariant's part of `DEC` and the raster. -/
structure DecInv (c : Config) (d : Dec) (r : List RasterCall) : Prop where
  fault_codes : d.fault ∈ [none, some .deviceError]
  row_le_height : d.row ≤ c.height
  acc_lines : LineOk c d.acc.green ∧ LineOk c d.acc.blue ∧ LineOk c d.acc.red
  gp_gm_agree : d.gp.sum = d.gm.sum
  gp_canonical : d.gp.sum.Canonical
  raster_in_frame : ∀ call ∈ r, CallOk c call

/-- An operation of `DEC`: it keeps the invariant's part, and refuses as `ROWOUT` does (R256) or not at all. -/
structure DecOperation (c : Config) (op : Dec → List RasterCall → DecOut) : Prop where
  keeps : 0 < c.sampleRate → ∀ d r, DecInv c d r → DecInv c (op d r).dec (op d r).raster
  refusal : ∀ d r x, (op d r).result = .refused x → x = .rowOutOfFrame ∨ x = .accUnwritten

/-- A line of `ACC` that is written whole is in order. -/
theorem lineOk_channelLine (c : Config) (d : Dec) (spp : Nat) : LineOk c (channelLine c d spp) :=
  .inr (channelLine_length c d spp)

/-- The calls of a row in the frame lie in the frame (R74). -/
theorem callOk_rowCalls (c : Config) (a : Acc) (row : Nat) (h : row < c.height) :
    ∀ call ∈ rowCalls a c.width row, CallOk c call := by
  intro call hcall
  obtain ⟨x, hx, rfl⟩ := List.mem_map.1 hcall
  exact ⟨List.mem_range.1 hx, h⟩

/-- `ROWOUT` of a written row in the frame (R256). -/
theorem rowoutAction_of_written (c : Config) (d : Dec) (r : List RasterCall) (h : d.row < c.height)
    (hw : c.width ≤ d.acc.green.length ∧ c.width ≤ d.acc.blue.length ∧ c.width ≤ d.acc.red.length) :
    rowoutAction c d r =
      ⟨{ d with row := d.row + 1, state := if d.row + 1 = c.height then .awaitingVIS else .awaitingSync },
        r ++ rowCalls d.acc c.width d.row, .ok⟩ := by
  rw [← Acc.written_iff] at hw
  rw [rowoutAction, if_neg (not_le.2 h), if_neg (by simp [hw])]

/-- `CHDEC 0` with a scan's samples buffered: Green (R252). -/
theorem chdecAction_green (c : Config) (d : Dec) (r : List RasterCall) (h : sampleCount c c.scanUs ≤ d.sb.length) :
    chdecAction c 0 d r =
      ⟨{ d.consume (c.width * (sampleCount c c.scanUs / c.width)) with
          acc := { d.acc with green := channelLine c d (sampleCount c c.scanUs / c.width) }
          state := .decodingLine 1 }, r, .ok⟩ :=
  if_neg (not_lt.2 h)

/-- `CHDEC 1` with a scan's samples buffered: Blue (R252). -/
theorem chdecAction_blue (c : Config) (d : Dec) (r : List RasterCall) (h : sampleCount c c.scanUs ≤ d.sb.length) :
    chdecAction c 1 d r =
      ⟨{ d.consume (c.width * (sampleCount c c.scanUs / c.width)) with
          acc := { d.acc with blue := channelLine c d (sampleCount c c.scanUs / c.width) }
          state := .decodingLine 2 }, r, .ok⟩ :=
  if_neg (not_lt.2 h)

section
variable (c : Config)

/-- An operation that raises, holds, or ends normally in a state that keeps the invariant's part. -/
theorem decOperation_of_cases {op : Dec → List RasterCall → DecOut}
    (hcases : ∀ d r, (∃ x, op d r = decRaise d r x) ∨ (∃ x, op d r = decHold d r x)
      ∨ ∃ d' r', op d r = ⟨d', r', .ok⟩ ∧ (0 < c.sampleRate → DecInv c d r → DecInv c d' r')) : DecOperation c op where
  keeps hr d r h := by
    rcases hcases d r with ⟨x, heq⟩ | ⟨x, heq⟩ | ⟨d', r', heq, hkeeps⟩ <;> rw [heq]
    · exact h
    · exact h
    · exact hkeeps hr h
  refusal d r x hx := by
    rcases hcases d r with ⟨y, heq⟩ | ⟨y, heq⟩ | ⟨d', r', heq, -⟩ <;> rw [heq] at hx <;> cases hx

theorem decOperation_visdet : DecOperation c (visdetAction c) := by
  refine decOperation_of_cases c fun d r => ?_
  rcases visdetAction_cases c d r with ⟨-, heq⟩ | ⟨-, -, heq⟩ | ⟨-, -, heq⟩
  · exact .inl ⟨_, heq⟩
  · refine .inr (.inr ⟨_, _, heq, fun _ h => ?_⟩)
    refine { h with row_le_height := Nat.zero_le _, raster_in_frame := fun call hcall => ?_ }
    rcases List.mem_append.1 hcall with hcall | hcall
    · exact h.raster_in_frame call hcall
    · rw [List.mem_singleton.1 hcall]
      exact ⟨rfl, rfl⟩
  · exact .inr (.inl ⟨_, heq⟩)

theorem decOperation_tone (f n : Nat) (next : DecState) : DecOperation c (toneAction c f n next) := by
  refine decOperation_of_cases c fun d r => ?_
  rcases toneAction_cases c f n next d r with ⟨-, heq⟩ | ⟨-, -, heq⟩ | ⟨-, -, heq⟩
  · exact .inl ⟨_, heq⟩
  · exact .inr (.inr ⟨_, _, heq, fun _ h => { h with }⟩)
  · exact .inr (.inl ⟨_, heq⟩)

theorem decOperation_peek (n : Nat) : DecOperation c (peekAction n) := by
  refine decOperation_of_cases c fun d r => ?_
  rcases lt_or_ge d.sb.length n with hshort | hfull
  · exact .inl ⟨_, if_pos hshort⟩
  · exact .inr (.inr ⟨_, _, if_neg (not_lt.2 hfull), fun _ h => { h with }⟩)

theorem decOperation_consume (n : Nat) : DecOperation c (consumeAction n) := by
  refine decOperation_of_cases c fun d r => ?_
  rcases lt_or_ge d.sb.length n with hshort | hfull
  · exact .inl ⟨_, if_pos hshort⟩
  · exact .inr (.inr ⟨_, _, if_neg (not_lt.2 hfull), fun _ h => { h with }⟩)

/-- `GOERTZ` sets both registers from one window (R216). -/
theorem decOperation_goertz (freq : Nat) : DecOperation c fun d r =>
    ⟨{ d with gp := power c.sampleRate freq d.win, gm := magnitude c.sampleRate freq d.win }, r, .ok⟩ :=
  decOperation_of_cases c fun d _ => .inr (.inr ⟨_, _, rfl, fun hr h =>
    { h with gp_gm_agree := rfl, gp_canonical := dftSum_canonical hr freq d.win }⟩)

theorem decOperation_stop : DecOperation c fun d r => ⟨d.setStopped, r, .ok⟩ :=
  decOperation_of_cases c fun _ _ => .inr (.inr ⟨_, _, rfl, fun _ h => { h with }⟩)

theorem decOperation_rowout : DecOperation c (rowoutAction c) where
  keeps hr d r h := by
    rcases rowoutAction_cases c d r with ⟨x, heq⟩ | ⟨hrow, -, heq⟩ <;> rw [heq]
    · exact h
    · refine { h with row_le_height := hrow, raster_in_frame := fun call hcall => ?_ }
      rcases List.mem_append.1 hcall with hcall | hcall
      · exact h.raster_in_frame call hcall
      · exact callOk_rowCalls c d.acc d.row hrow call hcall
  refusal d r x hx := by
    rcases le_or_gt c.height d.row with hend | hrow
    · rw [rowoutAction_of_end c d r hend] at hx
      cases hx
      exact .inl rfl
    by_cases hw : c.width ≤ d.acc.green.length ∧ c.width ≤ d.acc.blue.length ∧ c.width ≤ d.acc.red.length
    · rw [rowoutAction_of_written c d r hrow hw] at hx
      cases hx
    · rw [rowoutAction_of_unwritten c d r hrow hw] at hx
      cases hx
      exact .inr rfl

theorem decOperation_chdec (k : Fin 3) : DecOperation c (chdecAction c k) where
  keeps hr d r h := by
    rcases lt_or_ge d.sb.length (sampleCount c c.scanUs) with hshort | hfull
    · rw [chdecAction_underrun c k d r hshort]
      exact h
    obtain ⟨hgreen, hblue, hred⟩ := h.acc_lines
    have hline := lineOk_channelLine c d (sampleCount c c.scanUs / c.width)
    match k with
    | 0 => rw [chdecAction_green c d r hfull]; exact { h with acc_lines := ⟨hline, hblue, hred⟩ }
    | 1 => rw [chdecAction_blue c d r hfull]; exact { h with acc_lines := ⟨hgreen, hline, hred⟩ }
    | 2 =>
      rw [chdecAction_red c d r hfull]
      exact (decOperation_rowout c).keeps hr _ _ { h with acc_lines := ⟨hgreen, hblue, hline⟩ }
  refusal d r x hx := by
    rcases lt_or_ge d.sb.length (sampleCount c c.scanUs) with hshort | hfull
    · rw [chdecAction_underrun c k d r hshort] at hx
      cases hx
    match k with
    | 0 => rw [chdecAction_green c d r hfull] at hx; cases hx
    | 1 => rw [chdecAction_blue c d r hfull] at hx; cases hx
    | 2 =>
      rw [chdecAction_red c d r hfull] at hx
      exact (decOperation_rowout c).refusal _ _ x hx

/-- The action of a state is an operation of `DEC` (R260). -/
theorem decOperation_step : DecOperation c (stepAction c) := by
  have haction (d : Dec) : ∃ op, DecOperation c op ∧ ∀ r, stepAction c d r = op d r := by
    unfold stepAction
    cases d.state with
    | awaitingVIS => exact ⟨_, decOperation_visdet c, fun _ => rfl⟩
    | awaitingSync => exact ⟨_, decOperation_tone c _ _ _, fun _ => rfl⟩
    | awaitingPorch => exact ⟨_, decOperation_tone c _ _ _, fun _ => rfl⟩
    | decodingLine k => exact ⟨_, decOperation_chdec c k, fun _ => rfl⟩
  constructor
  · intro hr d r h
    obtain ⟨op, hop, heq⟩ := haction d
    exact heq r ▸ hop.keeps hr d r h
  · intro d r x hx
    obtain ⟨op, hop, heq⟩ := haction d
    exact hop.refusal d r x (heq r ▸ hx)

theorem passLoop_keeps (hr : 0 < c.sampleRate) (n : Nat) (d : Dec) (r : List RasterCall) (h : DecInv c d r) :
    DecInv c (passLoop c n d r).dec (passLoop c n d r).raster := by
  induction n generalizing d r with
  | zero => exact h
  | succ n ih =>
    have hstep := (decOperation_step c).keeps hr d r h
    unfold passLoop
    dsimp only
    split
    · exact ih _ _ hstep
    · exact hstep

theorem decOperation_pass : DecOperation c (passAction c) where
  keeps hr d r h := by
    unfold passAction
    split
    · exact h
    · exact passLoop_keeps c hr _ d r h
  refusal d r x hx := by
    rw [passAction_result] at hx
    cases hx

end

/-! ### The commands of `DEC` -/

/-- A command of `DEC` other than `DRESET` and `APPEND` is ill formed and refused, or runs its operation behind the
latch. -/
theorem exec_dec_cases (i : Instr) (s : State) (hu : unitOf i = .dec) (hreset : i ≠ .dreset)
    (happend : ∀ n, i ≠ .append n) :
    (¬ i.WellFormed ∧ exec i s = .next (s.refuse (.reservedWord .channel)))
      ∨ ∃ op, DecOperation s.cfg op ∧ exec i s = decCommand s op := by
  cases i with
  | append n => exact absurd rfl (happend n)
  | peek n => exact .inr ⟨_, decOperation_peek s.cfg (countOperand n), rfl⟩
  | consume n => exact .inr ⟨_, decOperation_consume s.cfg (countOperand n), rfl⟩
  | goertz freq => exact .inr ⟨_, decOperation_goertz s.cfg (freqOperand freq), rfl⟩
  | visdet => exact .inr ⟨_, decOperation_visdet s.cfg, rfl⟩
  | syncdet => exact .inr ⟨_, decOperation_tone s.cfg _ _ _, rfl⟩
  | porchdet => exact .inr ⟨_, decOperation_tone s.cfg _ _ _, rfl⟩
  | chdec k =>
    change (_ ∧ execChdec k s = _) ∨ ∃ op, _ ∧ execChdec k s = _
    unfold execChdec
    cases hk : channelOperand k with
    | none => exact .inl ⟨channelOperand_eq_none hk, rfl⟩
    | some ch => exact .inr ⟨_, decOperation_chdec s.cfg ch, rfl⟩
  | rowout => exact .inr ⟨_, decOperation_rowout s.cfg, rfl⟩
  | step => exact .inr ⟨_, decOperation_step s.cfg, rfl⟩
  | pass => exact .inr ⟨_, decOperation_pass s.cfg, rfl⟩
  | stop => exact .inr ⟨_, decOperation_stop s.cfg, rfl⟩
  | dreset => exact absurd rfl hreset
  | _ => cases hu

/-- `APPEND` is refused behind the latch or after a stop, has no next state beyond `SB_MAX`, or passes over the samples
(R220). -/
theorem exec_append_cases (n : BitVec 32) (s : State) :
    (decBlocked s.dec = true ∧ exec (.append n) s
        = .next (({ s with host := s.host.advancePort n.toNat } : State).refuse .decFaulted))
      ∨ exec (.append n) s = .next (({ s with host := s.host.advancePort n.toNat } : State).refuse .stopped)
      ∨ exec (.append n) s = .refused .streamBufferBound
      ∨ exec (.append n) s = .next (({ s with host := s.host.advancePort n.toNat } : State).withDec
          (passAction s.cfg (s.dec.appendSb (portSamples s.host n.toNat)) s.host.raster)) := by
  change (_ ∧ execAppend n s = _) ∨ execAppend n s = _ ∨ execAppend n s = _ ∨ execAppend n s = _
  unfold execAppend
  dsimp only [countOperand]
  split_ifs with hblocked hstopped hbound
  · exact .inl ⟨hblocked, rfl⟩
  · exact .inr (.inl rfl)
  · exact .inr (.inr (.inl rfl))
  · exact .inr (.inr (.inr rfl))

end Sys2Proof.Machine

/-! ### The machine's invariant (O9, O10) and the encoder's output (O35) -/

namespace Sys2Proof.Machine

/-- The invariant's part of `ENC`. -/
structure EncInv (c : Config) (e : Enc) : Prop where
  phase_nonneg : 0 ≤ e.phase
  fq_in_band : InBand c e.fq
  seq_idle_or_done : e.fault = none → e.seq.stage = .idle ∨ e.seq.stage = .done
  fault_codes : e.fault ∈ [none, some .preconditionError, some .malformedInput, some .deviceError]

/-- The invariant is that of `CFG`, of each unit and of the images. -/
theorem inv_iff (s : State) : Inv s ↔ ConfigValid s.cfg ∧ EncInv s.cfg s.enc ∧ DecInv s.cfg s.dec s.host.raster
    ∧ ImageOk s.host.img ∧ ∀ x ∈ s.host.inbox, InputOk x := by
  constructor
  · exact fun h => ⟨h.cfg_valid, ⟨h.phase_nonneg, h.fq_in_band, h.seq_idle_or_done, h.enc_fault_codes⟩,
      ⟨h.dec_fault_codes, h.row_le_height, h.acc_lines, h.gp_gm_agree, h.gp_canonical, h.raster_in_frame⟩, h.images_ok⟩
  · rintro ⟨hcfg, henc, hdec, himages⟩
    exact ⟨hcfg, henc.phase_nonneg, henc.fq_in_band, henc.seq_idle_or_done, henc.fault_codes, hdec.fault_codes,
      hdec.row_le_height, hdec.acc_lines, hdec.gp_gm_agree, hdec.gp_canonical, himages, hdec.raster_in_frame⟩

/-- The conditions of a valid `CFG` that the invariant's steps use. -/
theorem configValid_band {c : Config} (h : ConfigValid c) : c.blackFreq ≤ c.channelMaxFreq := by
  obtain ⟨-, -, -, -, -, -, -, -, -, -, -, hband, -⟩ := h
  exact hband

theorem configValid_sampleRate_pos {c : Config} (h : ConfigValid c) : 0 < c.sampleRate := by
  obtain ⟨-, -, -, -, -, -, -, -, -, hrate, -⟩ := h
  exact hrate

theorem encInv_reset (c : Config) : EncInv c .reset where
  phase_nonneg := le_rfl
  fq_in_band := fun _ hf => absurd hf List.not_mem_nil
  seq_idle_or_done := fun _ => .inl rfl
  fault_codes := List.mem_cons_self

theorem decInv_reset (c : Config) (r : List RasterCall) (hr : ∀ call ∈ r, CallOk c call) : DecInv c .reset r where
  fault_codes := List.mem_cons_self
  row_le_height := Nat.zero_le _
  acc_lines := ⟨.inl rfl, .inl rfl, .inl rfl⟩
  gp_gm_agree := rfl
  gp_canonical := ⟨List.Pairwise.nil, fun _ ht => absurd ht List.not_mem_nil⟩
  raster_in_frame := hr

/-- An operation of `ENC` keeps the invariant's part, if one that ends normally with the latch clear leaves `SEQ` at rest. -/
theorem EncInv.of_advances {c : Config} {e : Enc} {o : EncOut} (h : EncInv c e) (ho : Advances c e o)
    (hseq : o.raised = none → e.fault = none → o.enc.seq.stage = .idle ∨ o.enc.seq.stage = .done) :
    EncInv c o.enc := by
  cases hx : o.raised with
  | none =>
    have hfault : o.enc.fault = e.fault := by rw [ho.fault_eq, hx]; rfl
    exact ⟨h.phase_nonneg.trans ho.phase_le, ho.fq_in_band, fun hclear => hseq hx (hfault ▸ hclear), hfault ▸ h.fault_codes⟩
  | some x =>
    have hfault : o.enc.fault = some x.exc := by rw [ho.fault_eq, hx]; rfl
    have hcode := ho.raised_codes x hx
    refine ⟨h.phase_nonneg.trans ho.phase_le, ho.fq_in_band, fun hclear => ?_, ?_⟩
    · rw [hfault] at hclear
      cases hclear
    · rw [hfault]
      simp only [List.mem_cons, List.not_mem_nil, or_false] at hcode
      rcases hcode with hcode | hcode <;> simp [hcode]

/-- Every command of `ENC` keeps its part of the invariant. -/
theorem exec_keeps_encInv {i : Instr} {s t : State} (hcfg : ConfigValid s.cfg) (h : EncInv s.cfg s.enc)
    (hexec : exec i s = .next t) (hu : unitOf i = .enc) : EncInv s.cfg t.enc := by
  have hband := configValid_band hcfg
  by_cases hreset : i = .ereset
  · subst hreset
    cases hexec
    exact encInv_reset _
  by_cases hencode : ∃ vis, i = .encode vis
  · obtain ⟨vis, rfl⟩ := hencode
    obtain ⟨o, ho, heq⟩ := exec_encode_cases vis s
    cases heq.symm.trans hexec
    rcases ho with rfl | ⟨im, -, -, -, rfl⟩
    · exact (encInv_reset _).of_advances (advances_encRaise (encInv_reset _).fq_in_band _ (by simp [Raise.exc]))
        (by simp)
    · exact (encInv_reset _).of_advances (advances_encodeImage hband im vis)
        fun hnone _ => .inr (encodeImage_stage s.cfg im vis hnone)
  · rcases exec_enc_cases i s hu hreset (not_exists.1 hencode) with ⟨-, x, heq⟩ | ⟨op, hop, heq⟩
    · cases heq.symm.trans hexec
      exact h
    · rcases encCommand_cases s op with ⟨-, hcmd⟩ | ⟨-, hcmd⟩ <;> cases (heq.trans hcmd).symm.trans hexec
      · exact h
      · exact h.of_advances (hop.operation hband s.enc h.fq_in_band)
          fun _ hclear => (congrArg Seq.stage (hop.seq_eq s.enc)).symm ▸ h.seq_idle_or_done hclear

/-- Every command of `DEC` keeps its part of the invariant. -/
theorem exec_keeps_decInv {i : Instr} {s t : State} (hcfg : ConfigValid s.cfg) (h : DecInv s.cfg s.dec s.host.raster)
    (hexec : exec i s = .next t) (hu : unitOf i = .dec) : DecInv s.cfg t.dec t.host.raster := by
  have hrate := configValid_sampleRate_pos hcfg
  by_cases hreset : i = .dreset
  · subst hreset
    cases hexec
    exact decInv_reset _ _ h.raster_in_frame
  by_cases happend : ∃ n, i = .append n
  · obtain ⟨n, rfl⟩ := happend
    rcases exec_append_cases n s with ⟨-, heq⟩ | heq | heq | heq <;> cases heq.symm.trans hexec
    · exact h
    · exact h
    · exact (decOperation_pass s.cfg).keeps hrate _ _ { h with }
  · rcases exec_dec_cases i s hu hreset (not_exists.1 happend) with ⟨-, heq⟩ | ⟨op, hop, heq⟩
    · cases heq.symm.trans hexec
      exact h
    · rcases decCommand_cases s op with ⟨-, hcmd⟩ | ⟨-, hcmd⟩ <;> cases (heq.trans hcmd).symm.trans hexec
      · exact h
      · exact hop.keeps hrate _ _ h

/-- Every command keeps the invariant: its own unit's part, and the rest by the independence of the units (R91). -/
theorem exec_keeps_inv {i : Instr} {s t : State} (h : Inv s) (hexec : exec i s = .next t) : Inv t := by
  obtain ⟨hcfg, henc, hdec, himages⟩ := (inv_iff s).1 h
  rw [inv_iff]
  cases hu : unitOf i with
  | enc =>
    obtain ⟨hcfg', hdec', -, -, hraster, himg, hinbox⟩ := unitsDoNotInterfere.1 i s t hexec hu
    rw [hcfg', hdec', hraster, himg, hinbox]
    exact ⟨hcfg, exec_keeps_encInv hcfg henc hexec hu, hdec, himages⟩
  | dec =>
    obtain ⟨hcfg', henc', -, himg, hinbox⟩ := unitsDoNotInterfere.2.1 i s t hexec hu
    rw [hcfg', henc', himg, hinbox]
    exact ⟨hcfg, henc, exec_keeps_decInv hcfg hdec hexec hu, himages⟩

/-- Taking an input keeps the invariant. -/
theorem inv_withInbox {s : State} (h : Inv s) {x : HostInput} {rest : List HostInput} (hinbox : s.host.inbox = x :: rest) :
    Inv (s.withInbox rest) ∧ InputOk x := by
  obtain ⟨himg, hinputs⟩ := h.images_ok
  rw [hinbox] at hinputs
  exact ⟨{ h with images_ok := ⟨himg, fun y hy => hinputs y (List.mem_cons_of_mem x hy)⟩ }, hinputs x List.mem_cons_self⟩

/-- A device failure keeps the invariant (R284). -/
theorem inv_deviceError {s : State} (h : Inv s) (u : UnitId) : Inv (s.deviceError u) := by
  cases u with
  | enc => exact { h with seq_idle_or_done := nofun, enc_fault_codes := by simp }
  | dec => exact { h with dec_fault_codes := by simp }

/-- Settles O9: nothing is loaded, drawn or latched at reset, and `CANON` is valid. -/
theorem invariantHoldsAtReset : Obligations.InvariantHoldsAtReset := by
  unfold Obligations.InvariantHoldsAtReset
  rw [inv_iff]
  exact ⟨by decide +kernel, encInv_reset _, decInv_reset _ _ fun _ hcall => absurd hcall List.not_mem_nil, reset_images_ok⟩

/-- Settles O10: a command keeps the invariant by its unit's part, every other input by what it writes. -/
theorem everyStepKeepsTheInvariant : Obligations.EveryStepKeepsTheInvariant := by
  unfold Obligations.EveryStepKeepsTheInvariant
  intro s t h hstep
  rw [step_of_valid s h.cfg_valid] at hstep
  unfold fetch at hstep
  cases hinbox : s.host.inbox with
  | nil =>
    rw [hinbox] at hstep
    cases hstep
    exact h
  | cons x rest =>
    obtain ⟨hrest, hx⟩ := inv_withInbox h hinbox
    rw [hinbox] at hstep
    cases x with
    | command w =>
      cases hw : decode w with
      | ok i =>
        simp only [hw] at hstep
        exact exec_keeps_inv hrest hstep
      | error x =>
        simp only [hw] at hstep
        cases hstep
        exact { hrest with }
    | deviceError u =>
      cases hstep
      exact inv_deviceError hrest u
    | bindImage img =>
      cases hstep
      exact { hrest with images_ok := ⟨hx, hrest.images_ok.2⟩ }
    | deviceRead bytes =>
      cases hvs : samplesOfBytes bytes with
      | none => simp [hvs] at hstep
      | some vs =>
        simp only [hvs] at hstep
        cases hstep
        exact { hrest with }

/-- Settles O35: an operation of `ENC` only advances, a command of `DEC` leaves `ENC` alone. -/
theorem encoderOutputOnlyGrows : Obligations.EncoderOutputOnlyGrows := by
  unfold Obligations.EncoderOutputOnlyGrows
  intro i s t h hexec hreset hencode
  cases hu : unitOf i with
  | enc =>
    rcases exec_enc_cases i s hu hreset hencode with ⟨-, x, heq⟩ | ⟨op, hop, heq⟩
    · cases heq.symm.trans hexec
      exact ⟨le_rfl, List.prefix_rfl⟩
    · rcases encCommand_cases s op with ⟨-, hcmd⟩ | ⟨-, hcmd⟩ <;> cases (heq.trans hcmd).symm.trans hexec
      · exact ⟨le_rfl, List.prefix_rfl⟩
      · have hop := hop.operation (configValid_band h.cfg_valid) s.enc h.fq_in_band
        exact ⟨hop.phase_le, hop.pcm_grows⟩
  | dec =>
    obtain ⟨-, henc, -⟩ := unitsDoNotInterfere.2.1 i s t hexec hu
    rw [henc]
    exact ⟨le_rfl, List.prefix_rfl⟩

end Sys2Proof.Machine

/-! ### The sweep (O23) and the transmission (O31) -/

namespace Sys2Proof.Machine

theorem encBlocked_eq_false {e : Enc} (h : e.fault ≠ some .deviceError) : encBlocked e = false := by
  simp [encBlocked, h]

/-- A sweep over a line with at least one sample a pixel renders it (R150). -/
theorem renderSweep_of_fits (c : Config) (dur : Int) (e : Enc) (hdur : 0 ≤ dur) (hfq : e.fq ≠ [])
    (hspp : 1 ≤ sampleCount c dur.toNat / e.fq.length) :
    renderSweep c dur e = encOk (renderSegment c (sweepFreq e.fq (sampleCount c dur.toNat / e.fq.length))
      (fun i => envelope c i (sampleCount c dur.toNat)) (sampleCount c dur.toNat) e) := by
  have hlen : e.fq.length ≠ 0 := mt List.length_eq_zero_iff.1 hfq
  unfold renderSweep
  rw [if_neg (not_lt.2 hdur), if_neg hlen]
  exact if_neg (by omega)

/-- Settles O23: the segment's samples in closed form, at the interpolated frequencies. -/
theorem sweepRendersTheLine : Obligations.SweepRendersTheLine := by
  unfold Obligations.SweepRendersTheLine
  intro s dur hfault hdur hfq f n spp p q α fi phaseAt hspp
  refine (encCommand_of_not_blocked s _ (encBlocked_eq_false hfault)).trans ?_
  rw [durOperand, renderSweep_of_fits s.cfg dur.toInt s.enc hdur hfq hspp, renderSegment]
  dsimp only [Enc.appendPcm]
  rw [renderSamples_map, renderSamples_phase_map]
  simp only [Nat.zero_add]
  rfl

/-! The length of a transmission: each stage of `ENCODE` ends normally and writes its count of samples. -/

/-- A sequence that has ended normally so far, with the latch clear and `n` samples in `PCM`. -/
structure Complete (o : EncOut) (n : Nat) : Prop where
  raised_eq : o.raised = none
  fault_eq : o.enc.fault = none
  pcm_length : o.enc.pcm.length = n

/-- The frequencies of the channel at position `k` of row `y` (R182, R188). -/
def scanLine (c : Config) (img : Image) (y : Nat) (k : Fin 3) : List Rat :=
  (List.range img.width).map fun x => fmap c (chx (img.read x y) (txc c k)).toNat

section
variable {c : Config} {o : EncOut} {n : Nat}

theorem Complete.of_eq {m : Nat} (h : Complete o n) (hnm : n = m) : Complete o m := hnm ▸ h

/-- A sequence that has ended normally goes on from its state. -/
theorem Complete.andThen_eq (h : Complete o n) (f : Enc → EncOut) : o.andThen f = f o.enc := by
  rw [EncOut.andThen, h.raised_eq]

theorem Complete.tone (h : Complete o n) (freq dur : Nat) :
    Complete (o.andThen (renderTone c freq dur true)) (n + sampleCount c dur) := by
  rw [h.andThen_eq, renderTone_of_nonneg _ _ _ _ _ (Int.natCast_nonneg dur)]
  exact ⟨rfl, h.fault_eq, by simp [h.pcm_length]⟩

/-- The tones of a header's bits (R172). -/
theorem Complete.bits (h : Complete o n) (bits : List Bool) (dur : Nat) :
    Complete (bits.foldl (fun o b => o.andThen (renderTone c (if b then c.fskF1 else c.fskF0) dur true)) o)
      (n + bits.length * sampleCount c dur) := by
  induction bits generalizing o n with
  | nil => simpa using h
  | cons b bits ih => exact (ih (h.tone _ dur)).of_eq (by rw [List.length_cons]; ring)

theorem Complete.toneStage (h : Complete o n) (g : Stage) (y : Nat) (k : Fin 3) (freq dur : Nat) :
    Complete (toneStage c g y k freq dur o) (n + sampleCount c dur) := by
  have hstage : Complete (encOk (o.enc.atStage g y k)) n := ⟨rfl, h.fault_eq, h.pcm_length⟩
  unfold Sys2Proof.Machine.toneStage
  rw [h.andThen_eq]
  exact hstage.tone freq dur

theorem Complete.padStage (h : Complete o n) (y : Nat) :
    Complete (padStage c y o) (n + sampleCount c (padUs c)) ∧ (padStage c y o).enc.fq = o.enc.fq := by
  unfold Sys2Proof.Machine.padStage
  obtain ⟨vs, heq, hlen⟩ := renderSilence_eq_appendPcm c (padUs c) (o.enc.atStage .pad y 2)
  rw [h.andThen_eq, heq]
  exact ⟨⟨rfl, h.fault_eq, by simp [h.pcm_length, hlen]⟩, rfl⟩

variable {img : Image} (hw : 0 < img.width) (hfit : img.width ≤ sampleCount c c.scanUs)
include hw hfit

/-- The scan of a row of an image that a scan has samples for. -/
theorem Complete.scanStage (h : Complete o n) {y : Nat} (hy : y < img.height) (k : Fin 3) :
    Complete (scanStage c img y k o) (n + sampleCount c c.scanUs)
      ∧ (scanStage c img y k o).enc.fq = scanLine c img y k := by
  have hload : loadChannel c (some img) (txc c k) y (o.enc.atStage .scan y k)
      = encOk { o.enc.atStage .scan y k with fq := scanLine c img y k } := by
    have hsize : ¬ (img.width = 0 ∨ img.height = 0) := by omega
    simp [loadChannel, hsize, not_le.2 hy, scanLine]
  have hlen : (scanLine c img y k).length = img.width := by simp [scanLine]
  have hne : scanLine c img y k ≠ [] := List.ne_nil_of_length_pos (hlen ▸ hw)
  unfold Sys2Proof.Machine.scanStage
  rw [h.andThen_eq, hload, EncOut.andThen_encOk, renderSweep_of_fits c _ _ (Int.natCast_nonneg _) hne
    (by rw [hlen]; exact Nat.div_pos hfit hw)]
  exact ⟨⟨rfl, h.fault_eq, by simp [h.pcm_length]⟩, rfl⟩

/-- A line of a transmission (R188, R192). -/
theorem Complete.encodeLine (h : Complete o n) {y : Nat} (hy : y < img.height) :
    Complete (encodeLine c img y o) (n + lineLength c) ∧ (encodeLine c img y o).enc.fq = scanLine c img y 2 := by
  have hsync := (h.toneStage (c := c) .hsync y 0 c.syncFreq c.syncUs).toneStage (c := c) .hporch y 0 c.porchFreq c.porchUs
  have hgreen := (hsync.scanStage hw hfit hy 0).1.toneStage (c := c) .sep y 0 c.porchFreq c.sepUs
  have hblue := (hgreen.scanStage hw hfit hy 1).1.toneStage (c := c) .sep y 1 c.porchFreq c.sepUs
  obtain ⟨hred, hfq⟩ := hblue.scanStage hw hfit hy 2
  obtain ⟨hpad, hkeep⟩ := hred.padStage (c := c) y
  exact ⟨hpad.of_eq (by unfold lineLength; ring), hkeep.trans hfq⟩

/-- The first `m` lines of a transmission. -/
theorem Complete.lines (h : Complete o n) (m : Nat) (hm : m ≤ img.height) :
    Complete ((List.range m).foldl (fun o y => Sys2Proof.Machine.encodeLine c img y o) o) (n + m * lineLength c) := by
  induction m with
  | zero => simpa using h
  | succ m ih =>
    rw [List.range_succ, List.foldl_append, Nat.succ_mul, ← Nat.add_assoc]
    exact ((ih (by omega)).encodeLine hw hfit (by omega)).1

end

/-- The header of a transmission from an empty buffer (R190, R192). -/
theorem complete_encodeHeader (c : Config) (vis : BitVec 8) : Complete (encodeHeader c vis .reset) (headerLength c) := by
  have hstart : Complete (encOk (Enc.reset.atStage .vis 0 0)) 0 := ⟨rfl, rfl, rfl⟩
  have hbits := hstart.bits (c := c) (vbits c.visBitOrder vis) c.bitUs
  have hsync := hbits.toneStage (c := c) .vsync 0 0 c.syncFreq c.syncUs
  have hporch := hsync.toneStage (c := c) .vporch 0 0 c.porchFreq c.porchUs
  have hlen : (vbits c.visBitOrder vis).length = 8 := by simp [vbits]
  exact hporch.of_eq (by rw [hlen, headerLength, Nat.zero_add])

/-- `ENCODE` of an image that a scan has samples for renders the whole transmission (R186, R188). -/
theorem encodeImage_complete (c : Config) (img : Image) (vis : BitVec 8) (hw : 0 < img.width) (hh : 0 < img.height)
    (hfit : img.width ≤ sampleCount c c.scanUs) :
    Complete (encodeImage c img vis) (headerLength c + img.height * lineLength c)
      ∧ (encodeImage c img vis).enc.seq = ⟨.done, img.height - 1, 2⟩
      ∧ (encodeImage c img vis).enc.fq = scanLine c img (img.height - 1) 2 := by
  have hheader := complete_encodeHeader c vis
  have hall : Complete (encodeSequence c img vis .reset) _ := hheader.lines hw hfit img.height le_rfl
  have hfq : (encodeSequence c img vis .reset).enc.fq = scanLine c img (img.height - 1) 2 := by
    obtain ⟨m, hm⟩ : ∃ m, img.height = m + 1 := ⟨img.height - 1, by omega⟩
    rw [encodeSequence, hm, List.range_succ, List.foldl_append, Nat.add_sub_cancel]
    exact ((hheader.lines hw hfit m (by omega)).encodeLine hw hfit (by omega)).2
  unfold encodeImage
  rw [hall.andThen_eq]
  exact ⟨⟨rfl, hall.fault_eq, hall.pcm_length⟩, rfl, hfq⟩

/-- `ENCODE` of an image with at least one pixel renders it (R186). -/
theorem exec_encode_of_image (vis : BitVec 8) (s : State) (im : Image) (himg : s.host.img = some im)
    (hw : 0 < im.width) (hh : 0 < im.height) :
    exec (.encode vis) s = .next ((s.handOver (encodeImage s.cfg im vis)).withEnc (encodeImage s.cfg im vis)) := by
  change execEncode vis s = _
  unfold execEncode
  rw [himg]
  exact if_neg (by omega)

/-- Settles O31: the stages one by one, the last line by itself. -/
theorem encodeHandsOverTheTransmission : Obligations.EncodeHandsOverTheTransmission := by
  unfold Obligations.EncodeHandsOverTheTransmission
  refine ⟨fun s vis im himg hw hh hfit => ?_, by decide, by decide, by decide⟩
  obtain ⟨⟨hraised, hfault, hlen⟩, hseq, hfq⟩ := encodeImage_complete s.cfg im vis hw hh hfit
  refine ⟨_, ?_, hfault, hseq, hlen, hfq⟩
  rw [exec_encode_of_image vis s im himg hw hh, State.withEnc, State.handOver, EncOut.result, hraised]

end Sys2Proof.Machine

/-! ### The estimator's registers (O36) -/

namespace Sys2Proof.Machine

theorem decBlocked_eq_false {d : Dec} (h : d.fault = none) : decBlocked d = false := by
  simp [decBlocked, h]

theorem decBlocked_iff {d : Dec} : decBlocked d = true ↔ d.fault ≠ none := by
  simp [decBlocked, Option.isSome_iff_ne_none]

theorem encBlocked_iff {e : Enc} : encBlocked e = true ↔ e.fault = some .deviceError := by
  simp [encBlocked]

/-- Settles O36: the registers' exact sums have the values of the rules' formulas. -/
theorem goertzMeasuresTheWindow : Obligations.GoertzMeasuresTheWindow := by
  unfold Obligations.GoertzMeasuresTheWindow
  intro s freq hfault hrate
  have hgp := power_value_eq hrate freq.toNat s.dec.win
  have hgm := magnitude_value_eq hrate freq.toNat s.dec.win
  refine ⟨power s.cfg.sampleRate freq.toNat s.dec.win, magnitude s.cfg.sampleRate freq.toNat s.dec.win, ?_, hgp, hgm,
    fun hzeros => ⟨?_, ?_⟩⟩
  · change execGoertz freq s = _
    exact decCommand_of_not_blocked s _ (decBlocked_eq_false hfault)
  · exact hgp.trans (powerReal_of_zeros _ _ _ hzeros)
  · exact hgm.trans (magReal_of_zeros _ _ _ hzeros)

end Sys2Proof.Machine

/-! ### The latches (O57) -/

namespace Sys2Proof.Machine

/-- A refusal of a command of `ENC` is that of a reserved word, or the latch's (R45). -/
theorem exec_enc_refused {i : Instr} {s t : State} {r : RefuseReason} (hu : unitOf i = .enc) (hexec : exec i s = .next t)
    (hr : t.host.result = some (.refused r)) :
    (∃ x, r = .reservedWord x)
      ∨ (r = .encFaulted ∧ s.enc.fault = some .deviceError ∧ i ≠ .ereset ∧ ∀ vis, i ≠ .encode vis) := by
  have withEnc_not_refused (u : State) (o : EncOut) (h : (u.withEnc o).host.result = some (.refused r)) : False :=
    o.result_ne_refused r (Option.some.inj h)
  by_cases hreset : i = .ereset
  · subst hreset
    cases hexec
    exact (withEnc_not_refused _ _ hr).elim
  by_cases hencode : ∃ vis, i = .encode vis
  · obtain ⟨vis, rfl⟩ := hencode
    obtain ⟨o, -, heq⟩ := exec_encode_cases vis s
    cases heq.symm.trans hexec
    exact (withEnc_not_refused _ _ hr).elim
  · rcases exec_enc_cases i s hu hreset (not_exists.1 hencode) with ⟨-, x, heq⟩ | ⟨op, -, heq⟩
    · cases heq.symm.trans hexec
      cases hr
      exact .inl ⟨x, rfl⟩
    · rcases encCommand_cases s op with ⟨hblocked, hcmd⟩ | ⟨-, hcmd⟩ <;> cases (heq.trans hcmd).symm.trans hexec
      · cases hr
        exact .inr ⟨rfl, encBlocked_iff.1 hblocked, hreset, not_exists.1 hencode⟩
      · exact (withEnc_not_refused _ _ hr).elim

/-- A refusal of a command of `DEC` is the latch's (R45), or one of those a unit without a latch set gives. -/
theorem exec_dec_refused {i : Instr} {s t : State} {r : RefuseReason} (hu : unitOf i = .dec) (hexec : exec i s = .next t)
    (hr : t.host.result = some (.refused r)) :
    (r = .decFaulted ∧ s.dec.fault ≠ none ∧ i ≠ .dreset)
      ∨ r ∈ [.reservedWord .channel, .stopped, .rowOutOfFrame, .accUnwritten] := by
  by_cases hreset : i = .dreset
  · subst hreset
    cases hexec
    cases hr
  by_cases happend : ∃ n, i = .append n
  · obtain ⟨n, rfl⟩ := happend
    rcases exec_append_cases n s with ⟨hblocked, heq⟩ | heq | heq | heq <;> cases heq.symm.trans hexec
    · cases hr
      exact .inl ⟨rfl, decBlocked_iff.1 hblocked, hreset⟩
    · cases hr
      exact .inr (by simp)
    · rw [State.withDec_result, passAction_result] at hr
      cases hr
  · rcases exec_dec_cases i s hu hreset (not_exists.1 happend) with ⟨-, heq⟩ | ⟨op, hop, heq⟩
    · cases heq.symm.trans hexec
      cases hr
      exact .inr (by simp)
    · rcases decCommand_cases s op with ⟨hblocked, hcmd⟩ | ⟨-, hcmd⟩ <;> cases (heq.trans hcmd).symm.trans hexec
      · cases hr
        exact .inl ⟨rfl, decBlocked_iff.1 hblocked, hreset⟩
      · rcases hop.refusal _ _ r (Option.some.inj hr) with rfl | rfl <;> exact .inr (by simp)

/-- The latch of `DEC` refuses its commands (R45). -/
theorem exec_of_decFaulted {i : Instr} {s : State} (hfault : s.dec.fault ≠ none) (hu : unitOf i = .dec)
    (hreset : i ≠ .dreset) (happend : ∀ n, i ≠ .append n) (hwf : i.WellFormed) :
    exec i s = .next (s.report (.refused .decFaulted)) := by
  rcases exec_dec_cases i s hu hreset happend with ⟨hill, -⟩ | ⟨op, -, heq⟩
  · exact absurd hwf hill
  · exact heq.trans (decCommand_of_blocked s op (decBlocked_iff.2 hfault))

/-- The latch of `ENC` refuses its commands (R45). -/
theorem exec_of_encFaulted {i : Instr} {s : State} (hfault : s.enc.fault = some .deviceError) (hu : unitOf i = .enc)
    (hreset : i ≠ .ereset) (hencode : ∀ vis, i ≠ .encode vis) (hwf : i.WellFormed) :
    exec i s = .next (s.report (.refused .encFaulted)) := by
  rcases exec_enc_cases i s hu hreset hencode with ⟨hill, -⟩ | ⟨op, -, heq⟩
  · exact absurd hwf hill
  · exact heq.trans (encCommand_of_blocked s op (encBlocked_iff.2 hfault))

/-- The commands that no latch refuses answer a next state, and it is no refusal (R45). -/
theorem exec_exempt (s : State) (i : Instr) (hi : i = .dreset ∨ i = .ereset ∨ ∃ vis, i = .encode vis) :
    ∃ t, exec i s = .next t ∧ ∀ r, t.host.result ≠ some (.refused r) := by
  rcases hi with rfl | rfl | ⟨vis, rfl⟩
  · exact ⟨_, rfl, nofun⟩
  · exact ⟨_, rfl, nofun⟩
  · obtain ⟨o, -, heq⟩ := exec_encode_cases vis s
    exact ⟨_, heq, fun r h => o.result_ne_refused r (Option.some.inj h)⟩

/-- Settles O57: every refusal that a command can answer, unit by unit. -/
theorem faultLatchesRefuse : Obligations.FaultLatchesRefuse := by
  unfold Obligations.FaultLatchesRefuse
  refine ⟨fun s i hfault hu hreset happend hwf => exec_of_decFaulted hfault hu hreset happend hwf,
    fun s n hfault => if_pos (decBlocked_iff.2 hfault),
    fun s i hfault hu hreset hencode hwf => exec_of_encFaulted hfault hu hreset hencode hwf,
    fun s t i hexec hr => ?_, fun s t i hexec hr => ?_, exec_exempt⟩
  · cases hu : unitOf i with
    | enc => rcases exec_enc_refused hu hexec hr with ⟨x, hx⟩ | ⟨hx, -⟩ <;> cases hx
    | dec =>
      rcases exec_dec_refused hu hexec hr with ⟨-, hfault, hreset⟩ | hx
      · exact ⟨hfault, rfl, hreset⟩
      · simp at hx
  · cases hu : unitOf i with
    | enc =>
      rcases exec_enc_refused hu hexec hr with ⟨x, hx⟩ | ⟨-, hfault, hreset, hencode⟩
      · cases hx
      · exact ⟨hfault, rfl, hreset, hencode⟩
    | dec => rcases exec_dec_refused hu hexec hr with ⟨hx, -⟩ | hx <;> simp at hx

end Sys2Proof.Machine

/-! ### The emission of a row (O50, O51) -/

namespace Sys2Proof.Machine

/-- A command of `DEC` with the latch clear, by what its operation answers. -/
theorem decCommand_of_eq {s : State} {op : Dec → List RasterCall → DecOut} {o : DecOut} (hfault : s.dec.fault = none)
    (ho : op s.dec s.host.raster = o) : decCommand s op = .next (s.withDec o) :=
  ho ▸ decCommand_of_not_blocked s op (decBlocked_eq_false hfault)

/-- Settles O51: the three cases of `ROWOUT`. -/
theorem rowoutEmitsTheRow : Obligations.RowoutEmitsTheRow := by
  unfold Obligations.RowoutEmitsTheRow
  intro s hfault
  refine ⟨fun hend => ?_, fun hrow hw => ?_, fun hrow hgreen hblue hred => ?_⟩
  · exact decCommand_of_eq hfault (rowoutAction_of_end s.cfg s.dec _ hend)
  · exact decCommand_of_eq hfault (rowoutAction_of_unwritten s.cfg s.dec _ hrow (by omega))
  · exact decCommand_of_eq hfault (rowoutAction_of_written s.cfg s.dec _ hrow ⟨hgreen, hblue, hred⟩)

/-- `CHDEC 2` with a scan's samples buffered, by what `ROWOUT` can do over the new line (R252, R256). -/
theorem chdecAction_red_of_end (c : Config) (d : Dec) (r : List RasterCall) (hfull : sampleCount c c.scanUs ≤ d.sb.length)
    (hend : c.height ≤ d.row) :
    chdecAction c 2 d r =
      ⟨{ d.consume (c.width * (sampleCount c c.scanUs / c.width)) with
          acc := { d.acc with red := channelLine c d (sampleCount c c.scanUs / c.width) } }, r,
        .refused .rowOutOfFrame⟩ :=
  (chdecAction_red c d r hfull).trans (rowoutAction_of_end c _ r hend)

theorem chdecAction_red_of_unwritten (c : Config) (d : Dec) (r : List RasterCall)
    (hfull : sampleCount c c.scanUs ≤ d.sb.length) (hrow : d.row < c.height)
    (hw : ¬ (c.width ≤ d.acc.green.length ∧ c.width ≤ d.acc.blue.length)) :
    chdecAction c 2 d r =
      ⟨{ d.consume (c.width * (sampleCount c c.scanUs / c.width)) with
          acc := { d.acc with red := channelLine c d (sampleCount c c.scanUs / c.width) } }, r,
        .refused .accUnwritten⟩ :=
  (chdecAction_red c d r hfull).trans
    (rowoutAction_of_unwritten c _ r hrow fun h => hw ⟨h.1, h.2.1⟩)

theorem chdecAction_red_of_written (c : Config) (d : Dec) (r : List RasterCall)
    (hfull : sampleCount c c.scanUs ≤ d.sb.length) (hrow : d.row < c.height)
    (hw : c.width ≤ d.acc.green.length ∧ c.width ≤ d.acc.blue.length) :
    chdecAction c 2 d r =
      ⟨{ d.consume (c.width * (sampleCount c c.scanUs / c.width)) with
          acc := { d.acc with red := channelLine c d (sampleCount c c.scanUs / c.width) }
          row := d.row + 1
          state := if d.row + 1 = c.height then .awaitingVIS else .awaitingSync },
        r ++ rowCalls { d.acc with red := channelLine c d (sampleCount c c.scanUs / c.width) } c.width d.row, .ok⟩ :=
  (chdecAction_red c d r hfull).trans
    (rowoutAction_of_written c _ r hrow ⟨hw.1, hw.2, (channelLine_length c d _).ge⟩)

/-- Settles O50: an underrun, or the three cases of `ROWOUT` over the new line. -/
theorem chdecRedEmitsTheRow : Obligations.ChdecRedEmitsTheRow := by
  unfold Obligations.ChdecRedEmitsTheRow
  intro s hfault n spp line
  refine ⟨fun hshort => ?_, fun hfull hrow hgreen hblue => ?_, fun hfull hend => ?_, fun hfull hrow hw => ?_⟩
  · exact decCommand_of_eq hfault (chdecAction_underrun s.cfg 2 s.dec _ hshort)
  · exact decCommand_of_eq hfault (chdecAction_red_of_written s.cfg s.dec _ hfull hrow ⟨hgreen, hblue⟩)
  · exact decCommand_of_eq hfault (chdecAction_red_of_end s.cfg s.dec _ hfull hend)
  · exact decCommand_of_eq hfault (chdecAction_red_of_unwritten s.cfg s.dec _ hfull hrow (by omega))

end Sys2Proof.Machine

/-! ### The step and reset (O5, O8) -/

namespace Sys2Proof.Machine

/-- A step over a command's word runs the command (R91, R101). -/
theorem step_of_command {s : State} {w : CmdWord} {i : Instr} {rest : List HostInput} (hcfg : ConfigValid s.cfg)
    (hinbox : s.host.inbox = .command w :: rest) (hw : decode w = .ok i) : step s = exec i (s.withInbox rest) := by
  have hfetch : fetch s = .run i (s.withInbox rest) := by
    unfold fetch
    rw [hinbox]
    simp only [hw]
  rw [step_of_valid s hcfg, hfetch]

/-- A table word decodes as the command word of its bits (R90). -/
theorem decode_of_decodeTableWord {nbits w : Nat} {i : Instr} (h : decodeTableWord nbits w = some i) :
    decode (BitVec.ofNat 64 (w % 2 ^ nbits)) = .ok i := by
  unfold decodeTableWord at h
  split at h
  · cases hw : decode (BitVec.ofNat 64 (w % 2 ^ nbits)) with
    | ok j =>
      rw [hw] at h
      cases h
      rfl
    | error x =>
      rw [hw] at h
      cases h
  · cases h

/-- Settles O5: the word taken, or placed and taken. -/
theorem stepRunsTheDecodedCommand : Obligations.StepRunsTheDecodedCommand := by
  unfold Obligations.StepRunsTheDecodedCommand
  exact ⟨fun s w i rest hcfg hinbox hw => step_of_command hcfg hinbox hw,
    fun s nbits w i hcfg hw => step_of_command (s := s.withFetchWord nbits w) hcfg rfl (decode_of_decodeTableWord hw)⟩

/-- A sum of no terms is 0 in both registers (R35). -/
theorem power_zero_value : (Power.mk .zero).value = 0 := by
  simp [Power.value, DftSum.reValue, DftSum.imValue, DftSum.zero]

theorem magnitude_zero_value : (Magnitude.mk .zero 0).value = 0 := if_pos rfl

/-- Settles O8: each column of the table is its unit's reset state. -/
theorem resetTable : Obligations.ResetTable := by
  unfold Obligations.ResetTable
  refine ⟨⟨rfl, rfl, rfl, rfl, rfl, power_zero_value, magnitude_zero_value, rfl, rfl, rfl, rfl⟩, fun s => ?_⟩
  exact ⟨_, _, rfl, rfl, rfl⟩

end Sys2Proof.Machine

/-! ### The state machine's table (O53) -/

namespace Sys2Proof.Machine

theorem DecState.eq_cases (x : DecState) :
    x = .awaitingVIS ∨ x = .awaitingSync ∨ x = .awaitingPorch ∨ ∃ k, x = .decodingLine k := by
  cases x <;> simp

section
variable {c : Config} {d : Dec} (r : List RasterCall)

theorem stepAction_awaitingVIS (h : d.state = .awaitingVIS) : stepAction c d r = visdetAction c d r := by
  unfold stepAction
  rw [h]

theorem stepAction_awaitingSync (h : d.state = .awaitingSync) : stepAction c d r = syncdetAction c d r := by
  unfold stepAction
  rw [h]

theorem stepAction_awaitingPorch (h : d.state = .awaitingPorch) : stepAction c d r = porchdetAction c d r := by
  unfold stepAction
  rw [h]

theorem stepAction_decodingLine {k : Fin 3} (h : d.state = .decodingLine k) : stepAction c d r = chdecAction c k d r := by
  unfold stepAction
  rw [h]

end

/-- Settles O53: state by state, the cases of the state's action; each `right` of a state's offset skips a row of the
table that is another state's. -/
theorem onlyTheTabledTransitions : Obligations.OnlyTheTabledTransitions := by
  unfold Obligations.OnlyTheTabledTransitions
  intro s t hexec c d slots sync porch scan spp line rest ends written
  rcases decCommand_cases s (stepAction s.cfg) with ⟨hblocked, hcmd⟩ | ⟨hblocked, hcmd⟩
  all_goals
    cases hcmd.symm.trans hexec
  · refine .inl ⟨decBlocked_iff.1 hblocked, ?_⟩
    simp only [ends, List.append_nil]
    rfl
  have hclear : d.fault = none := not_not.1 fun hfault => absurd (decBlocked_iff.2 hfault) (Bool.eq_false_iff.1 hblocked)
  have ends_of_eq {d' : Dec} {calls : List RasterCall} {res : CmdResult}
      (h : stepAction c d s.host.raster = ⟨d', s.host.raster ++ calls, res⟩) : ends d' calls res :=
    congrArg s.withDec h
  have ends_of_eq_nil {d' : Dec} {res : CmdResult} (h : stepAction c d s.host.raster = ⟨d', s.host.raster, res⟩) :
      ends d' [] res := ends_of_eq (by rw [h, List.append_nil])
  refine .inr ⟨hclear, ?_⟩
  rcases DecState.eq_cases d.state with hstate | hstate | hstate | ⟨k, hstate⟩
  · have hstep := stepAction_awaitingVIS (c := c) s.host.raster hstate
    rcases visdetAction_cases c d s.host.raster with ⟨hshort, heq⟩ | ⟨hfull, hbyte, heq⟩ | ⟨hfull, hbyte, heq⟩
    · exact .inr (.inr (.inl ⟨hstate, hshort, ends_of_eq_nil (hstep.trans heq)⟩))
    · exact .inl ⟨hstate, hfull, hbyte, ends_of_eq (hstep.trans heq)⟩
    · exact .inr (.inl ⟨hstate, hfull, hbyte, ends_of_eq_nil (hstep.trans heq)⟩)
  · have hstep := stepAction_awaitingSync (c := c) s.host.raster hstate
    iterate 3 right
    rcases toneAction_cases c c.syncFreq sync .awaitingPorch d s.host.raster with
      ⟨hshort, heq⟩ | ⟨hfull, htone, heq⟩ | ⟨hfull, htone, heq⟩
    · exact .inr (.inr (.inl ⟨hstate, hshort, ends_of_eq_nil (hstep.trans heq)⟩))
    · exact .inl ⟨hstate, hfull, htone, ends_of_eq_nil (hstep.trans heq)⟩
    · exact .inr (.inl ⟨hstate, hfull, htone, ends_of_eq_nil (hstep.trans heq)⟩)
  · have hstep := stepAction_awaitingPorch (c := c) s.host.raster hstate
    iterate 6 right
    rcases toneAction_cases c c.porchFreq porch (.decodingLine 0) d s.host.raster with
      ⟨hshort, heq⟩ | ⟨hfull, htone, heq⟩ | ⟨hfull, htone, heq⟩
    · exact .inr (.inr (.inl ⟨hstate, hshort, ends_of_eq_nil (hstep.trans heq)⟩))
    · exact .inl ⟨hstate, hfull, htone, ends_of_eq_nil (hstep.trans heq)⟩
    · exact .inr (.inl ⟨hstate, hfull, htone, ends_of_eq_nil (hstep.trans heq)⟩)
  · have hstep := stepAction_decodingLine (c := c) s.host.raster hstate
    iterate 9 right
    rcases lt_or_ge d.sb.length scan with hshort | hfull
    · iterate 5 right
      exact ⟨⟨k, hstate⟩, hshort, ends_of_eq_nil (hstep.trans (chdecAction_underrun c k d _ hshort))⟩
    match k with
    | 0 => exact .inl ⟨hstate, hfull, ends_of_eq_nil (hstep.trans (chdecAction_green c d _ hfull))⟩
    | 1 => exact .inr (.inl ⟨hstate, hfull, ends_of_eq_nil (hstep.trans (chdecAction_blue c d _ hfull))⟩)
    | 2 =>
      iterate 2 right
      rcases le_or_gt c.height d.row with hend | hrow
      · exact .inr (.inl ⟨hstate, hfull, hend, ends_of_eq_nil (hstep.trans (chdecAction_red_of_end c d _ hfull hend))⟩)
      by_cases hw : written
      · refine .inl ⟨hstate, hfull, hrow, hw, _, ?_, ends_of_eq (hstep.trans (chdecAction_red_of_written c d _ hfull hrow hw))⟩
        split_ifs with hlast
        · exact .inr ⟨hlast, rfl⟩
        · exact .inl ⟨by omega, rfl⟩
      · exact .inr (.inr (.inl ⟨hstate, hfull, hrow, hw,
          ends_of_eq_nil (hstep.trans (chdecAction_red_of_unwritten c d _ hfull hrow hw))⟩))

end Sys2Proof.Machine

/-! ### The wire format (O18) -/

namespace Sys2Proof.Machine

/-- A buffer on the wire is its first sample's low and high byte, then the rest of the buffer (R70). -/
theorem wireBytes_cons (v : Sample) (vs : List Sample) :
    wireBytes (v :: vs) = v.extractLsb' 0 8 :: v.extractLsb' 8 8 :: wireBytes vs := rfl

@[simp] theorem wireBytes_length (pcm : List Sample) : (wireBytes pcm).length = 2 * pcm.length := by
  induction pcm with
  | nil => rfl
  | cons v vs ih =>
    simp only [wireBytes_cons, List.length_cons, ih]
    omega

/-- Sample `i` stands at the offsets `2i` and `2i + 1` (R70). -/
theorem wireBytes_getElem? (pcm : List Sample) (i : Nat) :
    (wireBytes pcm)[2 * i]? = pcm[i]?.map (·.extractLsb' 0 8)
      ∧ (wireBytes pcm)[2 * i + 1]? = pcm[i]?.map (·.extractLsb' 8 8) := by
  induction pcm generalizing i with
  | nil => exact ⟨rfl, rfl⟩
  | cons v vs ih =>
    cases i with
    | zero => exact ⟨rfl, rfl⟩
    | succ i => exact ih i

/-- The two bytes of a sample are the digits, to the base 256, of its pattern mod 65536 (R70). -/
theorem sample_bytes_toNat (v : Sample) :
    ((v.extractLsb' 0 8).toNat : Int) = v.toInt % 65536 % 256
      ∧ ((v.extractLsb' 8 8).toNat : Int) = v.toInt % 65536 / 256 := by
  have hpattern : v.toInt % 65536 = v.toNat := by
    rw [BitVec.toInt_eq_toNat_cond]
    split <;> omega
  rw [hpattern, BitVec.extractLsb'_toNat, BitVec.extractLsb'_toNat, Nat.shiftRight_eq_div_pow,
    Nat.shiftRight_eq_div_pow]
  omega

/-- A sample is its high byte over its low byte (R70). -/
theorem sample_bytes_append (v : Sample) : (v.extractLsb' 8 8 ++ v.extractLsb' 0 8 : BitVec 16) = v := by
  rw [BitVec.extractLsb'_append_extractLsb'_eq_extractLsb' (by omega), BitVec.extractLsb'_eq_self]

/-- Reading the bytes of a buffer gives the buffer back (R70). -/
@[simp] theorem samplesOfBytes_wireBytes (pcm : List Sample) : samplesOfBytes (wireBytes pcm) = some pcm := by
  induction pcm with
  | nil => rfl
  | cons v vs ih =>
    rw [wireBytes_cons, samplesOfBytes, ih, Option.map_some, sample_bytes_append]

/-- An even count of bytes is the wire form of a buffer (R70). -/
theorem exists_wireBytes_of_even (bytes : List Byte) (h : bytes.length % 2 = 0) : ∃ vs, wireBytes vs = bytes := by
  induction bytes using samplesOfBytes.induct with
  | case1 => exact ⟨[], rfl⟩
  | case2 => cases h
  | case3 lo hi rest ih =>
    obtain ⟨vs, hvs⟩ := ih (by simp only [List.length_cons] at h; omega)
    refine ⟨(hi ++ lo) :: vs, ?_⟩
    have hbytes : (hi ++ lo).extractLsb' 0 8 = lo ∧ (hi ++ lo).extractLsb' 8 8 = hi :=
      ⟨BitVec.extractLsb'_append_eq_right, BitVec.extractLsb'_append_eq_left⟩
    obtain ⟨hlo, hhi⟩ := hbytes
    rw [wireBytes_cons, hvs, hlo, hhi]

/-- An odd count of bytes is not read (R71). -/
theorem samplesOfBytes_of_odd (bytes : List Byte) (h : bytes.length % 2 = 1) : samplesOfBytes bytes = none := by
  induction bytes using samplesOfBytes.induct with
  | case1 => cases h
  | case2 => rfl
  | case3 lo hi rest ih =>
    rw [samplesOfBytes, ih (by simp only [List.length_cons] at h; omega), Option.map_none]

/-- Settles O18: each sample's two bytes, and the two directions over the buffer. -/
theorem wireFormatIsLittleEndian : Obligations.WireFormatIsLittleEndian := by
  unfold Obligations.WireFormatIsLittleEndian
  refine ⟨fun pcm i v hv => ?_, fun pcm => ⟨wireBytes_length pcm, samplesOfBytes_wireBytes pcm⟩,
    fun bytes => ⟨fun heven => ?_, samplesOfBytes_of_odd bytes⟩⟩
  · obtain ⟨hlo, hhi⟩ := wireBytes_getElem? pcm i
    rw [hv] at hlo hhi
    exact ⟨_, _, hlo, hhi, sample_bytes_toNat v⟩
  · obtain ⟨vs, rfl⟩ := exists_wireBytes_of_even bytes heven
    exact ⟨vs, samplesOfBytes_wireBytes vs, rfl⟩

end Sys2Proof.Machine

/-! ### What becomes of the stream buffer and the raster (O44) -/

namespace Sys2Proof.Machine

/-- From one state of `DEC` and the raster to the next: `SB` loses samples at its head only, the raster's calls stay and
new ones come behind them (R64, R66, R77). -/
structure KeepsOrder (d : Dec) (r : List RasterCall) (d' : Dec) (r' : List RasterCall) : Prop where
  sb_suffix : d'.sb <:+ d.sb
  raster_prefix : r <+: r'

theorem KeepsOrder.refl (d : Dec) (r : List RasterCall) : KeepsOrder d r d r := ⟨List.suffix_rfl, List.prefix_rfl⟩

theorem KeepsOrder.trans {d₁ d₂ d₃ : Dec} {r₁ r₂ r₃ : List RasterCall} (h : KeepsOrder d₁ r₁ d₂ r₂)
    (h' : KeepsOrder d₂ r₂ d₃ r₃) : KeepsOrder d₁ r₁ d₃ r₃ :=
  ⟨h'.sb_suffix.trans h.sb_suffix, h.raster_prefix.trans h'.raster_prefix⟩

/-- An operation of `DEC` that keeps the order, whatever it starts from. -/
def OrderedOperation (op : Dec → List RasterCall → DecOut) : Prop :=
  ∀ d r, KeepsOrder d r (op d r).dec (op d r).raster

section
variable (c : Config)

theorem orderedOperation_visdet : OrderedOperation (visdetAction c) := by
  intro d r
  rcases visdetAction_cases c d r with ⟨-, heq⟩ | ⟨-, -, heq⟩ | ⟨-, -, heq⟩ <;> rw [heq]
  · exact .refl d r
  · exact ⟨List.drop_suffix _ _, List.prefix_append _ _⟩
  · exact .refl d r

theorem orderedOperation_tone (f n : Nat) (next : DecState) : OrderedOperation (toneAction c f n next) := by
  intro d r
  rcases toneAction_cases c f n next d r with ⟨-, heq⟩ | ⟨-, -, heq⟩ | ⟨-, -, heq⟩ <;> rw [heq]
  · exact .refl d r
  · exact ⟨List.drop_suffix _ _, List.prefix_rfl⟩
  · exact .refl d r

theorem orderedOperation_rowout : OrderedOperation (rowoutAction c) := by
  intro d r
  rcases rowoutAction_cases c d r with ⟨x, heq⟩ | ⟨-, -, heq⟩ <;> rw [heq]
  · exact .refl d r
  · exact ⟨List.suffix_rfl, List.prefix_append _ _⟩

theorem orderedOperation_chdec (k : Fin 3) : OrderedOperation (chdecAction c k) := by
  intro d r
  rcases lt_or_ge d.sb.length (sampleCount c c.scanUs) with hshort | hfull
  · rw [chdecAction_underrun c k d r hshort]
    exact .refl d r
  match k with
  | 0 => rw [chdecAction_green c d r hfull]; exact ⟨List.drop_suffix _ _, List.prefix_rfl⟩
  | 1 => rw [chdecAction_blue c d r hfull]; exact ⟨List.drop_suffix _ _, List.prefix_rfl⟩
  | 2 =>
    rw [chdecAction_red c d r hfull]
    exact .trans ⟨List.drop_suffix _ _, List.prefix_rfl⟩ (orderedOperation_rowout c _ r)

/-- The action of each state keeps the order (R260). -/
theorem orderedOperation_step : OrderedOperation (stepAction c) := by
  intro d r
  unfold stepAction
  cases d.state with
  | awaitingVIS => exact orderedOperation_visdet c d r
  | awaitingSync => exact orderedOperation_tone c _ _ _ d r
  | awaitingPorch => exact orderedOperation_tone c _ _ _ d r
  | decodingLine k => exact orderedOperation_chdec c k d r

theorem orderedOperation_passLoop (n : Nat) : OrderedOperation (passLoop c n) := by
  induction n with
  | zero => exact .refl
  | succ n ih =>
    intro d r
    have hstep := orderedOperation_step c d r
    unfold passLoop
    dsimp only
    split
    · exact hstep.trans (ih _ _)
    · exact hstep

theorem orderedOperation_pass : OrderedOperation (passAction c) := by
  intro d r
  unfold passAction
  split
  · exact .refl d r
  · exact orderedOperation_passLoop c _ d r

end

theorem orderedOperation_peek (n : Nat) : OrderedOperation (peekAction n) := by
  intro d r
  unfold peekAction
  split <;> exact ⟨List.suffix_rfl, List.prefix_rfl⟩

theorem orderedOperation_consume (n : Nat) : OrderedOperation (consumeAction n) := by
  intro d r
  unfold consumeAction
  split
  · exact .refl d r
  · exact ⟨List.drop_suffix _ _, List.prefix_rfl⟩

theorem orderedOperation_goertz (c : Config) (freq : Nat) : OrderedOperation fun d r =>
    ⟨{ d with gp := power c.sampleRate freq d.win, gm := magnitude c.sampleRate freq d.win }, r, .ok⟩ :=
  fun _ _ => ⟨List.suffix_rfl, List.prefix_rfl⟩

theorem orderedOperation_stop : OrderedOperation fun d r => ⟨d.setStopped, r, .ok⟩ :=
  fun _ _ => ⟨List.suffix_rfl, List.prefix_rfl⟩

/-- A command of `DEC` keeps the order if its operation does; a refusal changes neither buffer. -/
theorem decCommand_keepsOrder {s t : State} {op : Dec → List RasterCall → DecOut} (hop : OrderedOperation op)
    (h : decCommand s op = .next t) : KeepsOrder s.dec s.host.raster t.dec t.host.raster := by
  rcases decCommand_cases s op with ⟨-, heq⟩ | ⟨-, heq⟩ <;> cases heq.symm.trans h
  · exact .refl _ _
  · exact hop _ _

/-- Every command of `DEC` that does not set the unit back and takes no samples keeps the order. -/
theorem exec_dec_keepsOrder {i : Instr} {s t : State} (h : exec i s = .next t) (hu : unitOf i = .dec)
    (hreset : i ≠ .dreset) (happend : ∀ n, i ≠ .append n) : KeepsOrder s.dec s.host.raster t.dec t.host.raster := by
  cases i with
  | append n => exact absurd rfl (happend n)
  | peek n => exact decCommand_keepsOrder (orderedOperation_peek (countOperand n)) h
  | consume n => exact decCommand_keepsOrder (orderedOperation_consume (countOperand n)) h
  | goertz freq => exact decCommand_keepsOrder (orderedOperation_goertz s.cfg (freqOperand freq)) h
  | visdet => exact decCommand_keepsOrder (orderedOperation_visdet s.cfg) h
  | syncdet => exact decCommand_keepsOrder (orderedOperation_tone s.cfg _ _ _) h
  | porchdet => exact decCommand_keepsOrder (orderedOperation_tone s.cfg _ _ _) h
  | chdec k =>
    change execChdec k s = .next t at h
    unfold execChdec at h
    cases hk : channelOperand k with
    | none =>
      rw [hk] at h
      cases h
      exact .refl _ _
    | some ch =>
      rw [hk] at h
      exact decCommand_keepsOrder (orderedOperation_chdec s.cfg ch) h
  | rowout => exact decCommand_keepsOrder (orderedOperation_rowout s.cfg) h
  | step => exact decCommand_keepsOrder (orderedOperation_step s.cfg) h
  | pass => exact decCommand_keepsOrder (orderedOperation_pass s.cfg) h
  | stop => exact decCommand_keepsOrder orderedOperation_stop h
  | dreset => exact absurd rfl hreset
  | _ => cases hu

/-- `APPEND` keeps the order of what was buffered, or of that with the chunk behind it (R220). -/
theorem exec_append_keepsOrder {n : BitVec 32} {s t : State} (h : exec (.append n) s = .next t) :
    KeepsOrder s.dec s.host.raster t.dec t.host.raster
      ∨ KeepsOrder (s.dec.appendSb (portSamples s.host n.toNat)) s.host.raster t.dec t.host.raster := by
  rcases exec_append_cases n s with ⟨-, heq⟩ | heq | heq | heq <;> cases heq.symm.trans h
  · exact .inl (.refl _ _)
  · exact .inl (.refl _ _)
  · exact .inr (orderedOperation_pass s.cfg _ _)

/-- Every command but `DRESET` keeps the order of `SB`, or of `SB` with the chunk of `APPEND` behind it, and of the
raster's calls. -/
theorem exec_keepsOrder {i : Instr} {s t : State} (h : exec i s = .next t) (hreset : i ≠ .dreset) :
    KeepsOrder s.dec s.host.raster t.dec t.host.raster
      ∨ ∃ n, i = .append n
        ∧ KeepsOrder (s.dec.appendSb (portSamples s.host n.toNat)) s.host.raster t.dec t.host.raster := by
  cases hu : unitOf i with
  | enc =>
    obtain ⟨-, hdec, -, -, hraster, -⟩ := unitsDoNotInterfere.1 i s t h hu
    rw [hdec, hraster]
    exact .inl (.refl _ _)
  | dec =>
    by_cases happend : ∃ n, i = .append n
    · obtain ⟨n, rfl⟩ := happend
      exact (exec_append_keepsOrder h).imp_right fun horder => ⟨n, rfl, horder⟩
    · exact .inl (exec_dec_keepsOrder h hu hreset (not_exists.1 happend))

/-! The operations that make no raster call. -/

theorem toneAction_raster (c : Config) (f n : Nat) (next : DecState) (d : Dec) (r : List RasterCall) :
    (toneAction c f n next d r).raster = r := by
  rcases toneAction_cases c f n next d r with ⟨-, heq⟩ | ⟨-, -, heq⟩ | ⟨-, -, heq⟩ <;> rw [heq] <;> rfl

theorem chdecAction_raster (c : Config) {k : Fin 3} (hk : k ≠ 2) (d : Dec) (r : List RasterCall) :
    (chdecAction c k d r).raster = r := by
  rcases lt_or_ge d.sb.length (sampleCount c c.scanUs) with hshort | hfull
  · rw [chdecAction_underrun c k d r hshort, decRaise_raster]
  match k with
  | 0 => rw [chdecAction_green c d r hfull]
  | 1 => rw [chdecAction_blue c d r hfull]
  | 2 => exact absurd rfl hk

theorem peekAction_raster (n : Nat) (d : Dec) (r : List RasterCall) : (peekAction n d r).raster = r := by
  unfold peekAction
  split <;> rfl

theorem consumeAction_raster (n : Nat) (d : Dec) (r : List RasterCall) : (consumeAction n d r).raster = r := by
  unfold consumeAction
  split <;> rfl

/-- A command of `DEC` whose operation makes no raster call makes none, refused or not. -/
theorem decCommand_raster {s t : State} {op : Dec → List RasterCall → DecOut} (hop : ∀ d r, (op d r).raster = r)
    (h : decCommand s op = .next t) : t.host.raster = s.host.raster := by
  rcases decCommand_cases s op with ⟨-, heq⟩ | ⟨-, heq⟩ <;> cases heq.symm.trans h
  · rfl
  · exact hop _ _

/-- Settles O44: the order is kept by every command; the commands that draw nothing, one by one. -/
theorem samplesAndCallsKeepTheirOrder : Obligations.SamplesAndCallsKeepTheirOrder := by
  unfold Obligations.SamplesAndCallsKeepTheirOrder
  intro i s t h hreset
  have horder := exec_keepsOrder h hreset
  refine ⟨horder.imp (·.sb_suffix) fun ⟨n, hi, hn⟩ => ⟨n, hi, hn.sb_suffix⟩,
    horder.elim (·.raster_prefix) fun ⟨_, _, hn⟩ => hn.raster_prefix, ?_⟩
  rintro (hu | hi | ⟨n, rfl | rfl⟩ | ⟨freq, rfl⟩)
  · obtain ⟨-, -, -, -, hraster, -⟩ := unitsDoNotInterfere.1 i s t h hu
    exact hraster
  · simp only [List.mem_cons, List.not_mem_nil, or_false] at hi
    rcases hi with rfl | rfl | rfl | rfl | rfl
    · exact decCommand_raster (toneAction_raster s.cfg _ _ _) h
    · exact decCommand_raster (toneAction_raster s.cfg _ _ _) h
    · exact decCommand_raster (chdecAction_raster s.cfg (k := 0) (by decide)) h
    · exact decCommand_raster (chdecAction_raster s.cfg (k := 1) (by decide)) h
    · exact decCommand_raster (op := fun d r => ⟨d.setStopped, r, .ok⟩) (fun _ _ => rfl) h
  · exact decCommand_raster (peekAction_raster (countOperand n)) h
  · exact decCommand_raster (consumeAction_raster (countOperand n)) h
  · exact decCommand_raster (op := fun d r =>
      ⟨{ d with
          gp := power s.cfg.sampleRate (freqOperand freq) d.win
          gm := magnitude s.cfg.sampleRate (freqOperand freq) d.win }, r, .ok⟩) (fun _ _ => rfl) h

end Sys2Proof.Machine

/-! ### The host's inputs (O6) -/

namespace Sys2Proof.Machine

/-- With nothing to execute a step's outcome is what taking the input settled. -/
theorem step_of_settled {s : State} {o : Host.Outcome State Fault Refusal} (hcfg : ConfigValid s.cfg)
    (h : fetch s = .settled o) : step s = o := by
  rw [step_of_valid s hcfg, h]

/-- A `CFG` that is not valid is refused (R324, U12). -/
theorem step_of_invalid {s : State} (h : ¬ ConfigValid s.cfg) : step s = .refused .invalidConfig := if_neg h

section
variable {s : State} {rest : List HostInput}

theorem fetch_of_nil (h : s.host.inbox = []) : fetch s = .settled (.next s) := by
  unfold fetch
  rw [h]

theorem fetch_of_deviceError {u : UnitId} (h : s.host.inbox = .deviceError u :: rest) :
    fetch s = .settled (.next ((s.withInbox rest).deviceError u)) := by
  unfold fetch
  rw [h]

theorem fetch_of_bindImage {img : Option Image} (h : s.host.inbox = .bindImage img :: rest) :
    fetch s = .settled (.next ((s.withInbox rest).bindImage img)) := by
  unfold fetch
  rw [h]

/-- A device read of a whole number of samples delivers them (R302). -/
theorem fetch_of_deviceRead {bytes : List Byte} {vs : List Sample} (h : s.host.inbox = .deviceRead bytes :: rest)
    (hvs : samplesOfBytes bytes = some vs) : fetch s = .settled (.next ((s.withInbox rest).deliver vs)) := by
  unfold fetch
  rw [h]
  simp only [hvs]

/-- A device read that ends inside a sample is refused (R71, U9). -/
theorem fetch_of_deviceRead_none {bytes : List Byte} (h : s.host.inbox = .deviceRead bytes :: rest)
    (hvs : samplesOfBytes bytes = none) : fetch s = .settled (.refused .oddByteCount) := by
  unfold fetch
  rw [h]
  simp only [hvs]

end

/-- Settles O6: input by input, what taking it settles. -/
theorem stepTakesHostEvents : Obligations.StepTakesHostEvents := by
  unfold Obligations.StepTakesHostEvents
  intro s rest hcfg
  refine ⟨fun h => ?_, fun h => ?_, fun h => ?_, fun img h => ?_, fun vs h => ?_, fun bytes h hodd => ?_,
    fun c hc => step_of_invalid hc⟩
  · exact step_of_settled hcfg (fetch_of_nil h)
  · exact step_of_settled hcfg (fetch_of_deviceError h)
  · exact step_of_settled hcfg (fetch_of_deviceError h)
  · exact step_of_settled hcfg (fetch_of_bindImage h)
  · exact step_of_settled hcfg (fetch_of_deviceRead h (samplesOfBytes_wireBytes vs))
  · exact step_of_settled hcfg (fetch_of_deviceRead_none h (samplesOfBytes_of_odd bytes hodd))

end Sys2Proof.Machine

/-! ### `APPEND` (O41) -/

namespace Sys2Proof.Machine

theorem exceedsBound_eq_false {c : Config} {d : Dec} {n : Nat}
    (h : ∀ bound, c.sbMax = some bound → d.sb.length + n ≤ bound) : exceedsBound c d n = false := by
  unfold exceedsBound
  cases hmax : c.sbMax with
  | none => rfl
  | some bound => simpa using h bound hmax

/-- `APPEND` with nothing to stop it passes over the buffer and the chunk (R220). -/
theorem exec_append_of_clear {s : State} {n : BitVec 32} (hfault : s.dec.fault = none) (hstopped : s.dec.stopped = false)
    (hbound : ∀ bound, s.cfg.sbMax = some bound → s.dec.sb.length + n.toNat ≤ bound) :
    exec (.append n) s = .next (({ s with host := s.host.advancePort n.toNat } : State).withDec
      (passAction s.cfg (s.dec.appendSb (portSamples s.host n.toNat)) s.host.raster)) := by
  change execAppend n s = _
  unfold execAppend
  dsimp only [countOperand]
  rw [if_neg (by simp [decBlocked_eq_false hfault]), if_neg (by simp [hstopped]),
    if_neg (by simp [exceedsBound_eq_false hbound])]

/-- A pass that waits for its VIS header has nothing to do (R246, R262). -/
theorem passAction_of_awaitingVIS_short {c : Config} {d : Dec} (r : List RasterCall) (hstopped : d.stopped = false)
    (hstate : d.state = .awaitingVIS) (hshort : d.sb.length < c.visSlotsRequired * sampleCount c c.bitUs) :
    passAction c d r = ⟨d, r, .ok⟩ := by
  have hstep : stepAction c d r = decRaise d r .bufferUnderrun := by
    rw [stepAction_awaitingVIS r hstate]
    exact if_pos hshort
  unfold passAction passBound passLoop
  rw [if_neg (by simp [hstopped]), hstep]
  rfl

/-- Settles O41: both commands pass over the same buffer. -/
theorem appendRunsAPass : Obligations.AppendRunsAPass := by
  unfold Obligations.AppendRunsAPass
  intro s n hfault hstopped hbound s'
  have happend := exec_append_of_clear hfault hstopped hbound
  refine ⟨⟨_, happend, ?_⟩, portSamples_length _ _, portSamples_of_le _ _, fun hstate hshort => ?_⟩
  · exact decCommand_of_not_blocked s' (passAction s.cfg) (decBlocked_eq_false hfault)
  · have hpass := passAction_of_awaitingVIS_short (c := s.cfg) (d := s.dec.appendSb (portSamples s.host n.toNat))
      s.host.raster hstopped hstate (by simpa using hshort)
    rw [happend, hpass]
    rfl

end Sys2Proof.Machine

/-! ### The command word: decoder and encoder (O1, O2, O3) -/

namespace Sys2Proof

/-- The bits from `k` on are zero exactly when the value is below `2 ^ k`. -/
theorem extractLsb'_high_eq_zero_iff {n : Nat} (k m : Nat) (hkm : n = k + m) (x : BitVec n) :
    x.extractLsb' k m = 0 ↔ x.toNat < 2 ^ k := by
  have hx : x.toNat / 2 ^ k < 2 ^ m := by
    rw [Nat.div_lt_iff_lt_mul (by positivity), ← Nat.pow_add, Nat.add_comm m k, ← hkm]
    exact x.isLt
  rw [← BitVec.toNat_inj, BitVec.extractLsb'_toNat, Nat.shiftRight_eq_div_pow, Nat.mod_eq_of_lt hx]
  simp

/-- A field whose bits from `k` on are zero is its low `k` bits, extended. -/
theorem setWidth_extractLsb'_eq_iff {n : Nat} (k : Nat) (x : BitVec n) :
    x = (x.extractLsb' 0 k).setWidth n ↔ x.toNat < 2 ^ k := by
  rw [← BitVec.toNat_inj, BitVec.toNat_setWidth, BitVec.extractLsb'_toNat, Nat.shiftRight_zero,
    Nat.mod_eq_of_lt ((Nat.mod_le _ _).trans_lt x.isLt), eq_comm, Nat.mod_eq_iff_lt (by positivity)]

/-- A zero-extended field as the decoder reads it: its low bits, and nothing above them (R92). -/
theorem eq_setWidth_iff {n : Nat} (k m : Nat) (hkm : n = k + m) (x : BitVec n) (y : BitVec k) :
    x = y.setWidth n ↔ x.extractLsb' k m = 0 ∧ x.extractLsb' 0 k = y := by
  rw [extractLsb'_high_eq_zero_iff k m hkm, ← setWidth_extractLsb'_eq_iff]
  refine ⟨fun h => ?_, fun ⟨hx, hy⟩ => hy ▸ hx⟩
  have hlow : x.extractLsb' 0 k = y := by
    subst hkm
    rw [h, ← BitVec.toNat_inj, BitVec.extractLsb'_toNat, BitVec.toNat_setWidth, Nat.shiftRight_zero,
      Nat.mod_mod_of_dvd _ (Nat.pow_dvd_pow 2 (Nat.le_add_right k m)), Nat.mod_eq_of_lt y.isLt]
  exact ⟨hlow ▸ h, hlow⟩

/-- The taper flag as `MOD` holds it (R92). -/
theorem eq_taper_iff (x : BitVec 8) (taper : Bool) :
    x = (if taper then 1 else 0) ↔ x.extractLsb' 1 7 = 0 ∧ x.getLsbD 0 = taper := by
  revert x taper
  decide +kernel

/-- A word is the concatenation of its four fields (R90). -/
theorem packWord_fields (w : CmdWord) : packWord (opcField w) (modField w) (aField w) (dField w) = w := by
  apply BitVec.eq_of_getLsbD_eq
  intro i hi
  simp only [packWord, opcField, modField, aField, dField, BitVec.getLsbD_append, BitVec.getLsbD_extractLsb']
  split_ifs with hd ha hm
  · simp [hd]
  · rw [decide_eq_true ha, Bool.true_and]
    congr 1
    omega
  · rw [decide_eq_true hm, Bool.true_and]
    congr 1
    omega
  · rw [decide_eq_true (by omega), Bool.true_and]
    congr 1
    omega

/-! What each format accepts, and the command it gives (R92, R101). -/

section
variable {w : CmdWord} {i : Instr}

theorem formatZ_eq_ok_iff {j : Instr} :
    formatZ w j = .ok i ↔ modField w = 0 ∧ aField w = 0 ∧ dField w = 0 ∧ j = i := by
  unfold formatZ
  split <;> simp_all

theorem formatF_eq_ok_iff {mk : BitVec 16 → Instr} :
    formatF w mk = .ok i ↔ modField w = 0 ∧ dField w = 0 ∧ mk (aField w) = i := by
  unfold formatF
  split <;> simp_all

theorem formatT_eq_ok_iff {mk : BitVec 16 → BitVec 32 → Bool → Instr} :
    formatT w mk = .ok i ↔
      (modField w).extractLsb' 1 7 = 0 ∧ mk (aField w) (dField w) ((modField w).getLsbD 0) = i := by
  unfold formatT
  split <;> simp_all

theorem formatD_eq_ok_iff {mk : BitVec 32 → Instr} :
    formatD w mk = .ok i ↔ modField w = 0 ∧ aField w = 0 ∧ mk (dField w) = i := by
  unfold formatD
  split <;> simp_all

theorem formatB_eq_ok_iff {mk : BitVec 4 → BitVec 8 → BitVec 32 → Instr} :
    formatB w mk = .ok i ↔
      (modField w).extractLsb' 4 4 = 0 ∧ (aField w).extractLsb' 8 8 = 0
        ∧ BitsOperandsOk ((modField w).extractLsb' 0 4) ((aField w).extractLsb' 0 8)
        ∧ mk ((modField w).extractLsb' 0 4) ((aField w).extractLsb' 0 8) (dField w) = i := by
  unfold formatB BitsOperandsOk
  dsimp only
  split_ifs with hzero hn hpat
  · rw [Except.ok.injEq]
    exact ⟨fun h => ⟨hzero.1, hzero.2, ⟨hn, hpat⟩, h⟩, fun ⟨_, _, _, h⟩ => h⟩
  · exact iff_of_false nofun fun ⟨_, _, hok, _⟩ => hpat hok.2
  · exact iff_of_false nofun fun ⟨_, _, hok, _⟩ => hn hok.1
  · exact iff_of_false nofun fun ⟨hm, ha, _⟩ => hzero ⟨hm, ha⟩

theorem formatCRow_eq_ok_iff {mk : BitVec 2 → BitVec 16 → Instr} :
    formatCRow w mk = .ok i ↔
      (modField w).extractLsb' 2 6 = 0 ∧ dField w = 0 ∧ ChannelOperandOk ((modField w).extractLsb' 0 2)
        ∧ mk ((modField w).extractLsb' 0 2) (aField w) = i := by
  unfold formatCRow ChannelOperandOk
  dsimp only
  split_ifs with hzero hc
  · rw [Except.ok.injEq]
    exact ⟨fun h => ⟨hzero.1, hzero.2, hc, h⟩, fun ⟨_, _, _, h⟩ => h⟩
  · exact iff_of_false nofun fun ⟨_, _, hok, _⟩ => hc hok
  · exact iff_of_false nofun fun ⟨hm, hd, _⟩ => hzero ⟨hm, hd⟩

theorem formatC_eq_ok_iff {mk : BitVec 2 → Instr} :
    formatC w mk = .ok i ↔
      (modField w).extractLsb' 2 6 = 0 ∧ aField w = 0 ∧ dField w = 0
        ∧ ChannelOperandOk ((modField w).extractLsb' 0 2) ∧ mk ((modField w).extractLsb' 0 2) = i := by
  unfold formatC ChannelOperandOk
  dsimp only
  split_ifs with hzero hc
  · rw [Except.ok.injEq]
    exact ⟨fun h => ⟨hzero.1, hzero.2.1, hzero.2.2, hc, h⟩, fun ⟨_, _, _, _, h⟩ => h⟩
  · exact iff_of_false nofun fun ⟨_, _, _, hok, _⟩ => hc hok
  · exact iff_of_false nofun fun ⟨hm, ha, hd, _⟩ => hzero ⟨hm, ha, hd⟩

theorem formatV_eq_ok_iff {mk : BitVec 8 → Instr} :
    formatV w mk = .ok i ↔
      modField w = 0 ∧ (aField w).extractLsb' 8 8 = 0 ∧ dField w = 0 ∧ mk ((aField w).extractLsb' 0 8) = i := by
  unfold formatV
  split <;> simp_all

end

/-- A word whose four fields are those of the command's format (R90, R92). -/
structure HasFields (w : CmdWord) (i : Instr) : Prop where
  opc_eq : opcField w = opcodeOf i
  mod_eq : modField w = modOf i
  a_eq : aField w = aOf i
  d_eq : dField w = dOf i

/-- The encoding is the one word with the command's fields. -/
theorem hasFields_iff {w : CmdWord} {i : Instr} : HasFields w i ↔ encode i = w := by
  constructor
  · rintro ⟨hopc, hmod, ha, hd⟩
    rw [encode, ← hopc, ← hmod, ← ha, ← hd, packWord_fields]
  · rintro rfl
    obtain ⟨hopc, hmod, ha, hd⟩ := encodedFields_holds i
    exact ⟨hopc, hmod, ha, hd⟩

/-- A word that decodes has the fields of the command it decodes to, which is well formed (R101). -/
theorem fields_of_decode {w : CmdWord} {i : Instr} (h : decode w = .ok i) : i.WellFormed ∧ HasFields w i := by
  unfold decode at h
  split at h
  case h_1 hopc | h_12 hopc =>
    obtain ⟨hmod, hd, rfl⟩ := formatF_eq_ok_iff.1 h
    exact ⟨trivial, BitVec.eq_of_toNat_eq hopc, hmod, rfl, hd⟩
  case h_2 hopc =>
    obtain ⟨hmod, rfl⟩ := formatT_eq_ok_iff.1 h
    exact ⟨trivial, BitVec.eq_of_toNat_eq hopc, (eq_taper_iff _ _).2 ⟨hmod, rfl⟩, rfl, rfl⟩
  case h_3 hopc | h_5 hopc | h_9 hopc | h_10 hopc | h_11 hopc =>
    obtain ⟨hmod, ha, rfl⟩ := formatD_eq_ok_iff.1 h
    exact ⟨trivial, BitVec.eq_of_toNat_eq hopc, hmod, ha, rfl⟩
  case h_4 hopc =>
    obtain ⟨hmod, ha, hok, rfl⟩ := formatB_eq_ok_iff.1 h
    exact ⟨hok, BitVec.eq_of_toNat_eq hopc, (eq_setWidth_iff 4 4 rfl _ _).2 ⟨hmod, rfl⟩,
      (eq_setWidth_iff 8 8 rfl _ _).2 ⟨ha, rfl⟩, rfl⟩
  case h_6 hopc =>
    obtain ⟨hmod, hd, hok, rfl⟩ := formatCRow_eq_ok_iff.1 h
    exact ⟨hok, BitVec.eq_of_toNat_eq hopc, (eq_setWidth_iff 2 6 rfl _ _).2 ⟨hmod, rfl⟩, rfl, hd⟩
  case h_8 hopc =>
    obtain ⟨hmod, ha, hd, rfl⟩ := formatV_eq_ok_iff.1 h
    exact ⟨trivial, BitVec.eq_of_toNat_eq hopc, hmod, (eq_setWidth_iff 8 8 rfl _ _).2 ⟨ha, rfl⟩, hd⟩
  case h_16 hopc =>
    obtain ⟨hmod, ha, hd, hok, rfl⟩ := formatC_eq_ok_iff.1 h
    exact ⟨hok, BitVec.eq_of_toNat_eq hopc, (eq_setWidth_iff 2 6 rfl _ _).2 ⟨hmod, rfl⟩, ha, hd⟩
  case h_22 => cases h
  all_goals
    next hopc =>
      obtain ⟨hmod, ha, hd, rfl⟩ := formatZ_eq_ok_iff.1 h
      exact ⟨trivial, BitVec.eq_of_toNat_eq hopc, hmod, ha, hd⟩

/-- A word with the fields of a well-formed command decodes to it (R101). -/
theorem decode_of_fields {w : CmdWord} {i : Instr} (hwf : i.WellFormed) (h : HasFields w i) : decode w = .ok i := by
  obtain ⟨hopc, hmod, ha, hd⟩ := h
  unfold decode
  rw [hopc]
  cases i with
  | padv freq | goertz freq => exact formatF_eq_ok_iff.2 ⟨hmod, hd, congrArg _ ha⟩
  | tone freq dur taper =>
    obtain ⟨hzero, htaper⟩ := (eq_taper_iff _ _).1 hmod
    exact formatT_eq_ok_iff.2 ⟨hzero, by rw [ha, hd, htaper]; rfl⟩
  | sweep x | sil x | append x | peek x | consume x => exact formatD_eq_ok_iff.2 ⟨hmod, ha, congrArg _ hd⟩
  | bits n pat dur =>
    obtain ⟨hzero, rfl⟩ := (eq_setWidth_iff 4 4 rfl _ _).1 hmod
    obtain ⟨hzero', rfl⟩ := (eq_setWidth_iff 8 8 rfl _ _).1 ha
    exact formatB_eq_ok_iff.2 ⟨hzero, hzero', hwf, congrArg _ hd⟩
  | ldch c y =>
    obtain ⟨hzero, rfl⟩ := (eq_setWidth_iff 2 6 rfl _ _).1 hmod
    exact formatCRow_eq_ok_iff.2 ⟨hzero, hd, hwf, congrArg _ ha⟩
  | encode vis =>
    obtain ⟨hzero, rfl⟩ := (eq_setWidth_iff 8 8 rfl _ _).1 ha
    exact formatV_eq_ok_iff.2 ⟨hmod, hzero, hd, rfl⟩
  | chdec k =>
    obtain ⟨hzero, rfl⟩ := (eq_setWidth_iff 2 6 rfl _ _).1 hmod
    exact formatC_eq_ok_iff.2 ⟨hzero, ha, hd, hwf, rfl⟩
  | ereset | visdet | syncdet | porchdet | rowout | step | pass | stop | dreset =>
    exact formatZ_eq_ok_iff.2 ⟨hmod, ha, hd, rfl⟩

/-- The decoder inverts the encoder, and nothing else decodes (R101). -/
theorem decode_eq_ok_iff {w : CmdWord} {i : Instr} : decode w = .ok i ↔ i.WellFormed ∧ encode i = w := by
  rw [← hasFields_iff]
  exact ⟨fields_of_decode, fun ⟨hwf, h⟩ => decode_of_fields hwf h⟩

/-- Settles O1: the encoded word has the command's fields, which decode to it. -/
theorem decodeEncodeAgree : Obligations.DecodeEncodeAgree := by
  unfold Obligations.DecodeEncodeAgree
  exact fun i hwf => decode_eq_ok_iff.2 ⟨hwf, rfl⟩

/-- Settles O2: a word that decodes has the command's fields, and a word is its fields. -/
theorem decodedWordIsItsEncoding : Obligations.DecodedWordIsItsEncoding := by
  unfold Obligations.DecodedWordIsItsEncoding
  exact fun w i h => decode_eq_ok_iff.1 h

/-- A command encoded to a word is what the word decodes to. -/
theorem encode_and_decode {i : Instr} {w : CmdWord} (hwf : i.WellFormed) (hw : encode i = w) :
    encode i = w ∧ decode w = .ok i := ⟨hw, decode_eq_ok_iff.2 ⟨hwf, hw⟩⟩

/-- Settles O3: each command's encoding evaluates to the printed word, which then decodes by O1. -/
theorem workedEncodings : Obligations.WorkedEncodings := by
  unfold Obligations.WorkedEncodings
  exact ⟨encode_and_decode trivial rfl, encode_and_decode trivial rfl, encode_and_decode trivial rfl,
    encode_and_decode trivial rfl, encode_and_decode (by decide) rfl, encode_and_decode (by decide) rfl,
    encode_and_decode trivial rfl, encode_and_decode trivial rfl, encode_and_decode (by decide) rfl,
    encode_and_decode trivial rfl⟩

end Sys2Proof

/-! ### The reserved words (O4) -/

namespace Sys2Proof.Machine

/-- A word that sets no bit outside the low `k` bits is below `2 ^ k`. -/
theorem and_not_low_eq_zero_iff {n : Nat} (k : Nat) (x : BitVec n) :
    x &&& ~~~BitVec.ofNat n (2 ^ k - 1) = 0 ↔ x.toNat < 2 ^ k := by
  have hbit (i : Nat) (hi : i < n) :
      (x &&& ~~~BitVec.ofNat n (2 ^ k - 1)).getLsbD i = (x.toNat.testBit i && !decide (i < k)) := by
    rw [BitVec.getLsbD_and, BitVec.getLsbD_not, BitVec.getLsbD_ofNat, Nat.testBit_two_pow_sub_one, decide_eq_true hi,
      Bool.true_and, Bool.true_and, BitVec.testBit_toNat]
  constructor
  · intro h
    refine Nat.lt_pow_two_of_testBit _ fun i hik => ?_
    by_cases hi : i < n
    · simpa [h, not_lt.2 hik] using (hbit i hi).symm
    · simp [BitVec.testBit_toNat, BitVec.getLsbD_of_ge x i (by omega)]
  · intro h
    refine BitVec.eq_of_getLsbD_eq fun i hi => ?_
    rw [hbit i hi, BitVec.ofNat_eq_ofNat, BitVec.getLsbD_zero]
    by_cases hki : i < k
    · simp [hki]
    · rw [Nat.testBit_lt_two_pow (h.trans_le (Nat.pow_le_pow_right two_pos (not_lt.1 hki))), Bool.false_and]

/-- The mask of a format whose operands are the low `km`, `ka` and `kd` bits of `MOD`, `A` and `D` (R92). -/
def operandMask (km ka kd : Nat) : CmdWord :=
  packWord 0xFF (BitVec.ofNat 8 (2 ^ km - 1)) (BitVec.ofNat 16 (2 ^ ka - 1)) (BitVec.ofNat 32 (2 ^ kd - 1))

/-- Each field of the word is an operand of `km`, `ka` and `kd` bits, zero-extended (R92). -/
def OperandsWithin (w : CmdWord) (km ka kd : Nat) : Prop :=
  (modField w).toNat < 2 ^ km ∧ (aField w).toNat < 2 ^ ka ∧ (dField w).toNat < 2 ^ kd

theorem append_eq_zero_iff {n m : Nat} (x : BitVec n) (y : BitVec m) : x ++ y = 0 ↔ x = 0 ∧ y = 0 := by
  rw [← BitVec.toNat_inj, ← BitVec.toNat_inj, ← BitVec.toNat_inj, BitVec.toNat_append]
  simp [Nat.or_eq_zero_iff, Nat.shiftLeft_eq]

/-- A word sets no bit that its format names zero exactly when each field fits its operand (R92). -/
theorem and_not_operandMask_eq_zero_iff (w : CmdWord) (km ka kd : Nat) :
    w &&& ~~~operandMask km ka kd = 0 ↔ OperandsWithin w km ka kd := by
  have hopc : opcField w &&& ~~~0xFF = 0 := BitVec.and_zero
  conv_lhs => rw [← packWord_fields w]
  rw [operandMask, packWord, packWord, BitVec.not_append, BitVec.not_append, BitVec.not_append, BitVec.and_append,
    BitVec.and_append, BitVec.and_append, append_eq_zero_iff, append_eq_zero_iff, append_eq_zero_iff,
    and_not_low_eq_zero_iff, and_not_low_eq_zero_iff, and_not_low_eq_zero_iff]
  simp only [OperandsWithin, hopc, true_and, and_assoc]

/-- The fields that R104 reads are those that the decoder reads. -/
theorem opcField_toNat (w : CmdWord) : (opcField w).toNat = w.toNat / 2 ^ 56 := by
  have := w.isLt
  simp only [opcField, BitVec.extractLsb'_toNat, Nat.shiftRight_eq_div_pow]
  omega

theorem modField_low_toNat (w : CmdWord) (k : Nat) (hk : k ≤ 8) :
    ((modField w).extractLsb' 0 k).toNat = w.toNat / 2 ^ 48 % 2 ^ k := by
  simp only [modField, BitVec.extractLsb'_toNat, Nat.shiftRight_eq_div_pow, pow_zero, Nat.div_one]
  exact Nat.mod_mod_of_dvd _ (Nat.pow_dvd_pow 2 hk)

theorem aField_low_toNat (w : CmdWord) (k : Nat) (hk : k ≤ 16) :
    ((aField w).extractLsb' 0 k).toNat = w.toNat / 2 ^ 32 % 2 ^ k := by
  simp only [aField, BitVec.extractLsb'_toNat, Nat.shiftRight_eq_div_pow, pow_zero, Nat.div_one]
  exact Nat.mod_mod_of_dvd _ (Nat.pow_dvd_pow 2 hk)

/-- A word of a listed operation code is not reserved when each field fits its operand and the operands pass the checks
of `BITS`, `LDCH` and `CHDEC` (R101, R104). -/
theorem not_reserved_iff {w : CmdWord} {opc : Nat} (km ka kd : Nat) (hopc : (opcField w).toNat = opc)
    (hmask : formatMask opc = some (operandMask km ka kd)) :
    ¬ Reserved w ↔ OperandsWithin w km ka kd
      ∧ (opc = 0x13 → BitsOperandsOk ((modField w).extractLsb' 0 4) ((aField w).extractLsb' 0 8))
      ∧ (opc = 0x15 ∨ opc = 0x27 → ChannelOperandOk ((modField w).extractLsb' 0 2)) := by
  have hn := modField_low_toNat w 4 (by omega)
  have hc := modField_low_toNat w 2 (by omega)
  have hpat := aField_low_toNat w 8 (by omega)
  unfold Reserved BitsOperandsOk ChannelOperandOk
  dsimp only
  rw [← and_not_operandMask_eq_zero_iff, hn, hc, hpat, ← opcField_toNat, hopc, hmask]
  have hfour : w.toNat / 2 ^ 48 % 16 % 4 = 3 ↔ ¬ w.toNat / 2 ^ 48 % 2 ^ 2 ≤ 2 := by omega
  simp only [hfour, ne_eq]
  rw [← not_lt, ← not_le]
  tauto

/-- A field is zero when it fits an operand of no bits. -/
theorem eq_zero_iff_toNat_lt {n : Nat} (x : BitVec n) : x = 0 ↔ x.toNat < 2 ^ 0 := by
  rw [← BitVec.toNat_inj]
  simp

/-- An operation code that the decoder does not list has no format (R100, R104). -/
theorem formatMask_eq_none {opc : Nat} (h : opc ∉ [0x10, 0x11, 0x12, 0x13, 0x14, 0x15, 0x1E, 0x1F, 0x20, 0x21, 0x22, 0x23,
    0x24, 0x25, 0x26, 0x27, 0x28, 0x29, 0x2A, 0x2B, 0x2E]) : formatMask opc = none := by
  simp only [List.mem_cons, List.not_mem_nil, or_false, not_or] at h
  simp [formatMask, h]

theorem reserved_of_unlisted {w : CmdWord} (h : formatMask (opcField w).toNat = none) : Reserved w := by
  unfold Reserved
  dsimp only
  rw [← opcField_toNat, h]
  trivial

/-! The words that each format accepts, in the terms of R104. -/

section
variable {w : CmdWord}

theorem exists_formatZ_iff {j : Instr} : (∃ i, formatZ w j = .ok i) ↔ OperandsWithin w 0 0 0 := by
  simp only [formatZ_eq_ok_iff, exists_and_left, exists_eq', and_true, eq_zero_iff_toNat_lt, OperandsWithin]

theorem exists_formatF_iff {mk : BitVec 16 → Instr} : (∃ i, formatF w mk = .ok i) ↔ OperandsWithin w 0 16 0 := by
  simp only [formatF_eq_ok_iff, exists_and_left, exists_eq', and_true, eq_zero_iff_toNat_lt, OperandsWithin,
    (aField w).isLt, true_and]

theorem exists_formatT_iff {mk : BitVec 16 → BitVec 32 → Bool → Instr} :
    (∃ i, formatT w mk = .ok i) ↔ OperandsWithin w 1 16 32 := by
  simp only [formatT_eq_ok_iff, exists_and_left, exists_eq', and_true, extractLsb'_high_eq_zero_iff 1 7 rfl,
    OperandsWithin, (aField w).isLt, (dField w).isLt]

theorem exists_formatD_iff {mk : BitVec 32 → Instr} : (∃ i, formatD w mk = .ok i) ↔ OperandsWithin w 0 0 32 := by
  simp only [formatD_eq_ok_iff, exists_and_left, exists_eq', and_true, eq_zero_iff_toNat_lt, OperandsWithin,
    (dField w).isLt]

theorem exists_formatB_iff {mk : BitVec 4 → BitVec 8 → BitVec 32 → Instr} :
    (∃ i, formatB w mk = .ok i) ↔ OperandsWithin w 4 8 32
      ∧ BitsOperandsOk ((modField w).extractLsb' 0 4) ((aField w).extractLsb' 0 8) := by
  simp only [formatB_eq_ok_iff, exists_and_left, exists_eq', and_true, extractLsb'_high_eq_zero_iff 4 4 rfl,
    extractLsb'_high_eq_zero_iff 8 8 rfl, OperandsWithin, (dField w).isLt, and_assoc]

theorem exists_formatCRow_iff {mk : BitVec 2 → BitVec 16 → Instr} :
    (∃ i, formatCRow w mk = .ok i) ↔ OperandsWithin w 2 16 0 ∧ ChannelOperandOk ((modField w).extractLsb' 0 2) := by
  simp only [formatCRow_eq_ok_iff, exists_and_left, exists_eq', and_true, extractLsb'_high_eq_zero_iff 2 6 rfl,
    eq_zero_iff_toNat_lt (dField w), OperandsWithin, (aField w).isLt, true_and, and_assoc]

theorem exists_formatC_iff {mk : BitVec 2 → Instr} :
    (∃ i, formatC w mk = .ok i) ↔ OperandsWithin w 2 0 0 ∧ ChannelOperandOk ((modField w).extractLsb' 0 2) := by
  simp only [formatC_eq_ok_iff, exists_and_left, exists_eq', and_true, extractLsb'_high_eq_zero_iff 2 6 rfl,
    eq_zero_iff_toNat_lt (aField w), eq_zero_iff_toNat_lt (dField w), OperandsWithin, and_assoc]

theorem exists_formatV_iff {mk : BitVec 8 → Instr} : (∃ i, formatV w mk = .ok i) ↔ OperandsWithin w 0 8 0 := by
  simp only [formatV_eq_ok_iff, exists_and_left, exists_eq', and_true, extractLsb'_high_eq_zero_iff 8 8 rfl,
    eq_zero_iff_toNat_lt (modField w), eq_zero_iff_toNat_lt (dField w), OperandsWithin]

end

/-- The decoder accepts exactly the words that are not reserved (R104). -/
theorem decode_ok_iff_not_reserved (w : CmdWord) : (∃ i, decode w = .ok i) ↔ ¬ Reserved w := by
  unfold decode
  split
  case h_1 hopc | h_12 hopc => simp [exists_formatF_iff, not_reserved_iff 0 16 0 hopc rfl]
  case h_2 hopc => simp [exists_formatT_iff, not_reserved_iff 1 16 32 hopc rfl]
  case h_3 hopc | h_5 hopc | h_9 hopc | h_10 hopc | h_11 hopc =>
    simp [exists_formatD_iff, not_reserved_iff 0 0 32 hopc rfl]
  case h_4 hopc => simp [exists_formatB_iff, not_reserved_iff 4 8 32 hopc rfl]
  case h_6 hopc => simp [exists_formatCRow_iff, not_reserved_iff 2 16 0 hopc rfl]
  case h_8 hopc => simp [exists_formatV_iff, not_reserved_iff 0 8 0 hopc rfl]
  case h_16 hopc => simp [exists_formatC_iff, not_reserved_iff 2 0 0 hopc rfl]
  case h_22 =>
    have hunlisted : formatMask (opcField w).toNat = none := formatMask_eq_none (by simp_all)
    exact iff_of_false nofun (not_not_intro (reserved_of_unlisted hunlisted))
  all_goals
    next hopc => simp [exists_formatZ_iff, not_reserved_iff 0 0 0 hopc rfl]

/-- The decoder rejects exactly the reserved words (R104). -/
theorem decode_error_iff_reserved (w : CmdWord) : (∃ x, decode w = .error x) ↔ Reserved w := by
  rw [← not_iff_not, ← decode_ok_iff_not_reserved]
  cases decode w <;> simp

/-- A rejected word is taken and refused (R104). -/
theorem fetch_of_reserved {s : State} {w : CmdWord} {x : DecodeError} {rest : List HostInput}
    (hinbox : s.host.inbox = .command w :: rest) (hw : decode w = .error x) :
    fetch s = .settled (.next ((s.withInbox rest).refuse (.reservedWord x))) := by
  unfold fetch
  rw [hinbox]
  simp only [hw]

/-- Settles O4: format by format, the decoder's checks are the bits and operands that R104 names. -/
theorem reservedWordsAreRefused : Obligations.ReservedWordsAreRefused := by
  unfold Obligations.ReservedWordsAreRefused
  refine ⟨decode_error_iff_reserved, fun s w rest hcfg hinbox hreserved => ?_⟩
  obtain ⟨x, hw⟩ := (decode_error_iff_reserved w).2 hreserved
  exact ⟨x, step_of_settled hcfg (fetch_of_reserved hinbox hw)⟩

end Sys2Proof.Machine

/-! ### The host's order of presentation (O7) -/

namespace Sys2Proof.Machine

/-- The inputs of one rank, in their order. -/
def ofRank (r : Nat) (xs : List HostInput) : List HostInput := xs.filter fun x => x.rank = r

theorem rank_of_mem_ofRank {r : Nat} {xs : List HostInput} {x : HostInput} (h : x ∈ ofRank r xs) : x.rank = r := by
  simpa using (List.mem_filter.1 h).2

theorem ofRank_cons_same {r : Nat} {x : HostInput} (h : x.rank = r) (xs : List HostInput) :
    ofRank r (x :: xs) = x :: ofRank r xs := List.filter_cons_of_pos (by simpa using h)

theorem ofRank_cons_other {r : Nat} {x : HostInput} (h : x.rank ≠ r) (xs : List HostInput) :
    ofRank r (x :: xs) = ofRank r xs := List.filter_cons_of_neg (by simpa using h)

/-- An input is put behind those of lower ranks and before the others (R291). -/
theorem insertInput_append (x : HostInput) (before after : List HostInput) (hbefore : ∀ y ∈ before, y.rank < x.rank)
    (hafter : ∀ y ∈ after, x.rank ≤ y.rank) : insertInput x (before ++ after) = before ++ x :: after := by
  induction before with
  | nil =>
    cases after with
    | nil => rfl
    | cons y after => exact if_pos (hafter y List.mem_cons_self)
  | cons y before ih =>
    have hy : ¬ x.rank ≤ y.rank := not_le.2 (hbefore y List.mem_cons_self)
    rw [List.cons_append, insertInput, if_neg hy, ih fun z hz => hbefore z (List.mem_cons_of_mem _ hz), List.cons_append]

theorem HostInput.rank_le_two (x : HostInput) : x.rank ≤ 2 := by
  unfold HostInput.rank
  split
  case h_2 => split <;> omega
  all_goals omega

/-- The inputs of one moment are presented rank by rank (R291). -/
theorem presentationOrder_eq (xs : List HostInput) :
    presentationOrder xs = ofRank 0 xs ++ ofRank 1 xs ++ ofRank 2 xs := by
  induction xs with
  | nil => rfl
  | cons x xs ih =>
    change insertInput x (presentationOrder xs) = _
    have hrank {r : Nat} {y : HostInput} (hy : y ∈ ofRank r xs) : y.rank = r := rank_of_mem_ofRank hy
    obtain hx | hx | hx : x.rank = 0 ∨ x.rank = 1 ∨ x.rank = 2 := by have := x.rank_le_two; omega
    · rw [ih, ofRank_cons_same hx, ofRank_cons_other (by omega), ofRank_cons_other (by omega)]
      exact insertInput_append x [] _ nofun fun _ _ => hx ▸ Nat.zero_le _
    · rw [ih, ofRank_cons_other (by omega), ofRank_cons_same hx, ofRank_cons_other (by omega), List.append_assoc,
        insertInput_append x (ofRank 0 xs) _ (fun y hy => by rw [hrank hy]; omega) fun y hy => ?_]
      · simp
      · rcases List.mem_append.1 hy with hy | hy <;> rw [hrank hy] <;> omega
    · rw [ih, ofRank_cons_other (by omega), ofRank_cons_other (by omega), ofRank_cons_same hx,
        insertInput_append x (ofRank 0 xs ++ ofRank 1 xs) _ (fun y hy => ?_) fun y hy => by rw [hrank hy]; omega]
      rcases List.mem_append.1 hy with hy | hy <;> rw [hrank hy] <;> omega

theorem HostInput.rank_eq_zero_iff (x : HostInput) : x.rank = 0 ↔ x = .deviceError .enc ∨ x = .deviceError .dec := by
  cases x with
  | deviceError u => cases u <;> simp [HostInput.rank]
  | command w =>
    simp only [HostInput.rank]
    split <;> simp
  | bindImage img => simp [HostInput.rank]
  | deviceRead bytes => simp [HostInput.rank]

/-- The stop is the one word of `STOP` (R100). -/
theorem HostInput.rank_eq_one_iff (x : HostInput) : x.rank = 1 ↔ x = .command 0x2B00000000000000 := by
  have hstop : encode .stop = 0x2B00000000000000 := rfl
  cases x with
  | command w => simp [HostInput.rank, hstop]
  | deviceError u => simp [HostInput.rank]
  | bindImage img => simp [HostInput.rank]
  | deviceRead bytes => simp [HostInput.rank]

theorem HostInput.rank_eq_two_iff (x : HostInput) :
    x.rank = 2 ↔ x ≠ .deviceError .enc ∧ x ≠ .deviceError .dec ∧ x ≠ .command 0x2B00000000000000 := by
  have hle := x.rank_le_two
  have hzero := x.rank_eq_zero_iff
  rw [← and_assoc, ← not_or, ← hzero, ne_eq, ← x.rank_eq_one_iff]
  omega

/-- With nothing waiting the inputs of one moment are all that waits (R291). -/
theorem presentMoment_of_empty {s : State} (h : s.host.inbox = []) (xs : List HostInput) :
    s.presentMoment xs = s.withInbox (presentationOrder xs) := by
  rw [State.presentMoment, h, List.nil_append]

/-- A failure that waits first latches before anything behind it is taken (R284, R291). -/
theorem step_withInbox_deviceError {s : State} (hcfg : ConfigValid s.cfg) (u : UnitId) (rest : List HostInput) :
    step (s.withInbox (.deviceError u :: rest)) = .next ((s.withInbox rest).deviceError u) :=
  step_of_settled (s := s.withInbox (.deviceError u :: rest)) hcfg (fetch_of_deviceError rfl)

/-- A stop that waits first is executed (R91, R291). -/
theorem step_withInbox_stop {s : State} (hcfg : ConfigValid s.cfg) (rest : List HostInput) :
    step (s.withInbox (.command 0x2B00000000000000 :: rest)) = exec .stop (s.withInbox rest) :=
  step_of_command (s := s.withInbox (.command 0x2B00000000000000 :: rest)) hcfg rfl (decode_eq_ok_iff.2 ⟨trivial, rfl⟩)

/-- Settles O7: the three ranks are the three filters, and the step takes the head of the first that is not empty. -/
theorem presentationIsByRank : Obligations.PresentationIsByRank := by
  unfold Obligations.PresentationIsByRank
  intro xs failures stops others
  have hfailures : ofRank 0 xs = failures := by simp only [ofRank, HostInput.rank_eq_zero_iff, failures]
  have hstops : ofRank 1 xs = stops := by simp only [ofRank, HostInput.rank_eq_one_iff, stops]
  have hothers : ofRank 2 xs = others := by simp only [ofRank, HostInput.rank_eq_two_iff, others]
  have horder : presentationOrder xs = failures ++ stops ++ others := by
    rw [presentationOrder_eq, hfailures, hstops, hothers]
  refine ⟨horder, fun s => ?_⟩
  intro waiting
  refine ⟨?_, fun hcfg hempty => ?_⟩
  · rw [State.presentMoment, horder]
    rfl
  · rw [presentMoment_of_empty hempty, horder]
    refine ⟨fun f hf => ?_, fun f hf => ?_, fun x f hnone hf => ?_⟩
    · rw [hf]
      exact step_withInbox_deviceError hcfg .enc _
    · rw [hf]
      exact step_withInbox_deviceError hcfg .dec _
    · have hx : x = .command 0x2B00000000000000 :=
        x.rank_eq_one_iff.1 (rank_of_mem_ofRank (hstops ▸ hf ▸ List.mem_cons_self))
      rw [hnone, hf, hx]
      exact step_withInbox_stop hcfg _

end Sys2Proof.Machine

/-! ### The bit orders of the VIS code (O15) -/

namespace Sys2Proof.Machine

/-- The bits of a VIS code are those of its `BITS` pattern, in both orders (R184). -/
theorem bitsOperand_vbitsPattern (o : VisBitOrder) (vis : BitVec 8) :
    bitsOperand 8 (vbitsPattern o vis) = vbits o vis := by
  unfold bitsOperand vbits
  refine List.map_congr_left fun j hj => ?_
  have hj8 : j < 8 := List.mem_range.1 hj
  cases o with
  | msbFirst => rfl
  | lsbFirst =>
    have hpos : 8 - 1 - (7 - j) = j := by omega
    simp only [vbitsPattern, BitVec.getLsbD_reverse, BitVec.getMsbD]
    rw [hpos, decide_eq_true (by omega), Bool.true_and]

@[simp] theorem vbits_length (o : VisBitOrder) (vis : BitVec 8) : (vbits o vis).length = 8 := by simp [vbits]

theorem vbits_getD_msbFirst (vis : BitVec 8) (j : Nat) (hj : j < 8) :
    (vbits .msbFirst vis).getD j false = vis.getLsbD (7 - j) := by simp [vbits, hj]

theorem vbits_getD_lsbFirst (vis : BitVec 8) (j : Nat) (hj : j < 8) :
    (vbits .lsbFirst vis).getD j false = vis.getLsbD j := by simp [vbits, hj]

/-- The decoder's assembly undoes the encoder's bits, in both orders (R184, R246). -/
theorem assembleVis_vbits (o : VisBitOrder) (vis : BitVec 8) : assembleVis o (vbits o vis) = vis := by
  refine BitVec.eq_of_getLsbD_eq fun i hi => ?_
  cases o with
  | msbFirst =>
    have hpos : 7 - (7 - i) = i := by omega
    have h := getLsbD_assembleVis_msbFirst _ (vbits_length .msbFirst vis) (7 - i) (by omega)
    rwa [vbits_getD_msbFirst vis (7 - i) (by omega), hpos] at h
  | lsbFirst => rw [getLsbD_assembleVis_lsbFirst _ (vbits_length .lsbFirst vis) i hi, vbits_getD_lsbFirst vis i hi]

/-- Settles O15: the encoder's array is the pattern's, and the assembly puts each bit back in its place. -/
theorem visBitOrdersAgree : Obligations.VisBitOrdersAgree := by
  unfold Obligations.VisBitOrdersAgree
  exact fun vis => ⟨(bitsOperand_vbitsPattern .msbFirst vis).symm, (bitsOperand_vbitsPattern .lsbFirst vis).symm,
    fun o => assembleVis_vbits o vis⟩

end Sys2Proof.Machine

/-! ### The tones of `TONE` and `BITS` (O21, O27) -/

namespace Sys2Proof.Machine

/-- Settles O21: the tone in closed form, or its raise. -/
theorem toneRendersItsSamples : Obligations.ToneRendersItsSamples := by
  unfold Obligations.ToneRendersItsSamples
  intro s freq dur taper hfault n
  have hexec : exec (.tone freq dur taper) s = .next (s.withEnc (renderTone s.cfg freq.toNat dur.toInt taper s.enc)) :=
    encCommand_of_not_blocked s _ (encBlocked_eq_false hfault)
  refine ⟨fun hdur => ?_, fun hdur => ?_⟩
  · rw [hexec, renderTone_eq _ _ _ _ _ hdur]
    rfl
  · rw [hexec, renderTone_of_neg _ _ _ _ _ hdur]
    rfl

/-- A well-formed `BITS` renders the bits of its pattern (R172). -/
theorem exec_bits_of_wellFormed {s : State} {n : BitVec 4} {pat : BitVec 8} (dur : BitVec 32)
    (hfault : s.enc.fault ≠ some .deviceError) (hwf : BitsOperandsOk n pat) :
    exec (.bits n pat dur) s = .next (s.withEnc (renderBits s.cfg (bitsOperand n.toNat pat) dur.toInt s.enc)) := by
  obtain ⟨hn, hpat⟩ := hwf
  change execBits n pat dur s = _
  unfold execBits
  rw [if_neg (not_lt.2 hn), if_neg (not_le.2 hpat)]
  exact encCommand_of_not_blocked s _ (encBlocked_eq_false hfault)

/-- Settles O27: the bits' tones in closed form, one frequency a bit. -/
theorem bitsRenderTaperedTones : Obligations.BitsRenderTaperedTones := by
  unfold Obligations.BitsRenderTaperedTones
  intro s n pat dur hfault hn hpat hdur count freqs phaseAt
  have hfreqs : (bitsOperand n.toNat pat).map (fun b => if b then s.cfg.fskF1 else s.cfg.fskF0) = freqs := by
    simp only [bitsOperand, List.map_map]
    rfl
  have hlen : freqs.length = n.toNat := by simp [freqs]
  have hend : s.enc.phase + ((freqs.sum * count : Nat) : Rat) / s.cfg.sampleRate = phaseAt n.toNat := by
    simp only [phaseAt]
    rw [List.take_of_length_le hlen.le]
  rw [exec_bits_of_wellFormed dur hfault ⟨hn, hpat⟩, renderBits_eq_fold, renderTone_fold _ _ hdur, hfreqs, hend, hlen]
  rfl

end Sys2Proof.Machine

/-! ### `ENCODE` against the separate commands (O34) -/

namespace Sys2Proof.Machine

/-! Operands from `CFG` that fit their fields are read back (R94, R95, R97). -/

theorem freqOperand_ofNat {f : Nat} (h : f < 2 ^ 16) : freqOperand (BitVec.ofNat 16 f) = f := by
  rw [freqOperand, BitVec.toNat_ofNat, Nat.mod_eq_of_lt h]

theorem rowOperand_ofNat {y : Nat} (h : y < 2 ^ 16) : rowOperand (BitVec.ofNat 16 y) = y := by
  rw [rowOperand, BitVec.toNat_ofNat, Nat.mod_eq_of_lt h]

theorem durOperand_ofNat {d : Nat} (h : d < 2 ^ 31) : durOperand (BitVec.ofNat 32 d) = d := by
  rw [durOperand, BitVec.toInt_eq_toNat_of_lt (by rw [BitVec.toNat_ofNat]; omega), BitVec.toNat_ofNat,
    Nat.mod_eq_of_lt (by omega)]

/-! The operations of `ENC` neither read `SEQ` nor write it (R30). -/

/-- An operation that does the same whatever `SEQ` holds, and leaves it. -/
def SeqBlind (op : Enc → EncOut) : Prop :=
  ∀ (e : Enc) (q : Seq), op { e with seq := q } = ⟨{ (op e).enc with seq := q }, (op e).raised⟩

theorem seqBlind_renderTone (c : Config) (freq : Nat) (dur : Int) (taper : Bool) :
    SeqBlind (renderTone c freq dur taper) := by
  intro e q
  unfold renderTone
  split <;> rfl

theorem seqBlind_renderBits (c : Config) (bits : List Bool) {dur : Int} (h : 0 ≤ dur) : SeqBlind (renderBits c bits dur) := by
  intro e q
  rw [renderBits_eq_fold, renderBits_eq_fold, renderTone_fold c dur h, renderTone_fold c dur h]
  rfl

theorem seqBlind_renderSweep (c : Config) (dur : Int) : SeqBlind (renderSweep c dur) := by
  intro e q
  unfold renderSweep
  dsimp only
  split_ifs <;> rfl

theorem seqBlind_renderSilence (c : Config) (dur : Int) : SeqBlind (renderSilence c dur) := by
  intro e q
  unfold renderSilence
  split <;> rfl

theorem seqBlind_loadChannel (c : Config) (img : Image) (ch : Fin 3) (y : Nat) :
    SeqBlind (loadChannel c (some img) ch y) := by
  intro e q
  unfold loadChannel
  dsimp only
  split_ifs <;> rfl

/-! The simulation: separate commands against the stages of the sequence. -/

/-- The state that separate commands have reached holds what the sequence has rendered; `SEQ` alone differs (R111). -/
structure Shadows (c : Config) (img : Image) (o : EncOut) (s : State) : Prop where
  cfg_eq : s.cfg = c
  img_eq : s.host.img = some img
  complete : ∃ n, Complete o n
  enc_eq : s.enc = { o.enc with seq := ⟨.idle, 0, 0⟩ }

/-- The commands lead from a state that holds what the sequence has rendered to one that holds it a stage later. -/
def Simulates (c : Config) (img : Image) (is : List Instr) (f : EncOut → EncOut) : Prop :=
  ∀ o s, Shadows c img o s → ∃ t, runCommands is s = .next t ∧ Shadows c img (f o) t

/-- The command runs the operation where `ENC` is not blocked. -/
def Performs (c : Config) (img : Image) (i : Instr) (op : Enc → EncOut) : Prop :=
  ∀ s : State, s.cfg = c → s.host.img = some img → encBlocked s.enc = false → exec i s = .next (s.withEnc (op s.enc))

/-- A list of commands goes on where the list before it ended (R31). -/
theorem runCommands_append {is : List Instr} {s t : State} (h : runCommands is s = .next t) (js : List Instr) :
    runCommands (is ++ js) s = runCommands js t := by
  induction is generalizing s with
  | nil =>
    cases h
    rfl
  | cons i is ih =>
    rw [List.cons_append, runCommands]
    rw [runCommands] at h
    cases hexec : exec i s with
    | next u =>
      rw [hexec] at h
      exact ih h
    | fault x => cases x
    | refused x =>
      rw [hexec] at h
      cases h

section
variable {c : Config} {img : Image}

theorem Simulates.append {is js : List Instr} {f g : EncOut → EncOut} (hf : Simulates c img is f)
    (hg : Simulates c img js g) : Simulates c img (is ++ js) fun o => g (f o) := by
  intro o s h
  obtain ⟨t, hrun, ht⟩ := hf o s h
  obtain ⟨u, hrun', hu⟩ := hg (f o) t ht
  exact ⟨u, by rw [runCommands_append hrun, hrun'], hu⟩

theorem simulates_nil : Simulates c img [] id := fun _ s h => ⟨s, rfl, h⟩

/-- One command against one operation of the sequence, which may set `SEQ` first. -/
theorem Shadows.command {o : EncOut} {s : State} (h : Shadows c img o s) {i : Instr} {op op' : Enc → EncOut}
    (hexec : Performs c img i op) (hblind : SeqBlind op) (hop : ∃ q, op' o.enc = op { o.enc with seq := q })
    (hcomplete : ∃ m, Complete (o.andThen op') m) :
    ∃ t, runCommands [i] s = .next t ∧ Shadows c img (o.andThen op') t := by
  obtain ⟨hcfg, himg, ⟨n, hn⟩, henc⟩ := h
  have hclear : encBlocked s.enc = false := by rw [henc, encBlocked, hn.fault_eq]; rfl
  obtain ⟨q, hq⟩ := hop
  refine ⟨s.withEnc (op s.enc), ?_, hcfg, himg, hcomplete, ?_⟩
  · rw [runCommands, hexec s hcfg himg hclear]
    rfl
  · rw [State.withEnc_enc, hn.andThen_eq, hq, henc, hblind o.enc ⟨.idle, 0, 0⟩, hblind o.enc q]

/-- A tapered tone as a command (R110) against a tone stage (R188). -/
theorem simulates_tone (g : Stage) (y : Nat) (k : Fin 3) {freq dur : Nat} (hfreq : freq < 2 ^ 16) (hdur : dur < 2 ^ 31) :
    Simulates c img [toneCommand freq dur] (toneStage c g y k freq dur) := by
  have hexec : Performs c img (toneCommand freq dur) (renderTone c freq dur true) := by
    intro s hcfg _ hclear
    refine (encCommand_of_not_blocked s _ hclear).trans ?_
    rw [freqOperand_ofNat hfreq, durOperand_ofNat hdur, hcfg]
  intro o s h
  obtain ⟨n, hn⟩ := h.complete
  exact h.command hexec (seqBlind_renderTone c freq dur true) ⟨⟨g, y, k⟩, rfl⟩ ⟨_, hn.toneStage g y k freq dur⟩

/-- The bits of the header (R188, R190). -/
def bitsStage (c : Config) (vis : BitVec 8) (o : EncOut) : EncOut :=
  o.andThen fun e => renderBits c (vbits c.visBitOrder vis) c.bitUs (e.atStage .vis 0 0)

theorem Complete.bitsStage {o : EncOut} {n : Nat} (h : Complete o n) (vis : BitVec 8) :
    ∃ m, Complete (bitsStage c vis o) m := by
  have hstage : Complete (encOk (o.enc.atStage .vis 0 0)) n := ⟨rfl, h.fault_eq, h.pcm_length⟩
  unfold Sys2Proof.Machine.bitsStage
  rw [h.andThen_eq]
  exact ⟨_, hstage.bits (vbits c.visBitOrder vis) c.bitUs⟩

/-- `VIS` (R110) against the bits of the header. -/
theorem simulates_vis (vis : BitVec 8) (hbit : c.bitUs < 2 ^ 31) : Simulates c img (pseudoVis c vis) (bitsStage c vis) := by
  have hexec : Performs c img (.bits 8 (vbitsPattern c.visBitOrder vis) (BitVec.ofNat 32 c.bitUs))
      (renderBits c (vbits c.visBitOrder vis) c.bitUs) := by
    intro s hcfg _ hclear
    have hwf : BitsOperandsOk 8 (vbitsPattern c.visBitOrder vis) := ⟨le_rfl, BitVec.isLt _⟩
    have hfault : s.enc.fault ≠ some .deviceError := fun h => by simp [encBlocked_iff.2 h] at hclear
    have hdur : (BitVec.ofNat 32 c.bitUs).toInt = c.bitUs := durOperand_ofNat hbit
    rw [exec_bits_of_wellFormed _ hfault hwf, hcfg, hdur, ← bitsOperand_vbitsPattern]
    rfl
  intro o s h
  obtain ⟨n, hn⟩ := h.complete
  exact h.command hexec (seqBlind_renderBits c _ (Int.natCast_nonneg c.bitUs)) ⟨⟨.vis, 0, 0⟩, rfl⟩ (hn.bitsStage vis)

/-- `LDCH` of a row of the image (R182). -/
theorem loadChannel_of_row (hw : 0 < img.width) {y : Nat} (hy : y < img.height) (k : Fin 3) (e : Enc) :
    loadChannel c (some img) (txc c k) y e = encOk { e with fq := scanLine c img y k } := by
  have hsize : ¬ (img.width = 0 ∨ img.height = 0) := by omega
  simp [loadChannel, hsize, not_le.2 hy, scanLine]

theorem Complete.loadStage {o : EncOut} {n : Nat} (h : Complete o n) (hw : 0 < img.width) {y : Nat} (hy : y < img.height)
    (k : Fin 3) : Complete (o.andThen fun e => loadChannel c (some img) (txc c k) y (e.atStage .scan y k)) n := by
  rw [h.andThen_eq, loadChannel_of_row hw hy]
  exact ⟨rfl, h.fault_eq, h.pcm_length⟩

/-- `SCAN` (R110) against the scan of a row of an image that a scan has samples for. -/
theorem simulates_scan (hscan : c.scanUs < 2 ^ 31) (hw : 0 < img.width) (hfit : img.width ≤ sampleCount c c.scanUs)
    {y : Nat} (hy : y < img.height) (hrow : y < 2 ^ 16) {k : Fin 3} {ch : BitVec 2}
    (hch : channelOperand ch = some (txc c k)) : Simulates c img (pseudoScan c ch y) (scanStage c img y k) := by
  have hload : Performs c img (.ldch ch (BitVec.ofNat 16 y)) (loadChannel c (some img) (txc c k) y) := by
    intro s hcfg himg hclear
    change execLdch _ _ s = _
    unfold execLdch
    simp only [hch]
    rw [encCommand_of_not_blocked s _ hclear, rowOperand_ofNat hrow, hcfg, himg]
  have hsweep : Performs c img (.sweep (BitVec.ofNat 32 c.scanUs)) (renderSweep c c.scanUs) := by
    intro s hcfg _ hclear
    refine (encCommand_of_not_blocked s _ hclear).trans ?_
    rw [durOperand_ofNat hscan, hcfg]
  intro o s h
  obtain ⟨n, hn⟩ := h.complete
  obtain ⟨t, hrun, ht⟩ := h.command hload (seqBlind_loadChannel c img (txc c k) y) ⟨⟨.scan, y, k⟩, rfl⟩
    ⟨n, hn.loadStage hw hy k⟩
  obtain ⟨u, hrun', hu⟩ := ht.command hsweep (seqBlind_renderSweep c c.scanUs) ⟨_, rfl⟩
    ⟨_, (hn.scanStage hw hfit hy k).1⟩
  exact ⟨u, (runCommands_append hrun [_]).trans hrun', hu⟩

/-- `PAD` (R110) against the pad of a line (R191). -/
theorem simulates_pad (y : Nat) (hbudget : c.lineBudgetUs < 2 ^ 31) : Simulates c img (pseudoPad c) (padStage c y) := by
  have hpad : padUs c < 2 ^ 31 := (Nat.sub_le _ _).trans_lt hbudget
  have hexec : Performs c img (.sil (BitVec.ofNat 32 (padUs c))) (renderSilence c (padUs c)) := by
    intro s hcfg _ hclear
    refine (encCommand_of_not_blocked s _ hclear).trans ?_
    rw [durOperand_ofNat hpad, hcfg]
  intro o s h
  obtain ⟨n, hn⟩ := h.complete
  exact h.command hexec (seqBlind_renderSilence c (padUs c)) ⟨⟨.pad, y, 2⟩, rfl⟩ ⟨_, (hn.padStage y).1⟩

/-- `LINE` (R110) against a line of the sequence (R188): Green, Blue, Red. -/
theorem simulates_line (hfits : OperandsFit c) (horder : c.txOrder = (.green, .blue, .red)) (hw : 0 < img.width)
    (hfit : img.width ≤ sampleCount c c.scanUs) {y : Nat} (hy : y < img.height) (hrow : y < 2 ^ 16) :
    Simulates c img (pseudoLine c y) (encodeLine c img y) := by
  have hchannel (k : Fin 3) (ch : BitVec 2) (hch : channelOperand ch = some (txc c k)) :
      Simulates c img (pseudoScan c ch y) (scanStage c img y k) :=
    simulates_scan hfits.scanUs hw hfit hy hrow hch
  have hsync := (simulates_tone (c := c) (img := img) .hsync y 0 hfits.syncFreq hfits.syncUs).append
    (simulates_tone .hporch y 0 hfits.porchFreq hfits.porchUs)
  have hgreen := (hsync.append (hchannel 0 1 (by simp only [txc, txChannel, horder]; rfl))).append
    (simulates_tone .sep y 0 hfits.porchFreq hfits.sepUs)
  have hblue := (hgreen.append (hchannel 1 0 (by simp only [txc, txChannel, horder]; rfl))).append
    (simulates_tone .sep y 1 hfits.porchFreq hfits.sepUs)
  exact (hblue.append (hchannel 2 2 (by simp only [txc, txChannel, horder]; rfl))).append
    (simulates_pad y hfits.lineBudgetUs)

/-- The first `m` lines (R110, R188). -/
theorem simulates_lines (hfits : OperandsFit c) (horder : c.txOrder = (.green, .blue, .red)) (hw : 0 < img.width)
    (hfit : img.width ≤ sampleCount c c.scanUs) (hrows : img.height ≤ 2 ^ 16) (m : Nat) (hm : m ≤ img.height) :
    Simulates c img ((List.range m).flatMap (pseudoLine c)) fun o =>
      (List.range m).foldl (fun o y => encodeLine c img y o) o := by
  induction m with
  | zero => exact simulates_nil
  | succ m ih =>
    have hline := (ih (by omega)).append (simulates_line (y := m) hfits horder hw hfit (by omega) (by omega))
    simpa [List.range_succ] using hline

/-- The header, the vertical sync and the vertical porch (R110, R190). -/
theorem simulates_header (hfits : OperandsFit c) (vis : BitVec 8) :
    Simulates c img (pseudoVis c vis ++ pseudoSync c ++ pseudoPorch c) fun o =>
      toneStage c .vporch 0 0 c.porchFreq c.porchUs (toneStage c .vsync 0 0 c.syncFreq c.syncUs (bitsStage c vis o)) :=
  ((simulates_vis vis hfits.bitUs).append (simulates_tone .vsync 0 0 hfits.syncFreq hfits.syncUs)).append
    (simulates_tone .vporch 0 0 hfits.porchFreq hfits.porchUs)

/-- `FRAME` (R110) against the sequence (R188). -/
theorem simulates_frame (hfits : OperandsFit c) (horder : c.txOrder = (.green, .blue, .red)) (hw : 0 < img.width)
    (hfit : img.width ≤ sampleCount c c.scanUs) (hrows : img.height ≤ 2 ^ 16) (vis : BitVec 8) :
    Simulates c img (pseudoFrame c vis img.height) fun o =>
      (List.range img.height).foldl (fun o y => encodeLine c img y o)
        (toneStage c .vporch 0 0 c.porchFreq c.porchUs (toneStage c .vsync 0 0 c.syncFreq c.syncUs (bitsStage c vis o))) :=
  (simulates_header hfits vis).append (simulates_lines hfits horder hw hfit hrows img.height le_rfl)

end

/-- `ERESET` starts the commands where the sequence starts (R180, R186). -/
theorem shadows_reset {s : State} {img : Image} (himg : s.host.img = some img) :
    Shadows s.cfg img (encOk .reset) (s.withEnc (encOk .reset)) :=
  ⟨rfl, himg, ⟨0, rfl, rfl, rfl⟩, rfl⟩

/-- Commands behind an `ERESET` against a piece of the sequence from its start. -/
theorem Simulates.run_from_reset {s : State} {img : Image} {is : List Instr} {f : EncOut → EncOut}
    (h : Simulates s.cfg img is f) (himg : s.host.img = some img) :
    ∃ t, runCommands (.ereset :: is) s = .next t ∧ t.enc = { (f (encOk .reset)).enc with seq := ⟨.idle, 0, 0⟩ } := by
  obtain ⟨t, hrun, ht⟩ := h _ _ (shadows_reset himg)
  exact ⟨t, hrun, ht.enc_eq⟩

theorem configValid_txOrder {c : Config} (h : ConfigValid c) : c.txOrder = (.green, .blue, .red) := by
  obtain ⟨-, -, -, -, -, -, -, -, -, -, -, -, -, -, -, horder⟩ := h
  exact horder

/-- Settles O34: the separate commands simulate the sequence stage by stage. -/
theorem encodeEqualsTheFrameCommands : Obligations.EncodeEqualsTheFrameCommands := by
  unfold Obligations.EncodeEqualsTheFrameCommands
  intro s vis im hcfg hfits himg hw hh hrows hfit
  obtain ⟨t, hrun, ht⟩ := (simulates_frame hfits (configValid_txOrder hcfg) hw hfit hrows vis).run_from_reset himg
  refine ⟨t, _, hrun, exec_encode_of_image vis s im himg hw hh, ?_⟩
  have hsequence := (complete_encodeHeader s.cfg vis).lines hw hfit im.height le_rfl
  rw [State.withEnc_enc, encodeImage, encodeSequence, hsequence.andThen_eq, ht]
  rfl

end Sys2Proof.Machine

/-! ### `ENCODE` of an image wider than a scan (O33) -/

namespace Sys2Proof.Machine

/-- The unit after a train of tapered tones: the phase run on, the samples appended (R146, R188). -/
def Enc.afterTrain (c : Config) (l : List (Nat × Nat)) (e : Enc) : Enc :=
  { e with phase := (toneTrain c e.phase l).2, pcm := e.pcm ++ (toneTrain c e.phase l).1 }

/-- A tone stage adds its tone to the train rendered so far. -/
theorem toneStage_afterTrain (c : Config) (l : List (Nat × Nat)) (e : Enc) (g g' : Stage) (y y' : Nat) (k k' : Fin 3)
    (freq dur : Nat) :
    toneStage c g y k freq dur (encOk ((e.afterTrain c l).atStage g' y' k'))
      = encOk ((e.afterTrain c (l ++ [(freq, dur)])).atStage g y k) := by
  rw [toneStage, EncOut.andThen_encOk, renderTone_eq _ _ _ _ _ (Int.natCast_nonneg dur)]
  simp only [Enc.afterTrain, Enc.atStage, toneTrain_append, toneTrain, List.append_nil, List.append_assoc,
    Int.toNat_natCast]

/-- The tones of a VIS code's bits (R172, R190). -/
def visTones (c : Config) (vis : BitVec 8) : List (Nat × Nat) :=
  (vbits c.visBitOrder vis).map fun b => (if b then c.fskF1 else c.fskF0, c.bitUs)

/-- The bits of the header are a train. -/
theorem bitsStage_encOk (c : Config) (vis : BitVec 8) (e : Enc) :
    bitsStage c vis (encOk e) = encOk ((e.afterTrain c (visTones c vis)).atStage .vis 0 0) := by
  have htrain := renderTone_train c (visTones c vis) (e.atStage .vis 0 0)
  rw [visTones, List.foldl_map] at htrain
  exact htrain

/-- The tones before the first scan (R188): the header's bits, vertical sync and porch, line 0's sync and porch. -/
def leadTones (c : Config) (vis : BitVec 8) : List (Nat × Nat) :=
  visTones c vis ++ [(c.syncFreq, c.syncUs), (c.porchFreq, c.porchUs), (c.syncFreq, c.syncUs), (c.porchFreq, c.porchUs)]

/-- The sequence up to the first scan (R188). -/
def leadStages (c : Config) (o : EncOut) : EncOut :=
  toneStage c .hporch 0 0 c.porchFreq c.porchUs (toneStage c .hsync 0 0 c.syncFreq c.syncUs o)

/-- The header as three stages (R190). -/
theorem encodeHeader_eq (c : Config) (vis : BitVec 8) (e : Enc) :
    encodeHeader c vis e = toneStage c .vporch 0 0 c.porchFreq c.porchUs
      (toneStage c .vsync 0 0 c.syncFreq c.syncUs (bitsStage c vis (encOk e))) := rfl

theorem leadStages_encodeHeader (c : Config) (vis : BitVec 8) (e : Enc) :
    leadStages c (encodeHeader c vis e) = encOk ((e.afterTrain c (leadTones c vis)).atStage .hporch 0 0) := by
  rw [leadStages, encodeHeader_eq, bitsStage_encOk, toneStage_afterTrain, toneStage_afterTrain, toneStage_afterTrain,
    toneStage_afterTrain]
  simp only [leadTones, List.append_assoc, List.cons_append, List.nil_append]

/-- A sweep over more pixels than samples raises (R150). -/
theorem renderSweep_of_tooWide (c : Config) (dur : Nat) (e : Enc) (h : sampleCount c dur < e.fq.length) :
    renderSweep c dur e = encRaise e (.precondition .morePixelsThanSamples) := by
  have hspp : sampleCount c (dur : Int).toNat / e.fq.length = 0 := Nat.div_eq_of_lt h
  unfold renderSweep
  rw [if_neg (by omega), if_neg (by omega)]
  exact if_pos hspp

/-- The scan of a row that a scan has too few samples for loads the line and raises (R182, R188, R282). -/
theorem scanStage_of_tooWide {c : Config} {img : Image} (hwide : sampleCount c c.scanUs < img.width) {y : Nat}
    (hy : y < img.height) (k : Fin 3) (e : Enc) :
    scanStage c img y k (encOk e)
      = encRaise { e.atStage .scan y k with fq := scanLine c img y k } (.precondition .morePixelsThanSamples) := by
  have hlen : (scanLine c img y k).length = img.width := by simp [scanLine]
  rw [scanStage, EncOut.andThen_encOk, loadChannel_of_row (by omega) hy, EncOut.andThen_encOk]
  exact renderSweep_of_tooWide c c.scanUs _ (by rw [hlen]; exact hwide)

/-- A line after an exception renders nothing (R282). -/
theorem encodeLine_encRaise (c : Config) (img : Image) (y : Nat) (e : Enc) (x : Raise) :
    encodeLine c img y (encRaise e x) = encRaise e x := rfl

/-- A line whose first scan raises ends there (R282). -/
theorem encodeLine_of_first_scan_raised {c : Config} {img : Image} {y : Nat} {o : EncOut} {e : Enc} {x : Raise}
    (h : scanStage c img y 0 (toneStage c .hporch y 0 c.porchFreq c.porchUs (toneStage c .hsync y 0 c.syncFreq c.syncUs o))
      = encRaise e x) : encodeLine c img y o = encRaise e x := by
  unfold encodeLine
  dsimp only
  rw [h]
  rfl

/-- A transmission whose first line raises ends there (R282). -/
theorem encodeImage_of_first_line_raised {c : Config} {img : Image} {vis : BitVec 8} {e : Enc} {x : Raise}
    (hh : 0 < img.height) (h : encodeLine c img 0 (encodeHeader c vis .reset) = encRaise e x) :
    encodeImage c img vis = encRaise e x := by
  obtain ⟨m, hm⟩ : ∃ m, img.height = m + 1 := ⟨img.height - 1, by omega⟩
  have hrest (l : List Nat) : l.foldl (fun o y => encodeLine c img y o) (encRaise e x) = encRaise e x :=
    List.foldl_fixed' (fun y => encodeLine_encRaise c img y e x) l
  rw [encodeImage, encodeSequence, hm, List.range_succ_eq_map, List.foldl_cons, h, hrest]
  rfl

/-- `ENCODE` of an image wider than a scan stops at the first scan (R188, R282). -/
theorem encodeImage_of_tooWide {c : Config} {img : Image} (hwide : sampleCount c c.scanUs < img.width)
    (hh : 0 < img.height) (vis : BitVec 8) :
    encodeImage c img vis = encRaise
      { (Enc.reset.afterTrain c (leadTones c vis)).atStage .scan 0 0 with fq := scanLine c img 0 0 }
      (.precondition .morePixelsThanSamples) := by
  refine encodeImage_of_first_line_raised hh (encodeLine_of_first_scan_raised ?_)
  change scanStage c img 0 0 (leadStages c (encodeHeader c vis .reset)) = _
  rw [leadStages_encodeHeader, scanStage_of_tooWide hwide hh]
  rfl

/-- The samples before the first scan (R192). -/
theorem leadTones_length (c : Config) (vis : BitVec 8) :
    (toneTrain c 0 (leadTones c vis)).1.length = headerLength c + sampleCount c c.syncUs + sampleCount c c.porchUs := by
  have hlead := ((complete_encodeHeader c vis).toneStage (c := c) .hsync 0 0 c.syncFreq c.syncUs).toneStage (c := c)
    .hporch 0 0 c.porchFreq c.porchUs
  have hpcm : (leadStages c (encodeHeader c vis .reset)).enc.pcm.length = _ := hlead.pcm_length
  rwa [leadStages_encodeHeader] at hpcm

/-- The separate commands up to the first scan against the sequence (R110). -/
theorem simulates_lead {c : Config} (hfits : OperandsFit c) (img : Image) (vis : BitVec 8) :
    Simulates c img (pseudoVis c vis ++ pseudoSync c ++ pseudoPorch c ++ pseudoSync c ++ pseudoPorch c) fun o =>
      leadStages c (toneStage c .vporch 0 0 c.porchFreq c.porchUs
        (toneStage c .vsync 0 0 c.syncFreq c.syncUs (bitsStage c vis o))) :=
  ((simulates_header hfits vis).append (simulates_tone .hsync 0 0 hfits.syncFreq hfits.syncUs)).append
    (simulates_tone .hporch 0 0 hfits.porchFreq hfits.porchUs)

/-- Settles O33: the train before the first scan in closed form, the raise of that scan, and nothing after it. -/
theorem tooWideImageStopsAtTheFirstScan : Obligations.TooWideImageStopsAtTheFirstScan := by
  unfold Obligations.TooWideImageStopsAtTheFirstScan
  intro s vis im himg hh hwide c bits sync porch train e
  have himage : encodeImage c im vis = ⟨e, some (.precondition .morePixelsThanSamples)⟩ :=
    encodeImage_of_tooWide hwide hh vis
  refine ⟨?_, leadTones_length c vis, fun hfits => ?_⟩
  · rw [exec_encode_of_image vis s im himg (by omega) hh]
    change Host.Outcome.next ((s.handOver (encodeImage c im vis)).withEnc (encodeImage c im vis)) = _
    rw [himage]
    rfl
  · obtain ⟨t, hrun, ht⟩ := (simulates_lead hfits im vis).run_from_reset himg
    refine ⟨t, hrun, ht.trans ?_⟩
    rw [← encodeHeader_eq, leadStages_encodeHeader]
    rfl

end Sys2Proof.Machine

/-! ### The sample count (O11) -/

namespace Sys2Proof.Machine

/-- A longer duration has no fewer samples (R121). -/
theorem sampleCount_mono (c : Config) {a b : Nat} (h : a ≤ b) : sampleCount c a ≤ sampleCount c b :=
  Nat.div_le_div_right (Nat.mul_le_mul_right c.sampleRate h)

@[simp] theorem sampleCount_zero (c : Config) : sampleCount c 0 = 0 := by simp [sampleCount]

/-- Two segments are no longer than the one of the summed duration (R121). -/
theorem sampleCount_add_le (c : Config) (a b : Nat) : sampleCount c a + sampleCount c b ≤ sampleCount c (a + b) := by
  unfold sampleCount
  rw [Nat.add_mul]
  exact Nat.div_add_div_le_add_div

/-- Splitting a segment in two loses at most one sample (R121). -/
theorem sampleCount_add_le_succ (c : Config) (a b : Nat) :
    sampleCount c (a + b) ≤ sampleCount c a + sampleCount c b + 1 := by
  unfold sampleCount
  rw [Nat.add_mul]
  omega

/-- Any number of segments are no longer than the one of the summed duration (R121). -/
theorem sum_sampleCount_le (c : Config) (ds : List Nat) : (ds.map (sampleCount c)).sum ≤ sampleCount c ds.sum := by
  induction ds with
  | nil => exact Nat.zero_le _
  | cons d ds ih =>
    rw [List.map_cons, List.sum_cons, List.sum_cons]
    exact (Nat.add_le_add_left ih _).trans (sampleCount_add_le c d ds.sum)

/-- Each segment of a sum loses at most one sample (R121). -/
theorem sampleCount_sum_le (c : Config) (ds : List Nat) :
    sampleCount c ds.sum ≤ (ds.map (sampleCount c)).sum + ds.length := by
  induction ds with
  | nil => simp
  | cons d ds ih =>
    have hsplit := sampleCount_add_le_succ c d ds.sum
    rw [List.map_cons, List.sum_cons, List.sum_cons, List.length_cons]
    omega

/-- Settles O11: the two-segment bounds, and the sums by induction on the segments. -/
theorem sampleCountLaws : Obligations.SampleCountLaws := by
  unfold Obligations.SampleCountLaws
  exact ⟨by decide, fun c => ⟨fun _ _ => sampleCount_mono c,
    fun a b => ⟨sampleCount_add_le c a b, sampleCount_add_le_succ c a b⟩,
    fun ds => ⟨sum_sampleCount_le c ds, sampleCount_sum_le c ds⟩⟩⟩

end Sys2Proof.Machine

/-! ### The value maps (O12, O13) -/

namespace Sys2Proof.Machine

theorem clamp_of_neg {v : Int} (h : v < 0) : clamp v = 0 := if_pos h

theorem clamp_of_gt {v : Int} (h : 255 < v) : clamp v = 255 := by
  rw [clamp, if_neg (by omega), if_pos h]

theorem clamp_of_mem {v : Int} (h0 : 0 ≤ v) (h255 : v ≤ 255) : clamp v = v := by
  rw [clamp, if_neg (not_lt.2 h0), if_neg (not_lt.2 h255)]

/-- A clamped number is a channel value (R122). -/
theorem clamp_mem (v : Int) : 0 ≤ clamp v ∧ clamp v ≤ 255 := by
  rcases lt_or_ge v 0 with hneg | h0
  · simp [clamp_of_neg hneg]
  · rcases lt_or_ge 255 v with hgt | h255
    · simp [clamp_of_gt hgt]
    · rw [clamp_of_mem h0 h255]
      exact ⟨h0, h255⟩

/-- Settles O12: the three cases, and idempotence because a clamped number is in the range that a clamp keeps. -/
theorem clampSaturates : Obligations.ClampSaturates := by
  unfold Obligations.ClampSaturates
  refine ⟨fun v => ?_, clamp_of_neg (by decide), clamp_of_gt (by decide)⟩
  obtain ⟨h0, h255⟩ := clamp_mem v
  exact ⟨clamp_of_neg, clamp_of_gt, clamp_of_mem, h0, h255, clamp_of_mem h0 h255⟩

/-- The FrequencyMap under `CANON` (R124). -/
theorem fmap_canon (v : Nat) : fmap .canon v = 1500 + v * 800 / 255 := by
  simp only [fmap, Config.canon]
  ring

/-- One channel value further is one step of the band up (R125). -/
theorem fmap_canon_succ_sub (v : Nat) : fmap .canon (v + 1) - fmap .canon v = 800 / 255 := by
  rw [fmap_canon, fmap_canon, Nat.cast_succ]
  ring

/-- The FrequencyMap is strictly increasing, each step being positive (R125). -/
theorem fmap_canon_strictMono : StrictMono (fmap .canon) :=
  strictMono_nat_of_lt_succ fun v => sub_pos.1 (by rw [fmap_canon_succ_sub]; norm_num)

/-- Settles O13: the formula, from which the values and the step follow; the band of every `CFG`. -/
theorem frequencyMapBand : Obligations.FrequencyMapBand := by
  unfold Obligations.FrequencyMapBand
  refine ⟨fmap_canon, ?_, ?_, fmap_canon_succ_sub, fun _ _ huv => fmap_canon_strictMono huv, ?_,
    fun c v hband hv => fmap_mem_band c hband v hv⟩
  · norm_num [fmap_canon]
  · norm_num [fmap_canon]
  · simp only [fmap_canon, abs_lt]
    norm_num

end Sys2Proof.Machine

/-! ### The channels of a pixel (O14) -/

namespace Sys2Proof.Machine

/-- A channel is its byte of the pixel word (R126). -/
theorem toNat_chx (p : PixelWord) (c : Fin 3) : (chx p c).toNat = p.toNat / 2 ^ (8 * c.val) % 256 := by
  rw [chx, BitVec.toNat_setWidth, BitVec.toNat_ushiftRight, Nat.shiftRight_eq_div_pow]

/-- Bytes shifted to places that do not overlap add up (R127). -/
theorem shiftLeft_or_shiftLeft_or_eq_add {r g b : Nat} (hg : g < 2 ^ 8) (hb : b < 2 ^ 8) :
    r <<< 16 ||| g <<< 8 ||| b = r * 2 ^ 16 + g * 2 ^ 8 + b := by
  have hlow : g <<< 8 + b < 2 ^ 16 := by
    rw [Nat.shiftLeft_eq]
    omega
  rw [Nat.or_assoc, ← Nat.shiftLeft_add_eq_or_of_lt hb, ← Nat.shiftLeft_add_eq_or_of_lt hlow, Nat.shiftLeft_eq,
    Nat.shiftLeft_eq, Nat.add_assoc]

/-- A composed pixel as a number (R127). -/
theorem toNat_packRgb (r g b : ChannelValue) :
    (packRgb r g b).toNat = r.toNat * 2 ^ 16 + g.toNat * 2 ^ 8 + b.toNat := by
  have toNat_shifted (v : ChannelValue) (k : Nat) (hk : k ≤ 16) : (v.setWidth 24 <<< k).toNat = v.toNat <<< k := by
    have hfit : v.toNat <<< k < 2 ^ 24 := by
      rw [Nat.shiftLeft_eq]
      exact (Nat.mul_lt_mul_of_lt_of_le v.isLt (Nat.pow_le_pow_right two_pos hk) (by positivity)).trans_eq rfl
    rw [BitVec.toNat_shiftLeft, BitVec.toNat_setWidth_of_le (by decide), Nat.mod_eq_of_lt hfit]
  rw [packRgb, BitVec.toNat_or, BitVec.toNat_or, toNat_shifted r 16 le_rfl, toNat_shifted g 8 (by decide),
    BitVec.toNat_setWidth_of_le (by decide), shiftLeft_or_shiftLeft_or_eq_add g.isLt b.isLt]

/-- A byte of a composed pixel, read off its number. -/
theorem toNat_chx_packRgb (r g b : ChannelValue) (c : Fin 3) :
    (chx ((packRgb r g b).setWidth 32) c).toNat
      = (r.toNat * 2 ^ 16 + g.toNat * 2 ^ 8 + b.toNat) / 2 ^ (8 * c.val) % 256 := by
  rw [toNat_chx, BitVec.toNat_setWidth_of_le (by decide), toNat_packRgb]

/-- Settles O14: a channel is a byte of the word, and the bytes of a composed pixel do not overlap. -/
theorem channelsUnpackAndPack : Obligations.ChannelsUnpackAndPack := by
  unfold Obligations.ChannelsUnpackAndPack
  refine ⟨toNat_chx, ⟨rfl, rfl, rfl⟩, toNat_packRgb, fun r g b => ?_⟩
  have hr := r.isLt
  have hg := g.isLt
  have hb := b.isLt
  refine ⟨?_, ?_, ?_⟩ <;> refine BitVec.eq_of_toNat_eq ((toNat_chx_packRgb r g b _).trans ?_)
  · change _ / 2 ^ 16 % 256 = _
    omega
  · change _ / 2 ^ 8 % 256 = _
    omega
  · change _ / 2 ^ 0 % 256 = _
    omega

end Sys2Proof.Machine

/-! ### `PADV` (O20) -/

namespace Sys2Proof.Machine

/-- An advance in radians (R130). -/
theorem radians_advancePhase (c : Config) (freq : Nat) (φ : Rat) :
    radians (advancePhase c freq φ) = radians φ + 2 * Real.pi * freq / c.sampleRate := by
  unfold radians advancePhase
  push_cast
  ring

/-- An advance at no frequency leaves the phase (R130). -/
@[simp] theorem advancePhase_zero (c : Config) (φ : Rat) : advancePhase c 0 φ = φ := by simp [advancePhase]

/-- `PADV` outside `DeviceError` advances the phase, and does nothing else (R130). -/
theorem exec_padv_of_not_faulted {s : State} (freq : BitVec 16) (hfault : s.enc.fault ≠ some .deviceError) :
    exec (.padv freq) s
      = .next (s.withEnc (encOk { s.enc with phase := advancePhase s.cfg freq.toNat s.enc.phase })) :=
  encCommand_of_not_blocked s (fun e => encOk { e with phase := advancePhase s.cfg freq.toNat e.phase })
    (encBlocked_eq_false hfault)

/-- Settles O20: the advance that the command makes, in radians. -/
theorem padvAdvancesThePhase : Obligations.PadvAdvancesThePhase := by
  unfold Obligations.PadvAdvancesThePhase
  intro s freq hfault
  refine ⟨advancePhase s.cfg freq.toNat s.enc.phase, exec_padv_of_not_faulted freq hfault,
    radians_advancePhase s.cfg freq.toNat s.enc.phase, ?_⟩
  rintro rfl
  exact advancePhase_zero s.cfg s.enc.phase

end Sys2Proof.Machine

/-! ### The taper envelope (O16, O22) -/

namespace Sys2Proof.Machine

section
variable (c : Config) {n i : Nat}

/-- The rise of the taper (R142). -/
theorem envelope_of_lt_taper (h : i < min (sampleCount c c.taperUs) (n / 2)) :
    envelope c i n = some (i, min (sampleCount c c.taperUs) (n / 2)) := by
  unfold envelope
  exact (if_neg (by omega)).trans (if_pos h)

/-- The fall of the taper (R142): it does not meet the rise, which takes at most half the samples. -/
theorem envelope_of_taper_le (hi : i < n) (h : n - min (sampleCount c c.taperUs) (n / 2) ≤ i) :
    envelope c i n = some (n - 1 - i, min (sampleCount c c.taperUs) (n / 2)) := by
  unfold envelope
  exact (if_neg (by omega)).trans ((if_neg (by omega)).trans (if_pos h))

/-- Between the rise and the fall, and with no taper, the envelope is 1 (R142). -/
theorem envelope_of_between (hrise : min (sampleCount c c.taperUs) (n / 2) ≤ i)
    (hfall : i < n - min (sampleCount c c.taperUs) (n / 2)) : envelope c i n = none := by
  unfold envelope
  exact ite_eq_left_iff.2 fun _ => (if_neg (not_lt.2 hrise)).trans (if_neg (not_le.2 hfall))

/-- The sample `i` lies in the rise, in the fall or between them. -/
theorem taper_cases (tn n i : Nat) : i < tn ∨ (tn ≤ i ∧ n - tn ≤ i) ∨ (tn ≤ i ∧ i < n - tn) := by omega

/-- The fall mirrors the rise (R142). -/
theorem envelope_mirror (hi : i < n) : envelope c (n - 1 - i) n = envelope c i n := by
  rcases taper_cases (min (sampleCount c c.taperUs) (n / 2)) n i with hrise | ⟨-, hfall⟩ | ⟨hrise, hfall⟩
  · rw [envelope_of_lt_taper c hrise, envelope_of_taper_le c (by omega) (by omega), Nat.sub_sub_self (by omega)]
  · rw [envelope_of_taper_le c hi hfall, envelope_of_lt_taper c (by omega)]
  · rw [envelope_of_between c hrise hfall, envelope_of_between c (by omega) (by omega)]

/-- The computed envelope names the value of R142's formula. -/
theorem envReal_envelope (hi : i < n) :
    envReal (envelope c i n) = envFormula (min (sampleCount c c.taperUs) (n / 2)) i n := by
  unfold envFormula
  rcases taper_cases (min (sampleCount c c.taperUs) (n / 2)) n i with hrise | ⟨hrise, hfall⟩ | ⟨hrise, hfall⟩
  · rw [envelope_of_lt_taper c hrise, if_neg (by omega), if_pos hrise]
    rfl
  · have hindex : ((n - 1 - i : Nat) : ℝ) = n - 1 - i := by
      rw [Nat.cast_sub (by omega), Nat.cast_sub (by omega), Nat.cast_one]
    rw [envelope_of_taper_le c hi hfall, if_neg (by omega), if_neg (not_lt.2 hrise), if_pos hfall, ← hindex]
    rfl
  · rw [envelope_of_between c hrise hfall, if_neg (not_lt.2 hrise), if_neg (not_le.2 hfall), ite_self]
    rfl

end

/-- Settles O16: rise, fall and what is between them, for the formula and for the symmetry. -/
theorem envelopeShape : Obligations.EnvelopeShape := by
  unfold Obligations.EnvelopeShape
  intro c n i hi
  exact ⟨envReal_envelope c hi, congrArg envReal (envelope_mirror c hi).symm, envReal_range _⟩

/-! A sample whose envelope value is 0 is 0 at every amplitude and phase: the enclosures of both are exact. -/

/-- The enclosure of no turn at all is exact. -/
theorem cis_zero (p : Nat) : cis p 0 = ⟨2 ^ p, 0, 0⟩ := by
  have hquarter : (4 * 0 + 1 / 2 : Rat).floor = 0 := by norm_num [Rat.floor_def]
  unfold cis
  rw [hquarter]
  simp [cisSmall, Ball.quarterTurns]

/-- The start of the rise is an exact 0 (R142). -/
theorem envBall_zero (p tn : Nat) : envBall p (some (0, tn)) = ⟨0, 0⟩ := by
  simp [envBall, cis_zero]

/-- An envelope value that is an exact 0 leaves nothing of the sine, and no doubt (R140). -/
theorem sampleBall_zero (amp tn : Nat) (t : Rat) (p : Nat) : sampleBall amp (some (0, tn)) t p = ⟨0, 0⟩ := by
  simp [sampleBall, envBall_zero]

/-- So the first precision settles the sample (R128). -/
theorem quantSine_zero (amp tn : Nat) (t : Rat) : quantSine amp (some (0, tn)) t = 0 := by
  have htest : quantTest amp (some (0, tn)) t basePrecision = some 0 := by
    simp [quantTest, sampleBall_zero, RealBall.lo, RealBall.hi]
  rw [quantSine, quantFuel_eq, refine, htest]

/-- A sample at the start of the rise is 0 (R140, R142). -/
theorem renderedSample_zero (c : Config) (tn : Nat) (turns : Rat) : renderedSample c (some (0, tn)) turns = 0 := by
  rw [renderedSample, quantSine_zero]
  rfl

@[simp] theorem toneSamples_length (c : Config) (f n : Nat) (taper : Bool) (φ : Rat) :
    (toneSamples c f n taper φ).length = n := by simp [toneSamples]

/-- A sample of a tapered tone whose envelope value is an exact 0 is 0. -/
theorem toneSamples_getElem?_of_envelope_zero (c : Config) (f n i tn : Nat) (φ : Rat) (hi : i < n)
    (henv : envelope c i n = some (0, tn)) : (toneSamples c f n true φ)[i]? = some 0 := by
  simp [toneSamples, hi, henv, renderedSample_zero]

/-- Settles O22: the first sample starts the rise, and the last mirrors it. -/
theorem taperedToneStartsAndEndsAtZero : Obligations.TaperedToneStartsAndEndsAtZero := by
  unfold Obligations.TaperedToneStartsAndEndsAtZero
  intro c freq n φ htaper hn
  have hfirst : envelope c 0 n = some (0, min (sampleCount c c.taperUs) (n / 2)) := envelope_of_lt_taper c (by omega)
  have hlast : envelope c (n - 1) n = some (0, min (sampleCount c c.taperUs) (n / 2)) :=
    (envelope_mirror c (by omega)).trans hfirst
  exact ⟨toneSamples_length c freq n true φ,
    toneSamples_getElem?_of_envelope_zero c freq n 0 _ φ (by omega) hfirst,
    toneSamples_getElem?_of_envelope_zero c freq n (n - 1) _ φ (by omega) hlast⟩

end Sys2Proof.Machine

/-! ### The sweep's raises, the sweep of one frequency, and silence (O24, O25, O26) -/

namespace Sys2Proof.Machine

/-- Two operations that agree on the unit's state make the same command. -/
theorem encCommand_congr {s : State} {op op' : Enc → EncOut} (h : op s.enc = op' s.enc) :
    encCommand s op = encCommand s op' := by
  unfold encCommand
  rw [h]

theorem renderSweep_of_neg (c : Config) (dur : Int) (e : Enc) (h : dur < 0) :
    renderSweep c dur e = encRaise e (.precondition (.negativeDuration dur)) := if_pos h

/-- A sweep over an empty line raises (R150). -/
theorem renderSweep_of_empty (c : Config) (dur : Int) (e : Enc) (hdur : 0 ≤ dur) (hfq : e.fq = []) :
    renderSweep c dur e = encRaise e (.precondition .emptyFrequencyArray) := by
  unfold renderSweep
  exact (if_neg (not_lt.2 hdur)).trans (if_pos (hfq ▸ rfl))

/-- A sweep that raises, as a command outside `DeviceError`: only the latch and the outcome (R281, R282). -/
theorem exec_sweep_of_raise {s : State} {dur : BitVec 32} {cause : PreconditionCause}
    (hfault : s.enc.fault ≠ some .deviceError)
    (h : renderSweep s.cfg dur.toInt s.enc = encRaise s.enc (.precondition cause)) :
    exec (.sweep dur) s = .next (({ s with
      enc := { s.enc with fault := some .preconditionError } } : State).report (.raised (.precondition cause))) := by
  refine (encCommand_of_not_blocked s _ (encBlocked_eq_false hfault)).trans ?_
  rw [durOperand, h]
  rfl

/-- Settles O24: the three raises of the operation, in the order of its checks. -/
theorem sweepChecksInOrder : Obligations.SweepChecksInOrder := by
  unfold Obligations.SweepChecksInOrder
  intro s dur hfault
  refine ⟨fun hneg => ?_, fun hdur hempty => ?_, fun hdur _ hwide => ?_⟩
  · exact exec_sweep_of_raise hfault (renderSweep_of_neg s.cfg dur.toInt s.enc hneg)
  · exact exec_sweep_of_raise hfault (renderSweep_of_empty s.cfg dur.toInt s.enc hdur hempty)
  · have hraise := renderSweep_of_tooWide s.cfg dur.toInt.toNat s.enc hwide
    rw [Int.toNat_of_nonneg hdur] at hraise
    exact exec_sweep_of_raise hfault hraise

/-- A line of one frequency has nothing to interpolate: every sample of its sweep is at that frequency (R151). -/
theorem sweepFreq_singleton (f : Rat) (spp i : Nat) : sweepFreq [f] spp i = f := by simp [sweepFreq]

/-- A sweep over one frequency renders the tapered tone of that frequency (R151). -/
theorem renderSweep_singleton (c : Config) (freq : Nat) (dur : Int) (e : Enc) (hfq : e.fq = [(freq : Rat)])
    (hn : 1 ≤ sampleCount c dur.toNat) : renderSweep c dur e = renderTone c freq dur true e := by
  have hdur : 0 ≤ dur := by
    by_contra hneg
    rw [Int.toNat_of_nonpos (by omega), sampleCount_zero] at hn
    omega
  have hne : e.fq ≠ [] := hfq ▸ List.cons_ne_nil _ _
  have hspp : 1 ≤ sampleCount c dur.toNat / e.fq.length := by rwa [hfq, List.length_singleton, Nat.div_one]
  have hfreq : sweepFreq e.fq (sampleCount c dur.toNat / e.fq.length) = fun _ => (freq : Rat) :=
    funext fun i => hfq ▸ sweepFreq_singleton freq _ i
  rw [renderSweep_of_fits c dur e hdur hne hspp, renderTone_of_nonneg c freq dur true e hdur, hfreq]
  rfl

/-- Settles O25: the two operations are one, and so are the commands, refused or not. -/
theorem singleFrequencySweepIsATone : Obligations.SingleFrequencySweepIsATone := by
  unfold Obligations.SingleFrequencySweepIsATone
  intro s freq dur hfq hn
  exact encCommand_congr (renderSweep_singleton s.cfg freq.toNat dur.toInt s.enc hfq hn)

/-- `SIL` outside `DeviceError` renders its silence (R160). -/
theorem exec_sil_of_not_faulted {s : State} (dur : BitVec 32) (hfault : s.enc.fault ≠ some .deviceError) :
    exec (.sil dur) s = .next (s.withEnc (renderSilence s.cfg dur.toInt s.enc)) :=
  encCommand_of_not_blocked s (renderSilence s.cfg dur.toInt) (encBlocked_eq_false hfault)

/-- Settles O26: the two cases of the silence. -/
theorem silenceAppendsZeros : Obligations.SilenceAppendsZeros := by
  unfold Obligations.SilenceAppendsZeros
  intro s dur hfault
  refine ⟨fun hpos => ?_, fun hnonpos => ?_⟩
  · rw [exec_sil_of_not_faulted dur hfault, renderSilence, if_neg (not_le.2 hpos)]
    rfl
  · rw [exec_sil_of_not_faulted dur hfault, renderSilence, if_pos hnonpos]
    rfl

end Sys2Proof.Machine

/-! ### `BITS` as the `TONE` commands of its bits (O28) -/

namespace Sys2Proof.Machine

/-- The unit's state and the outcome after a second operation of `ENC` are the second's alone. -/
@[simp] theorem State.withEnc_withEnc (s : State) (o o' : EncOut) : (s.withEnc o).withEnc o' = s.withEnc o' := rfl

/-- `TONE` outside `DeviceError` renders its tone (R146). -/
theorem exec_tone_of_not_faulted {s : State} (freq : BitVec 16) (dur : BitVec 32) (taper : Bool)
    (hfault : s.enc.fault ≠ some .deviceError) :
    exec (.tone freq dur taper) s = .next (s.withEnc (renderTone s.cfg freq.toNat dur.toInt taper s.enc)) :=
  encCommand_of_not_blocked s _ (encBlocked_eq_false hfault)

/-- Tapered `TONE` commands of one duration, one for each frequency. -/
def toneCommands (dur : BitVec 32) (fs : List Nat) : List Instr :=
  fs.map fun f => .tone (BitVec.ofNat 16 f) dur true

theorem toneCommands_cons (dur : BitVec 32) (f : Nat) (fs : List Nat) :
    toneCommands dur (f :: fs) = .tone (BitVec.ofNat 16 f) dur true :: toneCommands dur fs := rfl

/-- The commands of a mapped list, as the map of its commands. -/
theorem toneCommands_map {α : Type} (dur : BitVec 32) (freq : α → Nat) (l : List α) :
    toneCommands dur (l.map freq) = l.map fun a => .tone (BitVec.ofNat 16 (freq a)) dur true := List.map_map

/-- `TONE` commands go on from an operation that has ended normally as the tones themselves do: no tone of a duration
that is not negative raises, so none changes the latch. -/
theorem runCommands_tones_withEnc (s : State) (dur : BitVec 32) (hdur : 0 ≤ dur.toInt) (fs : List Nat)
    (hfs : ∀ f ∈ fs, f < 2 ^ 16) (e : Enc) (hfault : e.fault ≠ some .deviceError) :
    runCommands (toneCommands dur fs) (s.withEnc (encOk e)) =
      .next (s.withEnc (fs.foldl (fun o f => o.andThen (renderTone s.cfg f dur.toInt true)) (encOk e))) := by
  induction fs generalizing e with
  | nil => rfl
  | cons f fs ih =>
    have hfreq : (BitVec.ofNat 16 f).toNat = f := freqOperand_ofNat (hfs f List.mem_cons_self)
    have hrest : ∀ g ∈ fs, g < 2 ^ 16 := fun g hg => hfs g (List.mem_cons_of_mem f hg)
    rw [toneCommands_cons, runCommands, exec_tone_of_not_faulted _ _ _ hfault, List.foldl_cons, EncOut.andThen_encOk]
    simp only [State.withEnc_withEnc, State.withEnc_cfg, State.withEnc_enc, encOk_enc, hfreq]
    rw [renderTone_of_nonneg _ _ _ _ _ hdur]
    exact ih hrest _ hfault

/-- At least one `TONE` command: the outcome of the last is the outcome of the tones. -/
theorem runCommands_tones (s : State) (dur : BitVec 32) (hdur : 0 ≤ dur.toInt) (fs : List Nat) (hne : fs ≠ [])
    (hfs : ∀ f ∈ fs, f < 2 ^ 16) (hfault : s.enc.fault ≠ some .deviceError) :
    runCommands (toneCommands dur fs) s =
      .next (s.withEnc (fs.foldl (fun o f => o.andThen (renderTone s.cfg f dur.toInt true)) (encOk s.enc))) := by
  have hstart : runCommands (toneCommands dur fs) s = runCommands (toneCommands dur fs) (s.withEnc (encOk s.enc)) := by
    cases fs with
    | nil => exact absurd rfl hne
    | cons f fs =>
      simp only [toneCommands_cons, runCommands]
      rw [exec_tone_of_not_faulted _ _ _ hfault, exec_tone_of_not_faulted (s := s.withEnc (encOk s.enc)) _ _ _ hfault]
      rfl
  exact hstart.trans (runCommands_tones_withEnc s dur hdur fs hfs s.enc hfault)

/-- With a negative duration the first bit raises, and no later one runs (R146, R172). -/
theorem renderBits_of_neg (c : Config) (bits : List Bool) (dur : Int) (e : Enc) (hne : bits ≠ []) (hdur : dur < 0) :
    renderBits c bits dur e = encRaise e (.precondition (.negativeDuration dur)) := by
  cases bits with
  | nil => exact absurd rfl hne
  | cons b bits =>
    rw [renderBits, List.foldl_cons, EncOut.andThen_encOk, renderTone_of_neg _ _ _ _ _ hdur]
    exact List.foldl_fixed'
      (fun b => EncOut.andThen_encRaise e _ (renderTone c (if b then c.fskF1 else c.fskF0) dur true)) bits

theorem bitsOperand_ne_nil {n : BitVec 4} (hn : n ≠ 0) (pat : BitVec 8) : bitsOperand n.toNat pat ≠ [] := by
  have hpos : n.toNat ≠ 0 := fun h => hn (BitVec.eq_of_toNat_eq h)
  simpa [bitsOperand] using hpos

/-- Settles O28: no tone for no bit, the commands' tones for a duration that is not negative, and the first tone's
raise for a negative one. -/
theorem bitsAreTones : Obligations.BitsAreTones := by
  unfold Obligations.BitsAreTones
  intro s n pat dur hfault hn hpat
  have hexec := exec_bits_of_wellFormed dur hfault ⟨hn, hpat⟩
  refine ⟨fun hzero => ?_, fun hne hdur hf0 hf1 => ?_, fun hne hneg => ?_⟩
  · rw [hexec, hzero]
    rfl
  · have hfreqs : ∀ f ∈ (bitsOperand n.toNat pat).map (fun b => if b then s.cfg.fskF1 else s.cfg.fskF0),
        f < 2 ^ 16 := by
      intro f hf
      obtain ⟨b, -, rfl⟩ := List.mem_map.1 hf
      cases b
      · exact hf0
      · exact hf1
    have htones := runCommands_tones s dur hdur _ (mt List.map_eq_nil_iff.1 (bitsOperand_ne_nil hne pat)) hfreqs hfault
    rw [hexec, renderBits_eq_fold, ← htones, toneCommands_map]
  · rw [hexec, renderBits_of_neg s.cfg _ _ _ (bitsOperand_ne_nil hne pat) hneg]
    rfl

end Sys2Proof.Machine

/-! ### The line pad, `LDCH` and `ERESET` (O17, O29, O30) -/

namespace Sys2Proof.Machine

/-- The pad in integers: the truncated subtraction of the model is the `max` of the rule (R191). -/
theorem padUs_cast (c : Config) :
    (padUs c : Int) = max 0 ((c.lineBudgetUs : Int) - (c.syncUs + c.porchUs + 3 * c.scanUs + 2 * c.sepUs)) := by
  unfold padUs
  rcases le_total (c.syncUs + c.porchUs + 3 * c.scanUs + 2 * c.sepUs) c.lineBudgetUs with hfits | hover
  · rw [max_eq_right (by omega)]
    push_cast [hfits]
    rfl
  · rw [Nat.sub_eq_zero_of_le hover, max_eq_left (by omega)]
    rfl

/-- Settles O17: the rule in integers for every `CFG`, and the `CANON` values evaluated. -/
theorem padFillsTheBudget : Obligations.PadFillsTheBudget := by
  unfold Obligations.PadFillsTheBudget
  exact ⟨padUs_cast, by decide, by decide⟩

/-- The channel operands 0 to 2 are channels (R97). -/
theorem channelOperand_of_lt {k : BitVec 2} (h : k.toNat < 3) : channelOperand k = some ⟨k.toNat, h⟩ := dif_pos h

/-- `LDCH` of one of the three channels, outside `DeviceError`, is the channel load (R182). -/
theorem exec_ldch_of_not_faulted {s : State} {k : BitVec 2} (y : BitVec 16) (hk : k.toNat < 3)
    (hfault : s.enc.fault ≠ some .deviceError) :
    exec (.ldch k y) s = .next (s.withEnc (loadChannel s.cfg s.host.img ⟨k.toNat, hk⟩ y.toNat s.enc)) := by
  change execLdch k y s = _
  unfold execLdch
  rw [channelOperand_of_lt hk]
  exact encCommand_of_not_blocked s _ (encBlocked_eq_false hfault)

/-- A channel load over an image with no pixel raises (R182, R283). -/
theorem loadChannel_of_zero_size (c : Config) {im : Image} (h : im.width = 0 ∨ im.height = 0) (ch : Fin 3) (y : Nat)
    (e : Enc) : loadChannel c (some im) ch y e = encRaise e .malformedInput := if_pos h

/-- A channel load of a row below the image raises (R182, R282). -/
theorem loadChannel_of_row_outside (c : Config) {im : Image} (hw : 0 < im.width) (hh : 0 < im.height) (ch : Fin 3)
    {y : Nat} (hy : im.height ≤ y) (e : Enc) :
    loadChannel c (some im) ch y e = encRaise e (.precondition .rowOutOfRange) :=
  (if_neg (by omega)).trans (if_pos hy)

/-- A channel load of a row of the image fills the line with the row's frequencies, for each of the three channels
(R182). -/
theorem loadChannel_of_row_inside (c : Config) {im : Image} (hw : 0 < im.width) (ch : Fin 3) {y : Nat}
    (hy : y < im.height) (e : Enc) :
    loadChannel c (some im) ch y e =
      encOk { e with fq := (List.range im.width).map fun x => fmap c (chx (im.read x y) ch).toNat } :=
  (if_neg (by omega)).trans (if_neg (not_le.2 hy))

/-- A channel load that raises, as a command outside `DeviceError`: only the latch and the outcome (R281). -/
theorem exec_ldch_of_raise {s : State} {k : BitVec 2} {y : BitVec 16} {x : Raise} (hk : k.toNat < 3)
    (hfault : s.enc.fault ≠ some .deviceError)
    (h : loadChannel s.cfg s.host.img ⟨k.toNat, hk⟩ y.toNat s.enc = encRaise s.enc x) :
    exec (.ldch k y) s =
      .next (({ s with enc := { s.enc with fault := some x.exc } } : State).report (.raised x)) := by
  rw [exec_ldch_of_not_faulted y hk hfault, h]
  rfl

/-- Settles O29: the load's two raises in the order of its checks, and the loaded line. -/
theorem ldchLoadsTheLine : Obligations.LdchLoadsTheLine := by
  unfold Obligations.LdchLoadsTheLine
  intro s k y hk hfault raises
  refine ⟨fun hnone => ?_, fun im himg => ⟨fun hsize => ?_, fun hw hh hout => ?_, fun hw hin => ?_⟩⟩
  · exact exec_ldch_of_raise hk hfault (by rw [hnone]; rfl)
  · exact exec_ldch_of_raise hk hfault (by rw [himg, loadChannel_of_zero_size _ hsize])
  · exact exec_ldch_of_raise hk hfault (by rw [himg, loadChannel_of_row_outside _ hw hh _ hout])
  · rw [exec_ldch_of_not_faulted y hk hfault, himg, loadChannel_of_row_inside _ hw _ hin]
    rfl

/-- `ERESET` answers the reset `ENC` from every state, whatever its latch holds (R45, R180). -/
theorem exec_ereset (s : State) : exec .ereset s = .next (s.withEnc (encOk .reset)) := rfl

/-- Settles O30: the reset `ENC` with its fields written out. -/
theorem eresetRestoresTheEncoder : Obligations.EresetRestoresTheEncoder := by
  unfold Obligations.EresetRestoresTheEncoder
  intro s
  rw [exec_ereset]
  rfl

end Sys2Proof.Machine

/-! ### The Goertzel recurrence (O37) -/

namespace Sys2Proof.Machine

/-- What the recurrence's variables hold after `m` samples whose Fourier sum is `a + i b`: the real and the imaginary part
of `e^{iω} s1 − s2 = e^{iωm} (a − i b)` (R212, R213). -/
structure GoertzelHolds (ω : ℝ) (m : Nat) (st : ℝ × ℝ) (a b : ℝ) : Prop where
  re : Real.cos ω * st.1 - st.2 = Real.cos (ω * m) * a + Real.sin (ω * m) * b
  im : Real.sin ω * st.1 = Real.sin (ω * m) * a - Real.cos (ω * m) * b

/-- One step of the recurrence turns the held sum by `ω` and adds the sample. -/
theorem GoertzelHolds.step {ω : ℝ} {m : Nat} {st : ℝ × ℝ} {a b : ℝ} (h : GoertzelHolds ω m st a b) (x : ℝ) :
    GoertzelHolds ω (m + 1) (x + 2 * Real.cos ω * st.1 - st.2, st.1)
      (a + x * Real.cos (ω * m)) (b + x * Real.sin (ω * m)) := by
  have hω := Real.sin_sq_add_cos_sq ω
  have hm := Real.sin_sq_add_cos_sq (ω * m)
  have hnext : ω * (m + 1 : Nat) = ω * m + ω := by push_cast; ring
  constructor
  · rw [hnext, Real.cos_add, Real.sin_add]
    linear_combination Real.cos ω * h.re - Real.sin ω * h.im + st.1 * hω - x * Real.cos ω * hm
  · rw [hnext, Real.cos_add, Real.sin_add]
    linear_combination Real.sin ω * h.re + Real.cos ω * h.im - x * Real.sin ω * hm

/-- The turn does not change the modulus: the recurrence's form of the power is that of the held sum. -/
theorem GoertzelHolds.power {ω : ℝ} {m : Nat} {st : ℝ × ℝ} {a b : ℝ} (h : GoertzelHolds ω m st a b) :
    st.1 ^ 2 + st.2 ^ 2 - 2 * Real.cos ω * st.1 * st.2 = a ^ 2 + b ^ 2 := by
  calc st.1 ^ 2 + st.2 ^ 2 - 2 * Real.cos ω * st.1 * st.2
      = (Real.cos ω * st.1 - st.2) ^ 2 + (Real.sin ω * st.1) ^ 2 := by
        linear_combination -st.1 ^ 2 * Real.sin_sq_add_cos_sq ω
    _ = (Real.cos (ω * m) * a + Real.sin (ω * m) * b) ^ 2 + (Real.sin (ω * m) * a - Real.cos (ω * m) * b) ^ 2 := by
        rw [h.re, h.im]
    _ = a ^ 2 + b ^ 2 := by linear_combination (a ^ 2 + b ^ 2) * Real.sin_sq_add_cos_sq (ω * m)

/-- Running on over a window adds the window's sums to the held ones. -/
theorem GoertzelHolds.power_goertzelRun {ω : ℝ} {m : Nat} {st : ℝ × ℝ} {a b : ℝ} (h : GoertzelHolds ω m st a b)
    (w : List Sample) :
    (goertzelRun (2 * Real.cos ω) st w).1 ^ 2 + (goertzelRun (2 * Real.cos ω) st w).2 ^ 2
        - 2 * Real.cos ω * (goertzelRun (2 * Real.cos ω) st w).1 * (goertzelRun (2 * Real.cos ω) st w).2
      = (a + windowSum (fun j => Real.cos (ω * j)) m w) ^ 2 + (b + windowSum (fun j => Real.sin (ω * j)) m w) ^ 2 := by
  induction w generalizing m st a b with
  | nil => simpa only [goertzelRun, windowSum, add_zero] using h.power
  | cons x w ih => simpa only [goertzelRun, windowSum, add_assoc] using ih (h.step (xn x))

/-- Settles O37: before the first sample the recurrence holds the empty sum. -/
theorem goertzelRecurrenceIsThePower : Obligations.GoertzelRecurrenceIsThePower := by
  unfold Obligations.GoertzelRecurrenceIsThePower
  intro rate f w
  have hstart : GoertzelHolds (2 * Real.pi * f / rate) 0 (0, 0) 0 0 := ⟨by simp, by simp⟩
  simpa only [goertzelPower, powerReal, zero_add] using hstart.power_goertzelRun w

end Sys2Proof.Machine

/-! ### The head of the stream buffer (O42, O43) -/

namespace Sys2Proof.Machine

theorem peekAction_of_short {n : Nat} {d : Dec} (r : List RasterCall) (h : d.sb.length < n) :
    peekAction n d r = decRaise d r .bufferUnderrun := if_pos h

theorem peekAction_of_le {n : Nat} {d : Dec} (r : List RasterCall) (h : n ≤ d.sb.length) :
    peekAction n d r = ⟨{ d with win := d.sb.take n }, r, .ok⟩ := if_neg (not_lt.2 h)

theorem consumeAction_of_short {n : Nat} {d : Dec} (r : List RasterCall) (h : d.sb.length < n) :
    consumeAction n d r = decRaise d r .bufferUnderrun := if_pos h

theorem consumeAction_of_le {n : Nat} {d : Dec} (r : List RasterCall) (h : n ≤ d.sb.length) :
    consumeAction n d r = ⟨d.consume n, r, .ok⟩ := if_neg (not_lt.2 h)

/-- Settles O42: the copy, or the underrun. -/
theorem peekCopiesTheHead : Obligations.PeekCopiesTheHead := by
  unfold Obligations.PeekCopiesTheHead
  intro s n hfault
  exact ⟨fun hfull => decCommand_of_eq hfault (peekAction_of_le _ hfull),
    fun hshort => decCommand_of_eq hfault (peekAction_of_short _ hshort)⟩

/-- Settles O43: the removal, or the underrun. -/
theorem consumeRemovesTheHead : Obligations.ConsumeRemovesTheHead := by
  unfold Obligations.ConsumeRemovesTheHead
  intro s n hfault
  exact ⟨fun hfull => decCommand_of_eq hfault (consumeAction_of_le _ hfull),
    fun hshort => decCommand_of_eq hfault (consumeAction_of_short _ hshort)⟩

end Sys2Proof.Machine

/-! ### Confirm and consume (O47, O48) -/

namespace Sys2Proof.Machine

section
variable {c : Config} {f n : Nat} {d : Dec} (next : DecState) (r : List RasterCall)

theorem toneAction_of_short (h : d.sb.length < n) : toneAction c f n next d r = decRaise d r .bufferUnderrun := if_pos h

theorem toneAction_of_detected (h : n ≤ d.sb.length) (htone : toneDetected c f (sbPeek d 0 n) = true) :
    toneAction c f n next d r = ⟨{ d.consume n with state := next }, r, .ok⟩ :=
  (if_neg (not_lt.2 h)).trans (if_pos htone)

theorem toneAction_of_absent (h : n ≤ d.sb.length) (htone : toneDetected c f (sbPeek d 0 n) = false) :
    toneAction c f n next d r = decHold d r .toneAbsent :=
  (if_neg (not_lt.2 h)).trans (if_neg (by simp [htone]))

end

/-- A tone test as a command, with the latch clear: underrun, detect and consume, or hold (R228). -/
theorem decCommand_toneAction {s : State} (hfault : s.dec.fault = none) (f n : Nat) (next : DecState) :
    (s.dec.sb.length < n → decCommand s (toneAction s.cfg f n next) = .next (s.report (.raised .bufferUnderrun)))
    ∧ (n ≤ s.dec.sb.length → toneDetected s.cfg f (s.dec.sb.take n) = true →
      decCommand s (toneAction s.cfg f n next) = .next (({ s with
        dec := { s.dec with sb := s.dec.sb.drop n, state := next } } : State).report .ok))
    ∧ (n ≤ s.dec.sb.length → toneDetected s.cfg f (s.dec.sb.take n) = false →
      decCommand s (toneAction s.cfg f n next) = .next (s.report (.held .toneAbsent))) :=
  ⟨fun hshort => decCommand_of_eq hfault (toneAction_of_short next _ hshort),
    fun hfull htone => decCommand_of_eq hfault (toneAction_of_detected next _ hfull htone),
    fun hfull htone => decCommand_of_eq hfault (toneAction_of_absent next _ hfull htone)⟩

/-- Settles O47: the tone test at `SYNC_FREQ`. -/
theorem syncdetConfirmsAndConsumes : Obligations.SyncdetConfirmsAndConsumes := by
  unfold Obligations.SyncdetConfirmsAndConsumes
  intro s hfault
  exact decCommand_toneAction hfault s.cfg.syncFreq (sampleCount s.cfg s.cfg.syncUs) .awaitingPorch

/-- Settles O48: the tone test at `PORCH_FREQ`. -/
theorem porchdetConfirmsAndConsumes : Obligations.PorchdetConfirmsAndConsumes := by
  unfold Obligations.PorchdetConfirmsAndConsumes
  intro s hfault
  exact decCommand_toneAction hfault s.cfg.porchFreq (sampleCount s.cfg s.cfg.porchUs) (.decodingLine 0)

end Sys2Proof.Machine

/-! ### The stop (O55) -/

namespace Sys2Proof.Machine

/-- The stop signal is looked at before the first step of a pass (R262). -/
theorem passAction_of_stopped {c : Config} {d : Dec} (r : List RasterCall) (h : d.stopped = true) :
    passAction c d r = ⟨d, r, .ok⟩ := if_pos h

/-- After a stop an `APPEND` is refused and its samples leave the port (R220). -/
theorem exec_append_of_stopped {s : State} (n : BitVec 32) (hfault : s.dec.fault = none) (h : s.dec.stopped = true) :
    exec (.append n) s = .next (({ s with host := s.host.advancePort n.toNat } : State).refuse .stopped) :=
  (if_neg (by simp [decBlocked_eq_false hfault])).trans (if_pos h)

theorem exec_stop (s : State) : exec .stop s = decCommand s fun d r => ⟨d.setStopped, r, .ok⟩ := rfl

/-- Settles O55: the stop, and each command after it. -/
theorem stopEndsTheDecodeLoop : Obligations.StopEndsTheDecodeLoop := by
  unfold Obligations.StopEndsTheDecodeLoop
  intro s hfault t
  refine ⟨?_, ?_, fun n => exec_append_of_stopped (s := t) n hfault rfl, _, rfl, rfl⟩
  · exact (exec_stop s).trans (decCommand_of_eq hfault rfl)
  · exact decCommand_of_eq (s := t) hfault (passAction_of_stopped _ rfl)

end Sys2Proof.Machine

/-! ### The stuck decoder (O60) -/

namespace Sys2Proof.Machine

/-- The three ways to be stuck, state by state. -/
theorem stuck_iff {c : Config} {d : Dec} : Stuck c d ↔
    (d.state = .awaitingVIS ∧ c.visSlotsRequired * sampleCount c c.bitUs ≤ d.sb.length ∧ visByte c d ≠ c.visCode)
      ∨ (d.state = .awaitingSync ∧ sampleCount c c.syncUs ≤ d.sb.length
        ∧ toneDetected c c.syncFreq (sbPeek d 0 (sampleCount c c.syncUs)) = false)
      ∨ (d.state = .awaitingPorch ∧ sampleCount c c.porchUs ≤ d.sb.length
        ∧ toneDetected c c.porchFreq (sbPeek d 0 (sampleCount c c.porchUs)) = false) := by
  unfold Stuck
  cases d.state <;> simp

section
variable {c : Config} {d : Dec}

theorem visdetAction_of_mismatch (r : List RasterCall)
    (hfull : c.visSlotsRequired * sampleCount c c.bitUs ≤ d.sb.length) (hbyte : visByte c d ≠ c.visCode) :
    visdetAction c d r = decHold d r .protocolMismatch :=
  (if_neg (not_lt.2 hfull)).trans (if_neg hbyte)

/-- The action of a stuck decoder holds (R247). -/
theorem Stuck.stepAction_holds (h : Stuck c d) (r : List RasterCall) : ∃ x, stepAction c d r = decHold d r x := by
  rcases stuck_iff.1 h with ⟨hstate, hfull, hbyte⟩ | ⟨hstate, hfull, htone⟩ | ⟨hstate, hfull, htone⟩
  · exact ⟨_, (stepAction_awaitingVIS r hstate).trans (visdetAction_of_mismatch r hfull hbyte)⟩
  · exact ⟨_, (stepAction_awaitingSync r hstate).trans (toneAction_of_absent _ r hfull htone)⟩
  · exact ⟨_, (stepAction_awaitingPorch r hstate).trans (toneAction_of_absent _ r hfull htone)⟩

/-- A pass over a stuck decoder, stopped or not, changes nothing (R262). -/
theorem Stuck.passAction_unchanged (h : Stuck c d) (r : List RasterCall) : passAction c d r = ⟨d, r, .ok⟩ := by
  cases hstopped : d.stopped with
  | true => exact passAction_of_stopped r hstopped
  | false =>
    obtain ⟨x, hstep⟩ := h.stepAction_holds r
    unfold passAction passBound passLoop
    rw [if_neg (by simp [hstopped]), hstep]
    rfl

/-- The VIS byte is read from the required slots: samples behind them do not change it (R228, R246). -/
theorem visByte_appendSb (hslots : c.visSkipSlots + 8 ≤ c.visSlotsRequired)
    (hfull : c.visSlotsRequired * sampleCount c c.bitUs ≤ d.sb.length) (vs : List Sample) :
    visByte c (d.appendSb vs) = visByte c d := by
  unfold visByte
  refine congrArg (assembleVis c.visBitOrder)
    (List.map_congr_left fun j hj => congrArg (visBit c) (sbPeek_appendSb _ _ _ _ ?_))
  have hj8 : j < 8 := List.mem_range.1 hj
  calc (c.visSkipSlots + j) * sampleCount c c.bitUs + sampleCount c c.bitUs
      = (c.visSkipSlots + j + 1) * sampleCount c c.bitUs := (Nat.succ_mul _ _).symm
    _ ≤ c.visSlotsRequired * sampleCount c c.bitUs := Nat.mul_le_mul_right _ (by omega)
    _ ≤ d.sb.length := hfull

/-- More samples do not free a stuck decoder (R338). -/
theorem Stuck.appendSb (hslots : c.visSkipSlots + 8 ≤ c.visSlotsRequired) (h : Stuck c d) (vs : List Sample) :
    Stuck c (d.appendSb vs) := by
  have hgrows : d.sb.length ≤ (d.appendSb vs).sb.length := by simp
  rcases stuck_iff.1 h with ⟨hstate, hfull, hbyte⟩ | ⟨hstate, hfull, htone⟩ | ⟨hstate, hfull, htone⟩
  · exact stuck_iff.2 (.inl ⟨hstate, hfull.trans hgrows, (visByte_appendSb hslots hfull vs).trans_ne hbyte⟩)
  · exact stuck_iff.2 (.inr (.inl ⟨hstate, hfull.trans hgrows, by rwa [sbPeek_appendSb _ _ _ _ (by omega)]⟩))
  · exact stuck_iff.2 (.inr (.inr ⟨hstate, hfull.trans hgrows, by rwa [sbPeek_appendSb _ _ _ _ (by omega)]⟩))

/-- The stop flag has no part in being stuck. -/
theorem Stuck.setStopped (h : Stuck c d) : Stuck c d.setStopped := h

end

/-- From a stuck state to one with the same `CFG`, `STATE`, `ROW` and raster, its samples at the head, still stuck. -/
structure StaysStuck (s t : State) : Prop where
  cfg : t.cfg = s.cfg
  state : t.dec.state = s.dec.state
  row : t.dec.row = s.dec.row
  raster : t.host.raster = s.host.raster
  sb_prefix : s.dec.sb <+: t.dec.sb
  stuck : Stuck t.cfg t.dec

theorem StaysStuck.trans {s t u : State} (h : StaysStuck s t) (h' : StaysStuck t u) : StaysStuck s u where
  cfg := h'.cfg.trans h.cfg
  state := h'.state.trans h.state
  row := h'.row.trans h.row
  raster := h'.raster.trans h.raster
  sb_prefix := h.sb_prefix.trans h'.sb_prefix
  stuck := h'.stuck

/-- A state that differs from a stuck one in neither `CFG`, `DEC` nor the raster. -/
theorem staysStuck_of_eq {s t : State} (h : Stuck s.cfg s.dec) (hcfg : t.cfg = s.cfg) (hdec : t.dec = s.dec)
    (hraster : t.host.raster = s.host.raster) : StaysStuck s t where
  cfg := hcfg
  state := by rw [hdec]
  row := by rw [hdec]
  raster := hraster
  sb_prefix := by rw [hdec]
  stuck := by rwa [hcfg, hdec]

section
variable {s t : State}

theorem exec_pass_staysStuck (h : Stuck s.cfg s.dec) (hexec : exec .pass s = .next t) : StaysStuck s t := by
  rcases decCommand_cases s (passAction s.cfg) with ⟨-, hcmd⟩ | ⟨-, hcmd⟩
  · cases hcmd.symm.trans hexec
    exact staysStuck_of_eq h rfl rfl rfl
  · rw [h.passAction_unchanged] at hcmd
    cases hcmd.symm.trans hexec
    exact staysStuck_of_eq h rfl rfl rfl

theorem exec_stop_staysStuck (h : Stuck s.cfg s.dec) (hexec : exec .stop s = .next t) : StaysStuck s t := by
  rw [exec_stop] at hexec
  rcases decCommand_cases s fun d r => ⟨d.setStopped, r, .ok⟩ with ⟨-, hcmd⟩ | ⟨-, hcmd⟩ <;> cases hcmd.symm.trans hexec
  · exact staysStuck_of_eq h rfl rfl rfl
  · exact ⟨rfl, rfl, rfl, rfl, List.prefix_rfl, h.setStopped⟩

theorem exec_append_staysStuck {n : BitVec 32} (hcfg : ConfigValid s.cfg) (h : Stuck s.cfg s.dec)
    (hexec : exec (.append n) s = .next t) : StaysStuck s t := by
  obtain ⟨-, -, -, -, -, -, -, hslots, -⟩ := hcfg
  have hgrown := h.appendSb hslots (portSamples s.host n.toNat)
  rcases exec_append_cases n s with ⟨-, heq⟩ | heq | heq | heq
  · cases heq.symm.trans hexec
    exact staysStuck_of_eq h rfl rfl rfl
  · cases heq.symm.trans hexec
    exact staysStuck_of_eq h rfl rfl rfl
  · cases heq.symm.trans hexec
  · rw [hgrown.passAction_unchanged] at heq
    cases heq.symm.trans hexec
    exact ⟨rfl, rfl, rfl, rfl, List.prefix_append _ _, hgrown⟩

/-- A command of the decode loop leaves a stuck decoder stuck (R338). -/
theorem exec_loopCommand_staysStuck {i : Instr} (hloop : LoopCommand i) (hcfg : ConfigValid s.cfg)
    (h : Stuck s.cfg s.dec) (hexec : exec i s = .next t) : StaysStuck s t := by
  cases i with
  | append n => exact exec_append_staysStuck hcfg h hexec
  | pass => exact exec_pass_staysStuck h hexec
  | stop => exact exec_stop_staysStuck h hexec
  | _ => exact hloop.elim

end

/-- So does a list of them: each leaves the next a stuck state of the same `CFG`. -/
theorem runCommands_staysStuck {cs : List Instr} {s t : State} (hcfg : ConfigValid s.cfg) (h : Stuck s.cfg s.dec)
    (hcs : ∀ i ∈ cs, LoopCommand i) (hrun : runCommands cs s = .next t) : StaysStuck s t := by
  induction cs generalizing s with
  | nil =>
    cases hrun
    exact staysStuck_of_eq h rfl rfl rfl
  | cons i cs ih =>
    obtain ⟨hi, hcs⟩ := List.forall_mem_cons.1 hcs
    unfold runCommands at hrun
    cases hexec : exec i s with
    | next u =>
      rw [hexec] at hrun
      have hstep := exec_loopCommand_staysStuck hi hcfg h hexec
      exact hstep.trans (ih (hstep.cfg ▸ hcfg) hstep.stuck hcs hrun)
    | fault f => rw [hexec] at hrun; cases hrun
    | refused r => rw [hexec] at hrun; cases hrun

theorem exec_append_completes (n : BitVec 32) {s : State} (hmax : s.cfg.sbMax = none) :
    ∃ t, exec (.append n) s = .next t := by
  by_cases hfault : s.dec.fault = none
  · cases hstopped : s.dec.stopped with
    | true => exact ⟨_, exec_append_of_stopped n hfault hstopped⟩
    | false => exact ⟨_, exec_append_of_clear hfault hstopped (by simp [hmax])⟩
  · exact ⟨_, if_pos (decBlocked_iff.2 hfault)⟩

theorem decCommand_completes (s : State) (op : Dec → List RasterCall → DecOut) : ∃ t, decCommand s op = .next t := by
  rcases decCommand_cases s op with ⟨-, hcmd⟩ | ⟨-, hcmd⟩ <;> exact ⟨_, hcmd⟩

/-- With no bound on `SB` a command of the decode loop completes (R222). -/
theorem exec_loopCommand_completes {i : Instr} (hloop : LoopCommand i) {s : State} (hmax : s.cfg.sbMax = none) :
    ∃ t, exec i s = .next t := by
  cases i with
  | append n => exact exec_append_completes n hmax
  | pass => exact decCommand_completes s _
  | stop => exact exec_stop s ▸ decCommand_completes s _
  | _ => exact hloop.elim

theorem runCommands_completes {cs : List Instr} {s : State} (hcfg : ConfigValid s.cfg) (h : Stuck s.cfg s.dec)
    (hcs : ∀ i ∈ cs, LoopCommand i) (hmax : s.cfg.sbMax = none) : ∃ t, runCommands cs s = .next t := by
  induction cs generalizing s with
  | nil => exact ⟨s, rfl⟩
  | cons i cs ih =>
    obtain ⟨hi, hcs⟩ := List.forall_mem_cons.1 hcs
    obtain ⟨u, hexec⟩ := exec_loopCommand_completes hi hmax
    have hstep := exec_loopCommand_staysStuck hi hcfg h hexec
    obtain ⟨t, hrun⟩ := ih (hstep.cfg ▸ hcfg) hstep.stuck hcs (hstep.cfg ▸ hmax)
    refine ⟨t, ?_⟩
    unfold runCommands
    rw [hexec]
    exact hrun

/-- Settles O60: being stuck is kept command by command, and each command completes where nothing bounds `SB`. -/
theorem stuckDecoderStaysStuck : Obligations.StuckDecoderStaysStuck := by
  unfold Obligations.StuckDecoderStaysStuck
  intro s cs hcfg hstuck hcs
  refine ⟨fun t hrun => ?_, runCommands_completes hcfg hstuck hcs⟩
  have hstays := runCommands_staysStuck hcfg hstuck hcs hrun
  exact ⟨hstays.state, hstays.row, hstays.raster, hstays.sb_prefix, hstays.stuck⟩

end Sys2Proof.Machine

/-! ### The reset of the decoder (O56) -/

namespace Sys2Proof.Machine

/-- Settles O56: the reset state's registers hold sums of no terms, whose values are 0. -/
theorem dresetRestoresTheDecoder : Obligations.DresetRestoresTheDecoder := by
  unfold Obligations.DresetRestoresTheDecoder
  exact fun s => ⟨⟨.zero⟩, ⟨.zero, 0⟩, power_zero_value, magnitude_zero_value, rfl⟩

end Sys2Proof.Machine

/-! ### The state's action as a command (O52) -/

namespace Sys2Proof.Machine

theorem decCommand_congr {s : State} {op op' : Dec → List RasterCall → DecOut}
    (h : op s.dec s.host.raster = op' s.dec s.host.raster) : decCommand s op = decCommand s op' := by
  unfold decCommand
  rw [h]

/-- `CHDEC k` runs the action of channel `k` (R252). -/
theorem exec_chdec (k : Fin 3) (s : State) :
    exec (.chdec (BitVec.ofNat 2 k.val)) s = decCommand s (chdecAction s.cfg k) := by
  have hoperand : channelOperand (BitVec.ofNat 2 k.val) = some k := by
    fin_cases k <;> rfl
  change execChdec _ s = _
  unfold execChdec
  rw [hoperand]

/-- The command of the current state's action does what `STEP` does, refused or not (R240, R260). -/
theorem exec_actionCommand (s : State) : exec (actionCommand s.dec.state) s = exec .step s := by
  cases hstate : s.dec.state with
  | awaitingVIS => exact decCommand_congr (stepAction_awaitingVIS s.host.raster hstate).symm
  | awaitingSync => exact decCommand_congr (stepAction_awaitingSync s.host.raster hstate).symm
  | awaitingPorch => exact decCommand_congr (stepAction_awaitingPorch s.host.raster hstate).symm
  | decodingLine k =>
    exact (exec_chdec k s).trans (decCommand_congr (stepAction_decodingLine s.host.raster hstate).symm)

/-- Settles O52: `STEP` is a command of `DEC`, so it answers, and the action's command answers the same. -/
theorem stepRunsTheStatesAction : Obligations.StepRunsTheStatesAction := by
  unfold Obligations.StepRunsTheStatesAction
  intro s _
  obtain ⟨t, hstep⟩ := decCommand_completes s (stepAction s.cfg)
  exact ⟨t, hstep, (exec_actionCommand s).trans hstep⟩

end Sys2Proof.Machine

/-! ### The VIS header (O45, O46) -/

namespace Sys2Proof.Machine

section
variable {c : Config} {d : Dec} (r : List RasterCall)

theorem visdetAction_of_short (hshort : d.sb.length < c.visSlotsRequired * sampleCount c c.bitUs) :
    visdetAction c d r = decRaise d r .bufferUnderrun := if_pos hshort

theorem visdetAction_of_match (hfull : c.visSlotsRequired * sampleCount c c.bitUs ≤ d.sb.length)
    (hbyte : visByte c d = c.visCode) :
    visdetAction c d r =
      ⟨{ d.consume (c.visConsumeSlots * sampleCount c c.bitUs) with row := 0, state := .awaitingSync },
        r ++ [.reset c.width c.height], .ok⟩ :=
  (if_neg (not_lt.2 hfull)).trans (if_pos hbyte)

end

/-- Settles O45: the three cases of `VISDET`. -/
theorem visdetMatchesOrHolds : Obligations.VisdetMatchesOrHolds := by
  unfold Obligations.VisdetMatchesOrHolds
  intro s hfault spb
  exact ⟨fun hshort => decCommand_of_eq hfault (visdetAction_of_short _ hshort),
    fun hfull hbyte => decCommand_of_eq hfault (visdetAction_of_match _ hfull hbyte),
    fun hfull hbyte => decCommand_of_eq hfault (visdetAction_of_mismatch _ hfull hbyte)⟩

/-- A peek inside the first `m` samples gives samples of theirs. -/
theorem mem_take_of_mem_sbPeek {d : Dec} {i n m : Nat} {v : Sample} (hinside : i + n ≤ m) (hv : v ∈ sbPeek d i n) :
    v ∈ d.sb.take m := by
  unfold sbPeek at hv
  rw [List.take_drop] at hv
  exact (List.take_prefix_take_left hinside).subset (List.mem_of_mem_drop hv)

/-- A slot of zeros is the bit 0: neither frequency has power, and a tie gives 0 (R246). -/
theorem visBit_of_zeros {c : Config} (hrate : 0 < c.sampleRate) {w : List Sample} (hzeros : ∀ v ∈ w, v = 0) :
    visBit c w = false := by
  have hpower : ¬ powerReal c.sampleRate c.visRxF0 w < powerReal c.sampleRate c.visRxF1 w := by
    rw [powerReal_of_zeros _ _ _ hzeros, powerReal_of_zeros _ _ _ hzeros]
    exact lt_irrefl 0
  exact Bool.eq_false_iff.2 fun hbit => hpower ((powerGreater_iff _ _ _ w hrate).1 hbit)

theorem assembleVis_replicate_false (o : VisBitOrder) : assembleVis o (List.replicate 8 false) = 0 := by
  cases o <;> rfl

/-- A header window of zeros assembles to the byte 0, in both bit orders (R351). -/
theorem visByte_of_zeros {c : Config} {d : Dec} (hrate : 0 < c.sampleRate)
    (hslots : c.visSkipSlots + 8 ≤ c.visSlotsRequired)
    (hzeros : ∀ v ∈ d.sb.take (c.visSlotsRequired * sampleCount c c.bitUs), v = 0) : visByte c d = 0 := by
  have hbits : ((List.range 8).map fun j =>
      visBit c (sbPeek d ((c.visSkipSlots + j) * sampleCount c c.bitUs) (sampleCount c c.bitUs)))
        = List.replicate 8 false := by
    refine List.eq_replicate_iff.2 ⟨by simp, fun b hb => ?_⟩
    obtain ⟨j, hj, rfl⟩ := List.mem_map.1 hb
    have hj8 : j < 8 := List.mem_range.1 hj
    have hinside : (c.visSkipSlots + j) * sampleCount c c.bitUs + sampleCount c c.bitUs
        ≤ c.visSlotsRequired * sampleCount c c.bitUs := by
      rw [← Nat.succ_mul]
      exact Nat.mul_le_mul_right _ (by omega)
    exact visBit_of_zeros hrate fun v hv => hzeros v (mem_take_of_mem_sbPeek hinside hv)
  unfold visByte
  dsimp only
  rw [hbits, assembleVis_replicate_false]

/-- Settles O46: the byte is 0, so `VISDET` matches the code 0 and no other. -/
theorem silenceReadsAsVisZero : Obligations.SilenceReadsAsVisZero := by
  unfold Obligations.SilenceReadsAsVisZero
  intro s hcfg hfault hfull hzeros
  obtain ⟨-, -, -, -, -, -, -, hslots, -, hrate, -⟩ := hcfg
  have hbyte := visByte_of_zeros hrate hslots hzeros
  refine ⟨hbyte, fun hcode => ?_, fun hcode => ?_⟩
  · exact ⟨_, decCommand_of_eq hfault (visdetAction_of_match _ hfull (hbyte.trans hcode.symm)), rfl, rfl, rfl⟩
  · exact decCommand_of_eq hfault (visdetAction_of_mismatch _ hfull (hbyte.trans_ne hcode.symm))

end Sys2Proof.Machine

/-! ### Green and Blue (O49) -/

namespace Sys2Proof.Machine

/-- Settles O49: an underrun, or the channel's line. -/
theorem chdecDecodesGreenAndBlue : Obligations.ChdecDecodesGreenAndBlue := by
  unfold Obligations.ChdecDecodesGreenAndBlue
  intro s hfault n spp line
  refine ⟨fun hshort => ⟨?_, ?_⟩, fun hfull => ⟨?_, ?_⟩⟩
  · exact decCommand_of_eq hfault (chdecAction_underrun s.cfg 0 s.dec _ hshort)
  · exact decCommand_of_eq hfault (chdecAction_underrun s.cfg 1 s.dec _ hshort)
  · exact decCommand_of_eq hfault (chdecAction_green s.cfg s.dec _ hfull)
  · exact decCommand_of_eq hfault (chdecAction_blue s.cfg s.dec _ hfull)

end Sys2Proof.Machine

/-! ### The pass (O54) -/

namespace Sys2Proof.Machine

/-- What a progressed step does to the buffer: it takes a sample, or it is a VIS match whose `VIS_CONSUME_SLOTS` is 0
(R243, R264). -/
def TakesSampleOrMatchesVis (c : Config) (d d' : Dec) : Prop :=
  d'.sb.length < d.sb.length
    ∨ (c.visConsumeSlots = 0 ∧ d.state = .awaitingVIS ∧ d'.state = .awaitingSync ∧ d'.sb.length = d.sb.length)

section
variable {c : Config} {d : Dec} {r : List RasterCall}

theorem length_consume_lt {n : Nat} (hn : 1 ≤ n) (hfull : n ≤ d.sb.length) :
    (d.consume n).sb.length < d.sb.length := by
  rw [Dec.consume_sb, List.length_drop]
  omega

/-- A VIS match consumes part of the header it was read from (R243, R246). -/
theorem visdetAction_takesSampleOrMatchesVis (hbit : 1 ≤ sampleCount c c.bitUs)
    (hconsume : c.visConsumeSlots ≤ c.visSlotsRequired) (hstate : d.state = .awaitingVIS)
    (hok : (visdetAction c d r).result = .ok) : TakesSampleOrMatchesVis c d (visdetAction c d r).dec := by
  rcases visdetAction_cases c d r with ⟨-, heq⟩ | ⟨hfull, -, heq⟩ | ⟨-, -, heq⟩ <;> rw [heq] at hok ⊢
  · cases hok
  · rcases Nat.eq_zero_or_pos c.visConsumeSlots with hzero | hpos
    · exact .inr ⟨hzero, hstate, rfl, by simp [hzero]⟩
    · exact .inl (length_consume_lt (Nat.mul_pos hpos hbit) ((Nat.mul_le_mul_right _ hconsume).trans hfull))
  · cases hok

/-- A detected tone is consumed (R248, R250). -/
theorem toneAction_takesSample {f n : Nat} {next : DecState} (hn : 1 ≤ n)
    (hok : (toneAction c f n next d r).result = .ok) : (toneAction c f n next d r).dec.sb.length < d.sb.length := by
  rcases toneAction_cases c f n next d r with ⟨-, heq⟩ | ⟨hfull, -, heq⟩ | ⟨-, -, heq⟩ <;> rw [heq] at hok ⊢
  · cases hok
  · exact length_consume_lt hn hfull
  · cases hok

theorem rowoutAction_sb (c : Config) (d : Dec) (r : List RasterCall) : (rowoutAction c d r).dec.sb = d.sb := by
  rcases rowoutAction_cases c d r with ⟨x, heq⟩ | ⟨-, -, heq⟩ <;> rw [heq]

/-- A scan's windows leave the buffer, for each channel (R252). -/
theorem chdecAction_sb (k : Fin 3) (hfull : sampleCount c c.scanUs ≤ d.sb.length) :
    (chdecAction c k d r).dec.sb = d.sb.drop (c.width * (sampleCount c c.scanUs / c.width)) :=
  match k with
  | 0 => by rw [chdecAction_green c d r hfull, Dec.consume_sb]
  | 1 => by rw [chdecAction_blue c d r hfull, Dec.consume_sb]
  | 2 => by rw [chdecAction_red c d r hfull, rowoutAction_sb, Dec.consume_sb]

/-- A decoded channel takes at least one sample a pixel (R243, R252). -/
theorem chdecAction_takesSample {k : Fin 3} (hwidth : 1 ≤ c.width) (hspp : 1 ≤ sampleCount c c.scanUs / c.width)
    (hok : (chdecAction c k d r).result = .ok) : (chdecAction c k d r).dec.sb.length < d.sb.length := by
  rcases lt_or_ge d.sb.length (sampleCount c c.scanUs) with hshort | hfull
  · rw [chdecAction_underrun c k d r hshort] at hok
    cases hok
  · rw [chdecAction_sb k hfull]
    exact length_consume_lt (Nat.mul_pos hwidth hspp) ((Nat.mul_div_le _ _).trans hfull)

/-- A progressed step takes a sample, or matches a VIS header without taking one (R264). -/
theorem stepAction_takesSampleOrMatchesVis (hcfg : ConfigValid c) (hok : (stepAction c d r).result = .ok) :
    TakesSampleOrMatchesVis c d (stepAction c d r).dec := by
  obtain ⟨hbit, hsync, hporch, hwidth, hspp, -, -, -, hconsume, -⟩ := hcfg
  rcases DecState.eq_cases d.state with hstate | hstate | hstate | ⟨k, hstate⟩
  · rw [stepAction_awaitingVIS r hstate] at hok ⊢
    exact visdetAction_takesSampleOrMatchesVis hbit hconsume hstate hok
  · rw [stepAction_awaitingSync r hstate] at hok ⊢
    exact .inl (toneAction_takesSample hsync hok)
  · rw [stepAction_awaitingPorch r hstate] at hok ⊢
    exact .inl (toneAction_takesSample hporch hok)
  · rw [stepAction_decodingLine r hstate] at hok ⊢
    exact .inl (chdecAction_takesSample hwidth hspp hok)

end

/-- A number of `DEC` that every progressed step lowers. -/
def FallsWithProgress (c : Config) (μ : Dec → Nat) : Prop :=
  ∀ d r, (stepAction c d r).result = .ok → μ (stepAction c d r).dec < μ d

/-- Twice the buffered samples, and one more while a VIS match may come that takes none. -/
def passMeasure (d : Dec) : Nat := 2 * d.sb.length + if d.state = .awaitingVIS then 1 else 0

theorem passMeasure_le (d : Dec) : passMeasure d ≤ 2 * d.sb.length + 1 := by
  unfold passMeasure
  split <;> omega

theorem fallsWithProgress_passMeasure {c : Config} (hcfg : ConfigValid c) : FallsWithProgress c passMeasure := by
  intro d r hok
  rcases stepAction_takesSampleOrMatchesVis hcfg hok with hless | ⟨-, hstate, hstate', hlength⟩
  · calc passMeasure (stepAction c d r).dec ≤ 2 * (stepAction c d r).dec.sb.length + 1 := passMeasure_le _
      _ < 2 * d.sb.length := by omega
      _ ≤ passMeasure d := Nat.le_add_right _ _
  · simp [passMeasure, hstate, hstate', hlength]

/-- Where a VIS match consumes a sample, so does every progressed step (R264). -/
theorem fallsWithProgress_sb_length {c : Config} (hcfg : ConfigValid c) (hconsume : 1 ≤ c.visConsumeSlots) :
    FallsWithProgress c fun d => d.sb.length := by
  intro d r hok
  rcases stepAction_takesSampleOrMatchesVis hcfg hok with hless | ⟨hzero, -⟩
  · exact hless
  · omega

/-- A number that falls with every progressed step bounds how many there are. -/
theorem Progresses.le_of_falls {c : Config} {μ : Dec → Nat} (hμ : FallsWithProgress c μ) {n : Nat} {d d' : Dec}
    {r r' : List RasterCall} (h : Progresses c n d r d' r') : n ≤ μ d := by
  induction n generalizing d r with
  | zero => exact Nat.zero_le _
  | succ n ih =>
    obtain ⟨hok, hrest⟩ := h
    exact (ih hrest).trans_lt (hμ d r hok)

section
variable {c : Config} {n : Nat} {d : Dec} {r : List RasterCall}

theorem passLoop_succ_of_ok (hok : (stepAction c d r).result = .ok) :
    passLoop c (n + 1) d r = passLoop c n (stepAction c d r).dec (stepAction c d r).raster := by
  rw [passLoop]
  simp only [hok]

theorem passLoop_succ_of_ne_ok (hend : (stepAction c d r).result ≠ .ok) :
    passLoop c (n + 1) d r = ⟨(stepAction c d r).dec, (stepAction c d r).raster, .ok⟩ := by
  rw [passLoop]
  split
  · next hok => exact absurd hok hend
  · rfl

end

/-- With more fuel than a falling number allows progressed steps, the loop ends at a step that does not progress (R262). -/
theorem passLoop_drains {c : Config} {μ : Dec → Nat} (hμ : FallsWithProgress c μ) {fuel : Nat} {d : Dec}
    {r : List RasterCall} (hfuel : μ d < fuel) :
    ∃ n d' r', Progresses c n d r d' r' ∧ (stepAction c d' r').result ≠ .ok
      ∧ passLoop c fuel d r = ⟨(stepAction c d' r').dec, (stepAction c d' r').raster, .ok⟩ := by
  induction fuel generalizing d r with
  | zero => omega
  | succ fuel ih =>
    by_cases hok : (stepAction c d r).result = .ok
    · have hfall := hμ d r hok
      obtain ⟨n, d', r', hprogress, hend, hloop⟩ := ih (d := (stepAction c d r).dec) (r := (stepAction c d r).raster)
        (by omega)
      exact ⟨n + 1, d', r', ⟨hok, hprogress⟩, hend, (passLoop_succ_of_ok hok).trans hloop⟩
    · exact ⟨0, d, r, ⟨rfl, rfl⟩, hok, passLoop_succ_of_ne_ok hok⟩

/-- Settles O54: `passMeasure` falls with each progressed step and starts below the loop's fuel; the length of `SB` falls
too where a VIS match consumes a sample. -/
theorem passDrainsTheBuffer : Obligations.PassDrainsTheBuffer := by
  unfold Obligations.PassDrainsTheBuffer
  intro s hcfg hfault
  refine ⟨fun hstopped => decCommand_of_eq hfault (passAction_of_stopped _ hstopped), fun hstopped => ?_⟩
  have hfalls := fallsWithProgress_passMeasure hcfg
  have hfuel : passMeasure s.dec < passBound s.dec := Nat.lt_succ_of_le (passMeasure_le s.dec)
  obtain ⟨n, d, r, hprogress, hend, hloop⟩ := passLoop_drains hfalls (r := s.host.raster) hfuel
  have hpass : passAction s.cfg s.dec s.host.raster = ⟨(stepAction s.cfg d r).dec, (stepAction s.cfg d r).raster, .ok⟩ :=
    (if_neg (by simp [hstopped])).trans hloop
  exact ⟨n, d, r, hprogress, hend, decCommand_of_eq hfault hpass,
    (hprogress.le_of_falls hfalls).trans (passMeasure_le s.dec),
    fun hconsume => hprogress.le_of_falls (fallsWithProgress_sb_length hcfg hconsume)⟩

end Sys2Proof.Machine

/-! ### A malformed image (O32) -/

namespace Sys2Proof.Machine

/-- `ENCODE` of an absent or zero-size image raises over the reset `ENC`, and hands no buffer over (R283). -/
theorem exec_encode_of_malformed (vis : BitVec 8) {s : State}
    (himg : s.host.img = none ∨ ∃ im, s.host.img = some im ∧ (im.width = 0 ∨ im.height = 0)) :
    exec (.encode vis) s = .next (s.withEnc (encRaise .reset .malformedInput)) := by
  obtain ⟨o, rfl | ⟨im, hsome, hw, hh, -⟩, hexec⟩ := exec_encode_cases vis s
  · exact hexec
  · rcases himg with hnone | ⟨im', hsome', hsize⟩
    · cases hsome.symm.trans hnone
    · cases hsome.symm.trans hsome'
      omega

/-- A channel load over an absent or zero-size image raises, whatever the row (R182, R283). -/
theorem loadChannel_of_malformed (c : Config) {img : Option Image}
    (himg : img = none ∨ ∃ im, img = some im ∧ (im.width = 0 ∨ im.height = 0)) (ch : Fin 3) (y : Nat) (e : Enc) :
    loadChannel c img ch y e = encRaise e .malformedInput := by
  rcases himg with rfl | ⟨im, rfl, hsize⟩
  · rfl
  · exact loadChannel_of_zero_size c hsize ch y e

/-- Settles O32: both commands come to the raise, `ENCODE` over the reset unit, `LDCH` over the unit as it is. -/
theorem malformedImageRaises : Obligations.MalformedImageRaises := by
  unfold Obligations.MalformedImageRaises
  intro s himg
  refine ⟨fun vis => exec_encode_of_malformed vis himg, fun c y hc hfault => ?_⟩
  exact exec_ldch_of_raise (Nat.lt_succ_of_le hc) hfault (loadChannel_of_malformed s.cfg himg _ _ s.enc)

end Sys2Proof.Machine

/-! ### Exceptions are precise (O58) -/

namespace Sys2Proof.Machine

/-- An operation of `ENC` that ends normally, or raises with nothing written but the latch (R282). -/
def PreciseEncOperation (op : Enc → EncOut) : Prop := ∀ e, (op e).raised = none ∨ ∃ x, op e = encRaise e x

section
variable (c : Config)

theorem preciseEncOperation_advancePhase (freq : Nat) :
    PreciseEncOperation fun e => encOk { e with phase := advancePhase c freq e.phase } := fun _ => .inl rfl

theorem preciseEncOperation_renderTone (freq : Nat) (dur : Int) (taper : Bool) :
    PreciseEncOperation (renderTone c freq dur taper) := by
  intro e
  rcases lt_or_ge dur 0 with hneg | hdur
  · exact .inr ⟨_, renderTone_of_neg c freq dur taper e hneg⟩
  · exact .inl (renderTone_of_nonneg c freq dur taper e hdur ▸ rfl)

theorem preciseEncOperation_renderSweep (dur : Int) : PreciseEncOperation (renderSweep c dur) := by
  intro e
  rcases renderSweep_cases c dur e with ⟨cause, heq⟩ | ⟨-, -, -, heq⟩
  · exact .inr ⟨_, heq⟩
  · exact .inl (heq ▸ rfl)

/-- `BITS` writes no sample before it raises: its tones have one duration, so the first raises or none does (R172). -/
theorem preciseEncOperation_renderBits (bits : List Bool) (dur : Int) :
    PreciseEncOperation (renderBits c bits dur) := by
  intro e
  rcases lt_or_ge dur 0 with hneg | hdur
  · by_cases hempty : bits = []
    · exact .inl (hempty ▸ rfl)
    · exact .inr ⟨_, renderBits_of_neg c bits dur e hempty hneg⟩
  · left
    rw [renderBits_eq_fold, renderTone_fold c dur hdur, encOk_raised]

theorem preciseEncOperation_loadChannel (img : Option Image) (ch : Fin 3) (y : Nat) :
    PreciseEncOperation (loadChannel c img ch y) := by
  intro e
  rcases loadChannel_cases c img ch y e with ⟨x, -, heq⟩ | ⟨im, -, -, -, heq⟩
  · exact .inr ⟨x, heq⟩
  · exact .inl (heq ▸ rfl)

end

/-- An operation of `ENC` never holds: a hold is an outcome of `DEC` (R241). -/
theorem EncOut.result_ne_held (o : EncOut) (h : Hold) : o.result ≠ .held h := by
  unfold EncOut.result
  split <;> simp

/-- A command of `ENC` that raises has written the latch only, if its operation is precise; a refusal is no raise. -/
theorem encCommand_raised {s t : State} {op : Enc → EncOut} {x : Raise} (hop : PreciseEncOperation op)
    (hexec : encCommand s op = .next t) (hx : t.host.result = some (.raised x)) :
    t = ({ s with enc := { s.enc with fault := some x.exc } } : State).report (.raised x) := by
  rcases encCommand_cases s op with ⟨-, heq⟩ | ⟨-, heq⟩ <;> cases heq.symm.trans hexec
  · cases hx
  · rcases hop s.enc with hnone | ⟨y, hraise⟩
    · rw [State.withEnc_result, EncOut.result, hnone] at hx
      cases hx
    · rw [hraise] at hx ⊢
      cases hx
      rfl

/-- Every command of `ENC` but `ENCODE` that raises has written the latch only (R282, R283). -/
theorem exec_enc_raised {i : Instr} {s t : State} {x : Raise} (hu : unitOf i = .enc)
    (hencode : ∀ vis, i ≠ .encode vis) (hexec : exec i s = .next t) (hx : t.host.result = some (.raised x)) :
    t = ({ s with enc := { s.enc with fault := some x.exc } } : State).report (.raised x) := by
  cases i with
  | padv freq => exact encCommand_raised (preciseEncOperation_advancePhase s.cfg (freqOperand freq)) hexec hx
  | tone freq dur taper => exact encCommand_raised (preciseEncOperation_renderTone s.cfg _ _ taper) hexec hx
  | sweep dur => exact encCommand_raised (preciseEncOperation_renderSweep s.cfg _) hexec hx
  | bits n pat dur =>
    change execBits n pat dur s = .next t at hexec
    unfold execBits at hexec
    split_ifs at hexec
    · cases hexec
      cases hx
    · cases hexec
      cases hx
    · exact encCommand_raised (preciseEncOperation_renderBits s.cfg _ _) hexec hx
  | sil dur => exact encCommand_raised (fun e => .inl (renderSilence_raised s.cfg _ e)) hexec hx
  | ldch k y =>
    change execLdch k y s = .next t at hexec
    unfold execLdch at hexec
    cases hk : channelOperand k with
    | none =>
      rw [hk] at hexec
      cases hexec
      cases hx
    | some ch =>
      rw [hk] at hexec
      exact encCommand_raised (preciseEncOperation_loadChannel s.cfg s.host.img ch _) hexec hx
  | ereset =>
    cases hexec
    cases hx
  | encode vis => exact absurd rfl (hencode vis)
  | _ => cases hu

/-- No command of `ENC` holds. -/
theorem exec_enc_not_held {i : Instr} {s t : State} {h : Hold} (hu : unitOf i = .enc) (hexec : exec i s = .next t) :
    t.host.result ≠ some (.held h) := by
  have withEnc_not_held (u : State) (o : EncOut) : (u.withEnc o).host.result ≠ some (.held h) := fun hheld =>
    o.result_ne_held h (Option.some.inj hheld)
  by_cases hreset : i = .ereset
  · subst hreset
    cases hexec
    exact withEnc_not_held _ _
  by_cases hencode : ∃ vis, i = .encode vis
  · obtain ⟨vis, rfl⟩ := hencode
    obtain ⟨o, -, heq⟩ := exec_encode_cases vis s
    cases heq.symm.trans hexec
    exact withEnc_not_held _ _
  · rcases exec_enc_cases i s hu hreset (not_exists.1 hencode) with ⟨-, x, heq⟩ | ⟨op, -, heq⟩
    · cases heq.symm.trans hexec
      nofun
    · rcases encCommand_cases s op with ⟨-, hcmd⟩ | ⟨-, hcmd⟩ <;> cases (heq.trans hcmd).symm.trans hexec
      · nofun
      · exact withEnc_not_held _ _

/-- The outcomes of an exception: a raise or a hold (R241, R280). -/
def CmdResult.Interrupts : CmdResult → Prop
  | .raised _ => True
  | .held _ => True
  | .ok => False
  | .refused _ => False

/-- An operation of `DEC` that, where it raises or holds, has changed neither the unit nor the raster (R286 to R288). -/
def PreciseDecOperation (op : Dec → List RasterCall → DecOut) : Prop :=
  ∀ d r, (op d r).result.Interrupts → (op d r).dec = d ∧ (op d r).raster = r

section
variable (c : Config)

theorem preciseDecOperation_visdet : PreciseDecOperation (visdetAction c) := by
  intro d r
  rcases visdetAction_cases c d r with ⟨-, heq⟩ | ⟨-, -, heq⟩ | ⟨-, -, heq⟩ <;> rw [heq]
  · exact fun _ => ⟨rfl, rfl⟩
  · exact False.elim
  · exact fun _ => ⟨rfl, rfl⟩

theorem preciseDecOperation_tone (f n : Nat) (next : DecState) : PreciseDecOperation (toneAction c f n next) := by
  intro d r
  rcases toneAction_cases c f n next d r with ⟨-, heq⟩ | ⟨-, -, heq⟩ | ⟨-, -, heq⟩ <;> rw [heq]
  · exact fun _ => ⟨rfl, rfl⟩
  · exact False.elim
  · exact fun _ => ⟨rfl, rfl⟩

/-- `ROWOUT` refuses or emits: it neither raises nor holds (R256). -/
theorem rowoutAction_not_interrupts (d : Dec) (r : List RasterCall) : ¬ (rowoutAction c d r).result.Interrupts := by
  rcases rowoutAction_cases c d r with ⟨x, heq⟩ | ⟨-, -, heq⟩ <;> rw [heq] <;> exact id

/-- `CHDEC` raises before it consumes; the `ROWOUT` that ends `CHDEC 2`, after the samples are consumed, does not raise
(R252). -/
theorem preciseDecOperation_chdec (k : Fin 3) : PreciseDecOperation (chdecAction c k) := by
  intro d r
  rcases lt_or_ge d.sb.length (sampleCount c c.scanUs) with hshort | hfull
  · rw [chdecAction_underrun c k d r hshort]
    exact fun _ => ⟨rfl, rfl⟩
  match k with
  | 0 => rw [chdecAction_green c d r hfull]; exact False.elim
  | 1 => rw [chdecAction_blue c d r hfull]; exact False.elim
  | 2 =>
    rw [chdecAction_red c d r hfull]
    exact fun hint => (rowoutAction_not_interrupts c _ r hint).elim

/-- The action of each state is precise (R260). -/
theorem preciseDecOperation_step : PreciseDecOperation (stepAction c) := by
  intro d r
  unfold stepAction
  cases d.state with
  | awaitingVIS => exact preciseDecOperation_visdet c d r
  | awaitingSync => exact preciseDecOperation_tone c _ _ _ d r
  | awaitingPorch => exact preciseDecOperation_tone c _ _ _ d r
  | decodingLine k => exact preciseDecOperation_chdec c k d r

end

theorem preciseDecOperation_peek (n : Nat) : PreciseDecOperation (peekAction n) := by
  intro d r
  rcases lt_or_ge d.sb.length n with hshort | hfull
  · rw [peekAction_of_short r hshort]
    exact fun _ => ⟨rfl, rfl⟩
  · rw [peekAction_of_le r hfull]
    exact False.elim

theorem preciseDecOperation_consume (n : Nat) : PreciseDecOperation (consumeAction n) := by
  intro d r
  rcases lt_or_ge d.sb.length n with hshort | hfull
  · rw [consumeAction_of_short r hshort]
    exact fun _ => ⟨rfl, rfl⟩
  · rw [consumeAction_of_le r hfull]
    exact False.elim

theorem preciseDecOperation_goertz (c : Config) (freq : Nat) : PreciseDecOperation fun d r =>
    ⟨{ d with gp := power c.sampleRate freq d.win, gm := magnitude c.sampleRate freq d.win }, r, .ok⟩ :=
  fun _ _ => False.elim

theorem preciseDecOperation_stop : PreciseDecOperation fun d r => ⟨d.setStopped, r, .ok⟩ := fun _ _ => False.elim

/-- A pass does not surface the underrun or the hold that ends it: its outcome is `ok` (R262). -/
theorem passAction_not_interrupts (c : Config) (d : Dec) (r : List RasterCall) :
    ¬ (passAction c d r).result.Interrupts := by
  rw [passAction_result]
  exact id

/-- A command of `DEC` that raises or holds has written nothing, if its operation is precise. -/
theorem decCommand_interrupted {s t : State} {op : Dec → List RasterCall → DecOut} {q : CmdResult}
    (hop : PreciseDecOperation op) (hexec : decCommand s op = .next t) (hq : t.host.result = some q)
    (hint : q.Interrupts) : t = s.report q := by
  rcases decCommand_cases s op with ⟨-, heq⟩ | ⟨-, heq⟩ <;> cases heq.symm.trans hexec <;> cases hq
  · exact hint.elim
  · obtain ⟨hdec, hraster⟩ := hop s.dec s.host.raster hint
    rw [State.withDec, hdec, hraster]

/-- `APPEND` refuses or ends with the `ok` of its pass (R220). -/
theorem exec_append_not_interrupts {n : BitVec 32} {s t : State} {q : CmdResult}
    (hexec : exec (.append n) s = .next t) (hq : t.host.result = some q) : ¬ q.Interrupts := by
  rcases exec_append_cases n s with ⟨-, heq⟩ | heq | heq | heq <;> cases heq.symm.trans hexec <;> cases hq
  · exact id
  · exact id
  · exact passAction_not_interrupts _ _ _

/-- Every command of `DEC` that raises or holds has written nothing (R286 to R288). -/
theorem exec_dec_interrupted {i : Instr} {s t : State} {q : CmdResult} (hu : unitOf i = .dec)
    (hexec : exec i s = .next t) (hq : t.host.result = some q) (hint : q.Interrupts) : t = s.report q := by
  cases i with
  | append n => exact (exec_append_not_interrupts hexec hq hint).elim
  | peek n => exact decCommand_interrupted (preciseDecOperation_peek (countOperand n)) hexec hq hint
  | consume n => exact decCommand_interrupted (preciseDecOperation_consume (countOperand n)) hexec hq hint
  | goertz freq => exact decCommand_interrupted (preciseDecOperation_goertz s.cfg (freqOperand freq)) hexec hq hint
  | visdet => exact decCommand_interrupted (preciseDecOperation_visdet s.cfg) hexec hq hint
  | syncdet => exact decCommand_interrupted (preciseDecOperation_tone s.cfg _ _ _) hexec hq hint
  | porchdet => exact decCommand_interrupted (preciseDecOperation_tone s.cfg _ _ _) hexec hq hint
  | chdec k =>
    change execChdec k s = .next t at hexec
    unfold execChdec at hexec
    cases hk : channelOperand k with
    | none =>
      rw [hk] at hexec
      cases hexec
      cases hq
      exact hint.elim
    | some ch =>
      rw [hk] at hexec
      exact decCommand_interrupted (preciseDecOperation_chdec s.cfg ch) hexec hq hint
  | rowout =>
    exact decCommand_interrupted (fun d r h => (rowoutAction_not_interrupts s.cfg d r h).elim) hexec hq hint
  | step => exact decCommand_interrupted (preciseDecOperation_step s.cfg) hexec hq hint
  | pass => exact decCommand_interrupted (fun d r h => (passAction_not_interrupts s.cfg d r h).elim) hexec hq hint
  | stop => exact decCommand_interrupted preciseDecOperation_stop hexec hq hint
  | dreset =>
    cases hexec
    cases hq
    exact hint.elim
  | _ => cases hu

/-- Settles O58: a raise of each unit, and a hold, which is one of `DEC`. -/
theorem exceptionsArePrecise : Obligations.ExceptionsArePrecise := by
  unfold Obligations.ExceptionsArePrecise
  intro i s t hexec
  refine ⟨fun x hx hu hencode => exec_enc_raised hu hencode hexec hx,
    fun x hx hu => exec_dec_interrupted hu hexec hx trivial, fun h hh => ?_⟩
  cases hu : unitOf i with
  | enc => exact absurd hh (exec_enc_not_held hu hexec)
  | dec => exact exec_dec_interrupted hu hexec hh trivial

end Sys2Proof.Machine
